-- ==== Sys2Proof/Word.lean ====
section
/-! DEFINITION. The plain words of HUFFCORE: bytes, bit strings, symbols (00_scope.md R5, R9). -/

namespace Sys2Proof

/-- One byte unit or one command word: `BYTE_BITS` = 8 bits (R5, R91). -/
abbrev Byte := BitVec 8

/-- A bit string in the order its bits cross a stream port, first bit first (R9). -/
abbrev Bits := List Bool

/-- A symbol: a byte value `0..255` or the sentinel 256 (`NSYM` = 257 values, R5, R12). -/
abbrev Symbol := Fin 257

end Sys2Proof
end

