-- ==== Sys2Proof/Config.lean ====
section
/-! DEFINITION. The parameters of HUFFCORE (00_scope.md R5) and the free values of the model.

A constant declared `opaque` has no body: nothing can evaluate it, so a theorem about it holds for every value. -/

namespace Sys2Proof

/-- The OPEN parameters that rules read (R5, R44; U14, U15). They are carried in the state as a record that no step
changes, so that every statement holds for every value (DESIGN CHOICE, log entry 1). -/
structure Config where
  /-- `MAGIC`, the value of the file's 32-bit magic field. -/
  magic : BitVec 32
  /-- `W_BITS`, the width of a weight in bits. -/
  wBits : Nat
  deriving DecidableEq, Repr

/-- The spec's defaults: `MAGIC` = 0xFACE8201 and `W_BITS` = 32 (R5). -/
def Config.default : Config := { magic := 0xFACE8201#32, wBits := 32 }

/-- `EOF_SYM`: the end-of-stream sentinel (R5). -/
def eofSym : Symbol := 256

/-- `EOF_SEED`: the sentinel's fixed weight (R5, R22). -/
def eofSeed : Nat := 1

/-- `NODE_CAP`: the tree node capacity (R5, R27). -/
def nodeCap : Nat := 513

/-- `CODE_MAX`: the longest code in bits (R5). -/
def codeMax : Nat := 256

/-- The register number of `CMD` (R36, R72). The space of registers has these two numbers and no others (R60). -/
def regCmd : Fin 2 := 0

/-- The register number of `STATUS` (R37, R72). -/
def regStatus : Fin 2 := 1

/-- `HOST_BASE`: where the registers and table windows sit on the host's bus; no rule reads it (R72, U16). -/
opaque Config.hostBase : Nat

/-- The sink's content after the error numbered by the argument: any value (U1, R248; log entry 6), and the sink's content
after a reset inside a command (U7; log entry 11). -/
opaque Config.freeBits : Nat → Bits

/-- `WT[s]` after an Overflow in CNT: any value (U2, R122; log entry 7). -/
opaque Config.freeWeight : Nat → Nat → Nat

/-- `WT[s]` after a host write of a value above `W_MAX`: any value (R71; log entry 15). -/
opaque Config.freeWtWrite : Nat → Nat

/-- The source cursor after a reset inside a command: any value within the source (U7; log entry 11). -/
opaque Config.freeCursor : Nat → Nat

/-- What a host read of `WT` returns while a command runs: any value (U5, R71; log entry 10). -/
opaque Config.freeWtRead : Nat → Nat

/-- What a host read of `CT` returns while a command runs: any value (U5, R71; log entry 10). -/
opaque Config.freeCtRead : Nat → BitVec 266

/-- What a host finds in a sink that is not finished, or takes while a command runs: any bytes (R65, R279; log entry 16). -/
opaque Config.freeOutput : Nat → List Byte

end Sys2Proof
end

