-- ==== Sys2Proof/Syntax.lean ====
section
/-! DEFINITION. The instructions: one constructor per row of spec/opcode_table.json (30_encoding.md R92 to R95). -/

namespace Sys2Proof

/-- The two formats an instruction of the table is written in (R90): a command word on the register `CMD`, or a token of
the header on the bit source. -/
inductive Format where
  | cmd
  | hdr
  deriving DecidableEq, Repr

/-- The rows of the opcode table. The fifteen commands have no operand (R91). -/
inductive Instr where
  /-- NOP, 0x00 (R210). -/
  | nop
  /-- CNT, 0x01, count frequencies (R121). -/
  | cnt
  /-- BLD, 0x02, build the tree (R131). -/
  | bld
  /-- GEN, 0x03, generate the code table (R151). -/
  | gen
  /-- WRM, 0x04, write the magic (R212). -/
  | wrm
  /-- WRH, 0x05, write the header (R161). -/
  | wrh
  /-- ENC, 0x06, encode the body (R181). -/
  | enc
  /-- RDM, 0x07, read and check the magic (R214). -/
  | rdm
  /-- RDH, 0x08, read the header (R165). -/
  | rdh
  /-- DEC, 0x09, decode the body (R191). -/
  | dec
  /-- RWD, 0x0A, rewind the source (R216). -/
  | rwd
  /-- FIN, 0x0B, finish the sink (R218). -/
  | fin
  /-- CMP, 0x0C, compress (R222). -/
  | cmp
  /-- DCM, 0x0D, decompress (R226). -/
  | dcm
  /-- CLR, 0x0E, end the call and clear the error (R211). -/
  | clr
  /-- The reserved word 0x0F (R93). -/
  | illegal0F
  /-- A word with a bit of `[7:4]` set, 0x10 to 0xFF (R93). -/
  | illegalHi (word : Byte)
  /-- Header token HDR-I, an internal node (R94). -/
  | hdrI
  /-- Header token HDR-L, a leaf, with its 9-bit symbol field (R95, R97). -/
  | hdrL (field : BitVec 9)
  deriving DecidableEq, Repr

/-- The format an instruction is written in (R90). -/
def Instr.format : Instr → Format
  | .hdrI | .hdrL _ => .hdr
  | .nop | .cnt | .bld | .gen | .wrm | .wrh | .enc | .rdm | .rdh | .dec | .rwd | .fin | .cmp | .dcm | .clr | .illegal0F
  | .illegalHi _ => .cmd

end Sys2Proof
end

