-- ==== Sys2Proof/WellFormed.lean ====
section
/-! DEFINITION. Which terms of `Instr` stand for an encoding (30_encoding.md R92, R93, R97). -/

namespace Sys2Proof

/-- The term stands for words of the table: an ILLEGAL_HI word has a bit of `[7:4]` set (R93). Every 9-bit field makes a
leaf token, its values 257..511 included: they fit the field and are rejected when they are read (R97, R168). -/
def Instr.wf : Instr → Bool
  | .illegalHi w => w.extractLsb 7 4 != 0#4
  | .nop | .cnt | .bld | .gen | .wrm | .wrh | .enc | .rdm | .rdh | .dec | .rwd | .fin | .cmp | .dcm | .clr | .illegal0F
  | .hdrI | .hdrL _ => true

/-- The term is a token that WRH may write: a leaf's symbol is `0..256` (R24 (d), X4). -/
def Instr.writable : Instr → Bool
  | .hdrI => true
  | .hdrL f => f.toNat ≤ 256
  | .nop | .cnt | .bld | .gen | .wrm | .wrh | .enc | .rdm | .rdh | .dec | .rwd | .fin | .cmp | .dcm | .clr | .illegal0F
  | .illegalHi _ => false

end Sys2Proof
end

