-- ==== Sys2Proof/Decode.lean ====
section
/-! DEFINITION. Bit strings and numbers (00_scope.md R9), bits in bytes (20_memory.md R67), and the decoder and the encoder
of command words and header tokens (30_encoding.md R91 to R97). -/

namespace Sys2Proof

/-- `bitsN(v)`: the low `n` bits of `v`, most significant first (R9, R64, R66). -/
def bitsOf : Nat → Nat → Bits
  | 0, _ => []
  | n + 1, v => v.testBit n :: bitsOf n v

/-- The value of a bit string read most significant bit first, after a prefix of value `acc`. -/
def valFrom (acc : Nat) : Bits → Nat
  | [] => acc
  | b :: bs => valFrom (2 * acc + b.toNat) bs

/-- `val(s)`: the unsigned value of a bit string, first bit most significant (R9). -/
def val (bs : Bits) : Nat := valFrom 0 bs

/-- The bits of a byte sequence: the first stream bit is bit 7 of byte 0 (R67). -/
def bitsOfBytes (bytes : List Byte) : Bits := bytes.flatMap fun b => bitsOf 8 b.toNat

/-- The whole bytes of a bit string: byte `i` is `val(bits[8i .. 8i+7])` (R65, R67). -/
def bytesOfBits : Bits → List Byte
  | b7 :: b6 :: b5 :: b4 :: b3 :: b2 :: b1 :: b0 :: rest =>
    BitVec.ofNat 8 (val [b7, b6, b5, b4, b3, b2, b1, b0]) :: bytesOfBits rest
  | _ => []

/-- Why a bit string is not an instruction of a format. -/
inductive DecodeError where
  /-- Fewer than the 8 bits of a command word (R91). -/
  | shortCommand
  /-- No bit is left where a header token's tag is expected (R167). -/
  | noTag
  /-- Fewer than nine bits are left where a leaf token's symbol field is expected (R167). -/
  | shortField
  deriving DecidableEq, Repr

/-- The opcode map: the words of R92 and the reserved word of R93. -/
def commandTable : List (Nat × Instr) :=
  [(0x00, .nop), (0x01, .cnt), (0x02, .bld), (0x03, .gen), (0x04, .wrm), (0x05, .wrh), (0x06, .enc), (0x07, .rdm)] ++
  [(0x08, .rdh), (0x09, .dec), (0x0A, .rwd), (0x0B, .fin), (0x0C, .cmp), (0x0D, .dcm), (0x0E, .clr), (0x0F, .illegal0F)]

/-- The decoder of command words. It is total: every one of the 256 words is a command or illegal (R93). -/
def decodeCommand (w : Byte) : Instr :=
  match commandTable.lookup w.toNat with
  | some i => i
  | none => .illegalHi w

/-- The next header token of a bit string, with the bits after it (R94, R95, R97, R106). -/
def decodeToken : Bits → Except DecodeError (Instr × Bits)
  | [] => .error .noTag
  | false :: rest => .ok (.hdrI, rest)
  | true :: rest =>
    if 9 ≤ rest.length then .ok (.hdrL (BitVec.ofNat 9 (val (rest.take 9))), rest.drop 9) else .error .shortField

/-- The decoder: total on every bit string, in both formats (R90). A command word's bits come most significant first (R9). -/
def decode (f : Format) (bits : Bits) : Except DecodeError (Instr × Bits) :=
  match f with
  | .cmd =>
    if 8 ≤ bits.length then .ok (decodeCommand (BitVec.ofNat 8 (val (bits.take 8))), bits.drop 8)
    else .error .shortCommand
  | .hdr => decodeToken bits

/-- The word of a command (R92, R93); a header token has none, and the register `CMD` never holds one. -/
def Instr.word : Instr → Byte
  | .nop => 0x00#8
  | .cnt => 0x01#8
  | .bld => 0x02#8
  | .gen => 0x03#8
  | .wrm => 0x04#8
  | .wrh => 0x05#8
  | .enc => 0x06#8
  | .rdm => 0x07#8
  | .rdh => 0x08#8
  | .dec => 0x09#8
  | .rwd => 0x0A#8
  | .fin => 0x0B#8
  | .cmp => 0x0C#8
  | .dcm => 0x0D#8
  | .clr => 0x0E#8
  | .illegal0F => 0x0F#8
  | .illegalHi w => w
  | .hdrI | .hdrL _ => 0x00#8

/-- The encoder: the bits of an instruction in its format (R91 to R95). -/
def encode (i : Instr) : Bits :=
  match i with
  | .hdrI => [false]
  | .hdrL f => true :: bitsOf 9 f.toNat
  | .nop | .cnt | .bld | .gen | .wrm | .wrh | .enc | .rdm | .rdh | .dec | .rwd | .fin | .cmp | .dcm | .clr | .illegal0F
  | .illegalHi _ => bitsOf 8 i.word.toNat

/-- The bits of a word of the opcode table, in stream order, with the format they are written in. The table numbers a
command word's bits 7..0, HDR-I's one bit 0, and HDR-L's ten bits 9..0, the first bit being bit 9 (opcode_table.json). A row
of 8 bits is a command word; a row of one bit, or of ten bits in whole bytes (16), is a header token (log entry 4), and the
bits above the token are no part of it. -/
def tableBits (nbits w : Nat) : Option (Format × Bits) :=
  if nbits = 8 then (if w < 256 then some (.cmd, bitsOf 8 w) else none)
  else if nbits = 1 then some (.hdr, bitsOf 1 w)
  else if nbits = 10 ∨ nbits = 16 then (if w.testBit 9 then some (.hdr, bitsOf 10 w) else none)
  else none

/-- The instruction the decoder reads from a word of the opcode table; none where the bits are no instruction. -/
def decodeTableWord (nbits w : Nat) : Option Instr :=
  match tableBits nbits w with
  | none => none
  | some (f, bits) =>
    match decode f bits with
    | .ok (i, _) => some i
    | .error _ => none

end Sys2Proof
end

