-- ==== Sys2Proof/Machine/State.lean ====
section
/-! DEFINITION. The state of HUFFCORE and of the two ports it drives (10_state.md R20 to R43), the reasons a step can stop,
and the state after reset. Views and operations are in Operands.lean, Flags.lean and Ops.lean. -/

namespace Sys2Proof.Machine

/-- A node of the tree: one of two variants and nothing else (R23). -/
inductive Tree where
  | leaf (sym : Symbol) (weight : Nat)
  | node (weight : Nat) (left right : Tree)
  deriving DecidableEq, Repr

/-- One entry of the header reader's traversal stack (R42 (a), R165): an internal node whose left child is being read, or
one whose left child is complete and whose right child is being read. -/
inductive Frame where
  | left
  | right (left : Tree)
  deriving DecidableEq, Repr

/-- The error kinds held in `ERR` (R34). -/
inductive ErrKind where
  | none
  | badMagic
  | corruptHeader
  | truncatedBody
  | overflow
  | badCode
  | badCommand
  deriving DecidableEq, Repr

/-- The decoder's states (R32, R196). -/
inductive DState where
  | walking
  | emitted
  | done
  | error
  deriving DecidableEq, Repr

/-- What the sequencer still has to run of the command in progress (R38, R222, R226): a line of a macro, or a command of one
line. The constructors that end in `Loop`, and `header`, stand inside the command of that name, after its first lines. -/
inductive Component where
  | resetCall
  | clr
  | illegal
  | cnt
  | cntLoop
  | bld
  | bldLoop
  | gen
  | wrm
  | wrh
  | enc
  | encLoop
  | rdm
  | rdh
  | header
  | dec
  | decLoop
  | rwd
  | fin
  deriving DecidableEq, Repr

/-- One action of the host, in the notation of 30_encoding.md R105. -/
inductive HostAction where
  /-- A command: a write of its word to `CMD`, then a wait for `DONE` (R105). While busy the write is dropped and nothing is
  waited for (log entry 21). -/
  | cmd (word : Byte)
  /-- A write of the register of that number (R60, R72). A write of `CMD` so is that of a host that does not wait (R35). The
  value is as wide as the wider register; `CMD` takes its low 8 bits (log entry 17). -/
  | writeReg (n : Fin 2) (v : BitVec 16)
  /-- A read of the register of that number (R60, R72): `READ STATUS` (R37), or a read of `CMD` (R36). -/
  | readReg (n : Fin 2)
  /-- The engine advances the command in progress by one of the model's small steps (log entry 5). -/
  | engine
  /-- `ATTACH <bytes>` (R79). -/
  | attach (bytes : List Byte)
  /-- `WT[<s>] = <v>` (R71). -/
  | writeWt (s : Symbol) (v : Nat)
  /-- `READ WT[<s>]` (R71). -/
  | readWt (s : Symbol)
  /-- `READ CT[<s>]` (R71, R102). -/
  | readCt (s : Symbol)
  /-- The host takes the sink's bytes (R274, R279). -/
  | takeOutput
  /-- `RESET` (R270). -/
  | reset
  deriving DecidableEq, Repr

/-- What a read returned to the host. -/
inductive HostValue where
  | status (v : BitVec 16)
  | cmd (v : Byte)
  | weight (v : Nat)
  | code (v : BitVec 266)
  | output (bytes : List Byte)
  deriving DecidableEq, Repr

/-- `SRC`, the attached bit source: its whole content and the read cursor (R40). -/
structure Source where
  bits : Bits
  pos : Nat
  deriving DecidableEq, Repr

/-- `SNK`, the attached bit sink: the bits written so far and the `finished` flag (R41). -/
structure Sink where
  bits : Bits
  finished : Bool
  deriving DecidableEq, Repr

/-- The complete state (R20). `STATUS` and `TREEV` are views; `WT[256]` is hardwired and has no storage. -/
structure State where
  /-- `WT[0..255]` (R21). -/
  wt : Vector Nat 256
  /-- `TREE`; `none` is `TREEV` = 0 (R23, R28). -/
  tree : Option Tree
  /-- `CT[0..256]`: `none` is an invalid entry (R29). -/
  ct : Vector (Option Bits) 257
  /-- `CTV` (R30). -/
  ctV : Bool
  /-- `DSTATE` (R32). -/
  dstate : DState
  /-- `CUR`: the node of `TREE` the decoder stands on (R33). -/
  cur : Option Tree
  /-- `ERR` (R34). -/
  err : ErrKind
  /-- `BUSY` (R35). -/
  busy : Bool
  /-- `DONE` (R35). -/
  done : Bool
  /-- `CMD`: the last word accepted (R36). -/
  cmd : Byte
  /-- `SRC` (R40). -/
  src : Source
  /-- `SNK` (R41). -/
  snk : Sink
  /-- `PQ`, the tree builder's priority structure (R31). -/
  pq : List Tree
  /-- The header reader's traversal stack, top first (R42 (a)). -/
  stack : List Frame
  /-- The header reader's node count (R165, R169). -/
  nodes : Nat
  /-- What the sequencer still has to run (R38). -/
  seq : List Component
  /-- The OPEN parameters (R5); no step changes them. -/
  cfg : Config
  /-- The model's own: the host actions still to come (R105). -/
  host : List HostAction
  /-- The model's own: what the host's last read returned. -/
  hostRead : Option HostValue
  /-- The model's own: the counter the free values of Config are applied to. -/
  fresh : Nat
  deriving DecidableEq, Repr

/-- Why the machine stops with a fault. The errors of 60_exceptions.md are values of `ERR`, not faults. -/
inductive Fault where
  /-- A command's loop did not end within its bound: the command never completes (U6). Raised by the commands with a loop
  (CNT, BLD, ENC, RDH, DEC, CMP, DCM); safe; it never happens (Laws/Termination.lean). -/
  | stuck
  deriving DecidableEq, Repr

/-- Why a step is refused. -/
inductive Refusal where
  /-- An instruction whose meaning is not written yet. Raised by no arm of this model; safe. -/
  | notModelled (mnemonic : String)
  /-- `Attach` while `BUSY` = 1, which is not allowed (R79, R284, U5). Raised by the host action `attach`; safe. -/
  | attachWhileBusy
  deriving DecidableEq, Repr

/-- The outcome of an instruction or of a step. -/
abbrev Outcome := Host.Outcome State Fault Refusal

/-- How far a command, a line of a macro or one turn of a loop got: it goes on, it ended, or it ended with an error whose
entry actions (R247) have been performed. -/
inductive Progress where
  | more (s : State)
  | done (s : State)
  | raised (s : State)
  deriving DecidableEq, Repr

/-- The state after reset (R43, R270). The ports are not part of HUFFCORE: before any `Attach` they are an empty source and
an empty, unfinished sink (U4; DESIGN CHOICE, log entry 2). `cmd`, `nodes` and the model's own fields: log entries 1, 3, 9. -/
def State.reset : State where
  wt := Vector.replicate 256 0
  tree := none
  ct := Vector.replicate 257 none
  ctV := false
  dstate := .walking
  cur := none
  err := .none
  busy := false
  done := false
  cmd := 0#8
  src := { bits := [], pos := 0 }
  snk := { bits := [], finished := false }
  pq := []
  stack := []
  nodes := 0
  seq := []
  cfg := Config.default
  host := []
  hostRead := none
  fresh := 0

end Sys2Proof.Machine
end

