-- ==== Sys2Proof/Machine/Operands.lean ====
section
/-! DEFINITION. What the commands operate on: the tree (10_state.md R23 to R27, 41_tree_builder.md R133), the weight table
(R21, R22), the code table (R29, 30_encoding.md R102) and the bit source (20_memory.md R61, R63). A command word has no
operand field (R91). -/

namespace Sys2Proof.Machine

/-! ### The tree -/

/-- `weight(n)`: the weight field of either variant (R23). -/
def Tree.weight : Tree → Nat
  | .leaf _ w => w
  | .node w _ _ => w

/-- `key(n)`: the smallest symbol among the leaves under the node (R26). -/
def Tree.key : Tree → Nat
  | .leaf s _ => s.val
  | .node _ l r => min l.key r.key

/-- The number of nodes (R27). -/
def Tree.size : Tree → Nat
  | .leaf _ _ => 1
  | .node _ l r => l.size + r.size + 1

/-- The leaves, left to right, as (symbol, weight). -/
def Tree.leaves : Tree → List (Symbol × Nat)
  | .leaf s w => [(s, w)]
  | .node _ l r => l.leaves ++ r.leaves

/-- The longest root-to-leaf path, in edges (R27). -/
def Tree.depth : Tree → Nat
  | .leaf _ _ => 0
  | .node _ l r => max l.depth r.depth + 1

/-- `ser(t)`: the header of a tree, its pre-order serialization (R96). -/
def Tree.ser : Tree → Bits
  | .leaf s _ => true :: bitsOf 9 s.val
  | .node _ l r => false :: (l.ser ++ r.ser)

/-- `less(x, y)`: ascending weight, equal weights by ascending key (R133). -/
def less (x y : Tree) : Bool :=
  decide (x.weight < y.weight) || (decide (x.weight = y.weight) && decide (x.key < y.key))

/-- The child a body bit leads to: left on 0, right on 1 (R193). A leaf has no child; the walk stays on it. -/
def Tree.child : Tree → Bool → Tree
  | .leaf s w, _ => .leaf s w
  | .node _ l r, b => if b then r else l

/-! ### The weight table -/

/-- `W_MAX`, the largest weight (R5). -/
def wMax (c : Config) : Nat := 2 ^ c.wBits - 1

/-- A read of `WT[s]`: the sentinel's entry always reads `EOF_SEED` (R21, R22). -/
def wtRead (s : Symbol) (t : State) : Nat :=
  if h : s.val < 256 then t.wt[s.val] else eofSeed

/-- A write of `WT[s]`: a write to the sentinel's entry changes nothing (R22). -/
def wtWrite (s : Symbol) (v : Nat) (t : State) : State :=
  if h : s.val < 256 then { t with wt := t.wt.set s.val v } else t

/-- The table of zeros (R39, R43). -/
def wtZero : Vector Nat 256 := Vector.replicate 256 0

/-- `WT[0..255]` after an Overflow in CNT: each entry any value of `W_BITS` bits (R122, R248, U2). -/
def wtFree (c : Config) (n : Nat) : Vector Nat 256 :=
  Vector.ofFn fun s : Fin 256 => Config.freeWeight n s.val % 2 ^ c.wBits

/-! ### The code table -/

/-- The table of invalid entries (R29, R43). -/
def ctEmpty : Vector (Option Bits) 257 := Vector.replicate 257 none

/-- `CT[s] <- (1, |code|, code)` (R151). -/
def ctSet (s : Symbol) (code : Bits) (ct : Vector (Option Bits) 257) : Vector (Option Bits) 257 :=
  ct.set s.val (some code)

/-- `CT[s]` (R29). -/
def ctGet (s : Symbol) (ct : Vector (Option Bits) 257) : Option Bits := ct[s.val]

/-- `len` of an entry; 0 when it is invalid (R29). -/
def entryLen : Option Bits → Nat
  | none => 0
  | some code => code.length

/-- The 266-bit word CTE of an entry: `valid`, `len` and `codeval`, all 0 when it is invalid (R102). -/
def entryWord : Option Bits → BitVec 266
  | none => 0#266
  | some code => 1#1 ++ BitVec.ofNat 9 code.length ++ BitVec.ofNat 256 (val code)

/-! ### The bit source -/

/-- The bits not yet read. -/
def Source.rest (s : Source) : Bits := s.bits.drop s.pos

/-- How many bits are not yet read. -/
def Source.left (s : Source) : Nat := s.bits.length - s.pos

/-- `readUnit(n)`: the next `n` bits, first bit most significant, or `EOS` (`none`), which consumes what is left (R61, R62). -/
def Source.read (n : Nat) (s : Source) : Option (BitVec n) × Source :=
  if s.pos + n ≤ s.bits.length then
    (some (BitVec.ofNat n (val (s.rest.take n))), { s with pos := s.pos + n })
  else (none, { s with pos := s.bits.length })

/-- `rewind()` (R63). -/
def Source.rewind (s : Source) : Source := { s with pos := 0 }

/-! ### The bit sink -/

/-- Zero bits up to a whole number of bytes (R65). -/
def padToByte (bits : Bits) : Bits := bits ++ List.replicate ((8 - bits.length % 8) % 8) false

/-- `writeUnit(n, v)`: appends the low `n` bits of `v`, most significant first; `none` is the refusal of a finished sink
(R64). -/
def Sink.write (n v : Nat) (k : Sink) : Option Sink :=
  if k.finished then none else some { k with bits := k.bits ++ bitsOf n v }

/-- `finish()`: pads to a whole byte and closes the sink; on a finished sink it does nothing (R65). -/
def Sink.finish (k : Sink) : Sink :=
  if k.finished then k else { bits := padToByte k.bits, finished := true }

/-- The sink's content as bytes, defined only when it is finished (R65, R279). -/
def Sink.output (k : Sink) : Option (List Byte) :=
  if k.finished then some (bytesOfBits k.bits) else none

end Sys2Proof.Machine
end

