-- ==== Sys2Proof/Machine/Flags.lean ====
section
/-! DEFINITION. The flags and fields the host reads (10_state.md R28 to R37) and which commands run while an error is
recorded (46_container_and_control.md R220, 60_exceptions.md R249). -/

namespace Sys2Proof.Machine

/-- `TREEV`: 1 when `TREE` holds a complete tree (R28). -/
def treeV (s : State) : Bool := s.tree.isSome

/-- The 3-bit code of `ERR` (R34). Code 7 is never used (X3). -/
def ErrKind.code : ErrKind → BitVec 3
  | .none => 0#3
  | .badMagic => 1#3
  | .corruptHeader => 2#3
  | .truncatedBody => 3#3
  | .overflow => 4#3
  | .badCode => 5#3
  | .badCommand => 6#3

/-- The 2-bit code of `DSTATE` (R32). -/
def DState.code : DState → BitVec 2
  | .walking => 0#2
  | .emitted => 1#2
  | .done => 2#2
  | .error => 3#2

/-- `STATUS`, a view of the fields it shows: `[15:9]` reserved 0, `CTV`, `TREEV`, `DSTATE`, `ERR`, `DONE`, `BUSY` (R37). -/
def statusWord (s : State) : BitVec 16 :=
  0#7 ++ BitVec.ofBool s.ctV ++ BitVec.ofBool (treeV s) ++ s.dstate.code ++ s.err.code ++ BitVec.ofBool s.done ++
    BitVec.ofBool s.busy

/-- The commands that run while `ERR` is set: NOP, FIN, CLR (R220, R249). -/
def runsUnderError : Instr → Bool
  | .nop | .fin | .clr => true
  | .cnt | .bld | .gen | .wrm | .wrh | .enc | .rdm | .rdh | .dec | .rwd | .cmp | .dcm | .illegal0F | .illegalHi _
  | .hdrI | .hdrL _ => false

/-- The lines the sequencer runs while `ERR` is set: FIN, in a macro too (R222, R226), and CLR (R249). -/
def Component.runsUnderError : Component → Bool
  | .fin | .clr => true
  | .resetCall | .illegal | .cnt | .cntLoop | .bld | .bldLoop | .gen | .wrm | .wrh | .enc | .encLoop | .rdm | .rdh
  | .header | .dec | .decLoop | .rwd => false

/-- The lines that write to the sink (R69). -/
def Component.writesSink : Component → Bool
  | .wrm | .wrh | .enc | .encLoop | .dec | .decLoop | .fin => true
  | .resetCall | .clr | .illegal | .cnt | .cntLoop | .bld | .bldLoop | .gen | .rdm | .rdh | .header | .rwd => false

end Sys2Proof.Machine
end

