-- ==== Sys2Proof/Machine/Ops.lean ====
section
/-! DEFINITION. The shared operations: the port primitives on the state (20_memory.md R61 to R65), raising an error and the way
back from it (60_exceptions.md R247 to R249), the start of a new call (10_state.md R39), loops, and the frame every command
runs in (46_container_and_control.md R220). -/

namespace Sys2Proof.Machine

/-! ### The ports -/

/-- `readUnit(n)`: the unit, or `none` for `EOS`, and the state with the cursor moved (R61). -/
def readUnit (n : Nat) (s : State) : Option (BitVec n) × State :=
  ((s.src.read n).1, { s with src := (s.src.read n).2 })

/-- `rewind()` (R63). -/
def rewindSource (s : State) : State := { s with src := s.src.rewind }

/-- `writeUnit(n, v)`; `none` where the sink is finished and the write raises BadCommand (R64). -/
def writeUnit (n v : Nat) (s : State) : Option State :=
  match s.snk.write n v with
  | none => none
  | some k => some { s with snk := k }

/-- `finish()` (R65). -/
def finishSink (s : State) : State := { s with snk := s.snk.finish }

/-! ### Errors -/

/-- "any output already written is undefined/unusable" (R248, U1): after an error the sink's content is a free value, a
whole number of bytes if the sink is finished. A sink that holds nothing keeps holding nothing when the failing line writes
no output: rules R223 (c), R227 (a), (b) and R229 say it is then finished empty (log entry 6). -/
def spoilOutput (c : Component) (s : State) : State :=
  if s.snk.bits = [] ∧ c.writesSink = false then s
  else
    let free := Config.freeBits s.fresh
    { s with snk := { s.snk with bits := if s.snk.finished then padToByte free else free }, fresh := s.fresh + 1 }

/-- `WT[0..255]` is any value after an Overflow in CNT (R122, R248, U2; log entry 7). -/
def spoilWeights (c : Component) (s : State) : State :=
  if c = .cnt ∨ c = .cntLoop then { s with wt := wtFree s.cfg s.fresh, fresh := s.fresh + 1 } else s

/-- `ERR <- K`; the partial tree, the queue and the cursor are discarded; DEC leaves `DSTATE` ERROR (R247). `TREEV` is
already 0 in BLD and RDH. -/
def recordError (c : Component) (k : ErrKind) (s : State) : State :=
  { s with
    err := k, pq := [], stack := [], nodes := 0, cur := none
    dstate := if c = .dec ∨ c = .decLoop then .error else s.dstate }

/-- The entry actions of `raise K` in the line `c`, at one of its own steps (R247): the kind is recorded, and what R248
leaves unspecified becomes a free value. The skipping of later lines and `BUSY`, `DONE` are the frame's. -/
def raise (c : Component) (k : ErrKind) (s : State) : State := spoilOutput c (spoilWeights c (recordError c k s))

/-- BadCommand before a command's first step, for an illegal word or a failed precondition: it changes nothing but `ERR` and
`DONE` (R93, R246). -/
def refuseCommand (s : State) : State := { s with err := .badCommand }

/-- The tree and the code table are invalidated (R28, R30). -/
def dropTree (s : State) : State := { s with tree := none, ct := ctEmpty, ctV := false }

/-- `ResetCall()` (R39). -/
def resetCall (s : State) : State := { dropTree s with wt := wtZero, dstate := .walking }

/-- The way back from an error: CLR ends the call and clears `ERR` (R211, R249). Nothing saved is restored. -/
def clearError (s : State) : State := { resetCall s with err := .none }

/-! ### Loops -/

/-- At most `n` turns of a loop; `more` if it has not ended by then. -/
def iterate (body : State → Progress) : Nat → State → Progress
  | 0, s => .more s
  | n + 1, s =>
    match body s with
    | .more t => iterate body n t
    | .done t => .done t
    | .raised t => .raised t

/-! ### The frame of a command -/

/-- The first lines of `Execute(c)`: the word is taken, `DONE <- 0`, `BUSY <- 1` (R36, R220). -/
def beginCommand (i : Instr) (s : State) : State := { s with cmd := i.word, done := false, busy := true }

/-- The last line of `Execute(c)`: `BUSY <- 0`, `DONE <- 1` (R220). -/
def endCommand (s : State) : State := { s with busy := false, done := true }

/-- The outcome of a command whose lines got this far. -/
def outcomeOf : Progress → Outcome
  | .more _ => .fault .stuck
  | .done s => .next (endCommand s)
  | .raised s => .next (endCommand s)

/-- `Execute(c)` (R220): a write of `CMD` while busy has no effect (R36, R284), and the host's wait for `DONE` then ends at once
with the command in progress where it was (DESIGN CHOICE, log entry 21); the sticky-error test comes first (R249);
then the command's own rule runs. -/
def runCommand (i : Instr) (rule : State → Progress) (s : State) : Outcome :=
  if s.busy then .next s
  else if s.err ≠ .none ∧ runsUnderError i = false then .next (endCommand (beginCommand i s))
  else outcomeOf (rule (beginCommand i s))

end Sys2Proof.Machine
end

