-- ==== Sys2Proof/Machine/CodeTable.lean ====
section
/-! DEFINITION. GEN, the code-table generator (42_code_table_generator.md). -/

namespace Sys2Proof.Machine

/-- `walk(n, path)`: every leaf's path into the table, left before right, a later visit of a symbol overwriting an earlier
one (R151, R153). -/
def walk : Tree → Bits → Vector (Option Bits) 257 → Vector (Option Bits) 257
  | .leaf s _, path, ct => ctSet s path ct
  | .node _ l r, path, ct => walk r (path ++ [true]) (walk l (path ++ [false]) ct)

/-- The table GEN makes of a tree; a root that is a leaf gets the one-bit code `0` (R151, R152). -/
def codesOf : Tree → Vector (Option Bits) 257
  | .leaf s _ => ctSet s [false] ctEmpty
  | .node _ l r => walk r [true] (walk l [false] ctEmpty)

/-- GEN (R151). -/
def genRule (s : State) : Progress :=
  match s.tree with
  | none => .raised (refuseCommand s)
  | some t => .done { s with ct := codesOf t, ctV := true }

/-- GEN, 0x03 (R151). -/
def execGen (s : State) : Outcome := runCommand .gen genRule s

end Sys2Proof.Machine
end

