-- ==== Sys2Proof/Machine/Decoder.lean ====
section
/-! DEFINITION. DEC, the stream decoder (45_stream_decoder.md). -/

namespace Sys2Proof.Machine

/-- DEC before its loop: WALKING at the root (R191, R192). -/
def decStart (root : Tree) (s : State) : State := { s with dstate := .walking, cur := some root }

/-- The cursor has landed on a node: on the sentinel's leaf DEC stops; on another leaf the byte is written and the walk
begins again at the root; on an internal node the walk goes on (R191, R195, R196, R200). -/
def landOn (root n : Tree) (s : State) : Progress :=
  match n with
  | .leaf sym _ =>
    if sym = eofSym then .done { s with dstate := .done, cur := none }
    else
      match writeUnit 8 sym.val { s with dstate := .emitted, cur := some n } with
      | none => .raised (raise .decLoop .badCommand { s with dstate := .emitted, cur := some n })
      | some t => .more { t with dstate := .walking, cur := some root }
  | .node _ _ _ => .more { s with cur := some n }

/-- One turn of DEC's loop: one body bit (R191, R193, R194, R197). A root that is a leaf takes one bit `0` a symbol, and a
bit `1` is no code. DEC has a tree and the cursor holds a node of it here; the other two cases never arise (log entry 20). -/
def decBit (s : State) : Progress :=
  match s.tree with
  | none => .raised (raise .decLoop .badCommand s)
  | some root =>
    match readUnit 1 s with
    | (none, t) => .raised (raise .decLoop .truncatedBody t)
    | (some b, t) =>
      match root with
      | .leaf _ _ => if b = 1#1 then .raised (raise .decLoop .badCode t) else landOn root root t
      | .node _ _ _ => landOn root ((t.cur.getD root).child (b == 1#1)) t

/-- DEC's loop; every turn that goes on reads a bit (R287). -/
def decLoop (s : State) : Progress := iterate decBit (s.src.left + 1) s

/-- DEC (R191). -/
def decRule (s : State) : Progress :=
  match s.tree with
  | none => .raised (refuseCommand s)
  | some root => decLoop (decStart root s)

/-- DEC, 0x09 (R191). -/
def execDec (s : State) : Outcome := runCommand .dec decRule s

end Sys2Proof.Machine
end

