-- ==== Sys2Proof/Machine/Encoder.lean ====
section
/-! DEFINITION. ENC, the stream encoder (44_stream_encoder.md). -/

namespace Sys2Proof.Machine

/-- The digits of a code to the sink, the root edge first (R181); `none` where the sink is finished. -/
def putCode : Bits → State → Option State
  | [], s => some s
  | b :: bs, s =>
    match writeUnit 1 b.toNat s with
    | none => none
    | some t => putCode bs t

/-- `put(s)`: the symbol's code to the sink, BadCode if it has none (R181, R183). -/
def putSymbol (sym : Symbol) (s : State) : Progress :=
  match ctGet sym s.ct with
  | none => .raised (raise .encLoop .badCode s)
  | some code =>
    match putCode code s with
    | none => .raised (raise .encLoop .badCommand s)
    | some t => .more t

/-- One turn of ENC's loop: one byte is read and its code written, or at the end of the input the sentinel's code is
written, once and last (R181, R184). -/
def encByte (s : State) : Progress :=
  match readUnit 8 s with
  | (none, t) =>
    match putSymbol eofSym t with
    | .more u => .done u
    | .done u => .done u
    | .raised u => .raised u
  | (some v, t) => putSymbol (v.toFin.castSucc) t

/-- ENC's loop; a turn that goes on reads eight bits (R287). -/
def encLoop (s : State) : Progress := iterate encByte (s.src.left + 1) s

/-- ENC (R181). -/
def encRule (s : State) : Progress :=
  if s.ctV then encLoop s else .raised (refuseCommand s)

/-- ENC, 0x06 (R181). -/
def execEnc (s : State) : Outcome := runCommand .enc encRule s

end Sys2Proof.Machine
end

