-- ==== Sys2Proof/Machine/Frequency.lean ====
section
/-! DEFINITION. CNT, the frequency counter (40_frequency_counter.md). -/

namespace Sys2Proof.Machine

/-- CNT before its loop: `WT[0..255]` cleared; `WT[256]` is hardwired (R121). -/
def cntStart (s : State) : State := { s with wt := wtZero }

/-- One turn of CNT's loop: one byte is read and counted (R121, R122). -/
def cntByte (s : State) : Progress :=
  match readUnit 8 s with
  | (none, t) => .done t
  | (some v, t) =>
    if t.wt[v.toNat] = wMax t.cfg then .raised (raise .cntLoop .overflow t)
    else .more { t with wt := t.wt.set v.toNat (t.wt[v.toNat] + 1) }

/-- CNT's loop; a turn that goes on reads eight bits, so the bits left bound the turns (R287). -/
def cntLoop (s : State) : Progress := iterate cntByte (s.src.left + 1) s

/-- CNT (R121). -/
def cntRule (s : State) : Progress := cntLoop (cntStart s)

/-- CNT, 0x01 (R121). -/
def execCnt (s : State) : Outcome := runCommand .cnt cntRule s

end Sys2Proof.Machine
end

