-- ==== Sys2Proof/Machine/Header.lean ====
section
/-! DEFINITION. WRH and RDH, the header codec, and the header tokens HDR-I and HDR-L (43_header_codec.md, 30_encoding.md R94
to R97). RDH reads with the explicit stack that R173 allows in place of recursion. -/

namespace Sys2Proof.Machine

/-! ### Write -/

/-- `emit(n)`: the tree's tokens to the sink in pre-order; `none` where the sink is finished (R161). -/
def emit : Tree → State → Option State
  | .leaf sym _, s =>
    match writeUnit 1 1 s with
    | none => none
    | some t => writeUnit 9 sym.val t
  | .node _ l r, s =>
    match writeUnit 1 0 s with
    | none => none
    | some t =>
      match emit l t with
      | none => none
      | some u => emit r u

/-- WRH (R161). -/
def wrhRule (s : State) : Progress :=
  match s.tree with
  | none => .raised (refuseCommand s)
  | some t =>
    match emit t s with
    | none => .raised (raise .wrh .badCommand s)
    | some u => .done u

/-- WRH, 0x05 (R161). -/
def execWrh (s : State) : Outcome := runCommand .wrh wrhRule s

/-! ### Read -/

/-- RDH before `parse()`: the old tree and table are invalidated, no node is counted, the root is expected (R165). -/
def rdhStart (s : State) : State := { dropTree s with stack := [], nodes := 0 }

/-- A subtree is complete: it becomes the left child of the node on top of the stack, whose right child is then read, or
its right child, which completes that node; a complete root is the tree (R165, R173). Decoded weights are 0 (R166). -/
def completeSubtree (t : Tree) : List Frame → State → Progress
  | [], s => .done { s with tree := some t, stack := [], nodes := 0 }
  | .left :: k, s => .more { s with stack := .right t :: k }
  | .right l :: k, s => completeSubtree (.node 0 l t) k s

/-- What the header reader does with a token HDR-I: two children are to be read, the left one first (R94, R165). -/
def tokenInternal (s : State) : Progress := .more { s with stack := .left :: s.stack }

/-- What the header reader does with a token HDR-L: a field above 256 is no symbol (R95, R165, R168). -/
def tokenLeaf (field : BitVec 9) (s : State) : Progress :=
  if h : field.toNat < 257 then completeSubtree (.leaf ⟨field.toNat, h⟩ 0) s.stack s
  else .raised (raise .header .corruptHeader s)

/-- Fetching the next header token: the tag bit, the node count, then a leaf's symbol field (R165, R167, R169, R251). The
error case is the state after the error's entry actions. -/
def fetchToken (s : State) : Except State (Instr × State) :=
  match readUnit 1 s with
  | (none, t) => .error (raise .header .corruptHeader t)
  | (some tag, t) =>
    if t.nodes + 1 > nodeCap then .error (raise .header .overflow t)
    else
      let t := { t with nodes := t.nodes + 1 }
      if tag = 0#1 then .ok (.hdrI, t)
      else
        match readUnit 9 t with
        | (none, u) => .error (raise .header .corruptHeader u)
        | (some field, u) => .ok (.hdrL field, u)

/-- What the header reader does with the token it fetched. No other instruction is ever fetched by it. -/
def tokenEffect : Instr → State → Progress
  | .hdrI, s => tokenInternal s
  | .hdrL field, s => tokenLeaf field s
  | .nop, s | .cnt, s | .bld, s | .gen, s | .wrm, s | .wrh, s | .enc, s | .rdm, s | .rdh, s | .dec, s | .rwd, s | .fin, s
  | .cmp, s | .dcm, s | .clr, s | .illegal0F, s | .illegalHi _, s => .more s

/-- One turn of the header reader: a token is fetched and takes effect (R165). -/
def headerToken (s : State) : Progress :=
  match fetchToken s with
  | .error t => .raised t
  | .ok (i, t) => tokenEffect i t

/-- The header reader's loop: it reads at most 514 tag bits (R169, R287). -/
def headerLoop (s : State) : Progress := iterate headerToken (nodeCap + 1) s

/-- RDH (R165). -/
def rdhRule (s : State) : Progress := headerLoop (rdhStart s)

/-- RDH, 0x08 (R165). -/
def execRdh (s : State) : Outcome := runCommand .rdh rdhRule s

/-! ### The tokens as instructions -/

/-- RDH is at work and the header reader stands before its next token (R165). -/
def readingHeader (s : State) : Bool := s.busy && s.seq.head? == some .header

/-- The state after a line's turn: a line that ended, with or without an error, is taken off the sequencer's list. -/
def settle : Progress → State
  | .more s => s
  | .done s => { s with seq := s.seq.tail }
  | .raised s => { s with seq := s.seq.tail }

/-- HDR-I (R94), inside RDH. Nothing else in HUFFCORE reads a token, so outside RDH it has no effect (log entry 4). -/
def execHdrI (s : State) : Outcome :=
  if readingHeader s then .next (settle (tokenInternal s)) else .next s

/-- HDR-L (R95), inside RDH. Nothing else in HUFFCORE reads a token, so outside RDH it has no effect (log entry 4). -/
def execHdrL (field : BitVec 9) (s : State) : Outcome :=
  if readingHeader s then .next (settle (tokenLeaf field s)) else .next s

end Sys2Proof.Machine
end

