-- ==== Sys2Proof/Machine/TreeBuilder.lean ====
section
/-! DEFINITION. BLD, the tree builder (41_tree_builder.md). -/

namespace Sys2Proof.Machine

/-- `InitialLeaves(WT)`: a leaf for every byte symbol of non-zero weight, and the sentinel's leaf (R132). -/
def initialLeaves (wt : Vector Nat 256) : List Tree :=
  (List.finRange 256).filterMap (fun s => if wt[s.val] = 0 then none else some (.leaf s.castSucc wt[s.val])) ++
    [.leaf eofSym eofSeed]

/-- The least node under `less`, and the nodes left when it is removed (R131, R134). -/
def extractMin : List Tree → Option (Tree × List Tree)
  | [] => none
  | x :: xs =>
    match extractMin xs with
    | none => some (x, [])
    | some (m, rest) => if less m x then some (m, x :: rest) else some (x, m :: rest)

/-- BLD before its loop: the old tree and table are invalidated and `PQ` holds the initial leaves (R131). -/
def bldStart (s : State) : State := { dropTree s with pq := initialLeaves s.wt }

/-- One turn of BLD's loop: the two least nodes are joined, the first removed on the left, or the one node left is the
tree (R131, R134, R135, R138). An empty queue, which BLD never has (R132), makes no tree (log entry 20). -/
def bldJoin (s : State) : Progress :=
  match extractMin s.pq with
  | none => .done s
  | some (a, rest) =>
    match extractMin rest with
    | none => .done { s with tree := some a, pq := [] }
    | some (b, rest') =>
      if a.weight + b.weight > wMax s.cfg then .raised (raise .bldLoop .overflow s)
      else .more { s with pq := .node (a.weight + b.weight) a b :: rest' }

/-- BLD's loop; a turn that goes on shortens the queue by one (R136). -/
def bldLoop (s : State) : Progress := iterate bldJoin (s.pq.length + 1) s

/-- BLD (R131). -/
def bldRule (s : State) : Progress := bldLoop (bldStart s)

/-- BLD, 0x02 (R131). -/
def execBld (s : State) : Outcome := runCommand .bld bldRule s

end Sys2Proof.Machine
end

