-- ==== Sys2Proof/Machine/Control.lean ====
section
/-! DEFINITION. The container and control commands NOP, CLR, WRM, RDM, RWD, FIN, CMP, DCM and the illegal words
(46_container_and_control.md, 30_encoding.md R93), and the lines the sequencer runs. -/

namespace Sys2Proof.Machine

/-- NOP does nothing (R210). -/
def nopRule (s : State) : Progress := .done s

/-- CLR (R211). -/
def clrRule (s : State) : Progress := .done (clearError s)

/-- WRM: `writeUnit(32, MAGIC)` (R212). -/
def wrmRule (s : State) : Progress :=
  match writeUnit 32 s.cfg.magic.toNat s with
  | none => .raised (raise .wrm .badCommand s)
  | some t => .done t

/-- RDM: one `readUnit(32)`; `EOS` does not match either (R214, R215). -/
def rdmRule (s : State) : Progress :=
  match readUnit 32 s with
  | (none, t) => .raised (raise .rdm .badMagic t)
  | (some m, t) => if m = t.cfg.magic then .done t else .raised (raise .rdm .badMagic t)

/-- RWD: `rewind()` (R216). -/
def rwdRule (s : State) : Progress := .done (rewindSource s)

/-- FIN: `finish()` (R218). -/
def finRule (s : State) : Progress := .done (finishSink s)

/-- An illegal word: `raise BadCommand` and nothing else (R93, R245). -/
def illegalRule (s : State) : Progress := .raised (refuseCommand s)

/-- What a line of the sequencer's list does, run to its end. -/
def lineRule : Component → State → Progress
  | .resetCall, s => .done (resetCall s)
  | .clr, s => clrRule s
  | .illegal, s => illegalRule s
  | .cnt, s => cntRule s
  | .cntLoop, s => cntLoop s
  | .bld, s => bldRule s
  | .bldLoop, s => bldLoop s
  | .gen, s => genRule s
  | .wrm, s => wrmRule s
  | .wrh, s => wrhRule s
  | .enc, s => encRule s
  | .encLoop, s => encLoop s
  | .rdm, s => rdmRule s
  | .rdh, s => rdhRule s
  | .header, s => headerLoop s
  | .dec, s => decRule s
  | .decLoop, s => decLoop s
  | .rwd, s => rwdRule s
  | .fin, s => finRule s

/-- The lines of a macro in order, under the dispatch of R220: after an error every line but FIN is skipped (R222, R226). -/
def runLines : List Component → State → Progress
  | [], s => .done s
  | c :: cs, s =>
    if s.err ≠ .none ∧ c.runsUnderError = false then runLines cs s
    else
      match lineRule c s with
      | .more t => .more t
      | .done t => runLines cs t
      | .raised t => runLines cs t

/-- The lines of CMP (R222). -/
def cmpLines : List Component := [.resetCall, .cnt, .bld, .gen, .wrm, .wrh, .rwd, .enc, .fin]

/-- The lines of DCM (R226). -/
def dcmLines : List Component := [.resetCall, .rdm, .rdh, .dec, .fin]

/-- CMP (R222). -/
def cmpRule (s : State) : Progress := runLines cmpLines s

/-- DCM (R226). -/
def dcmRule (s : State) : Progress := runLines dcmLines s

/-- The lines the sequencer runs for a command; a header token is none (R92, R222, R226). -/
def linesOf : Instr → List Component
  | .nop => []
  | .cnt => [.cnt]
  | .bld => [.bld]
  | .gen => [.gen]
  | .wrm => [.wrm]
  | .wrh => [.wrh]
  | .enc => [.enc]
  | .rdm => [.rdm]
  | .rdh => [.rdh]
  | .dec => [.dec]
  | .rwd => [.rwd]
  | .fin => [.fin]
  | .cmp => cmpLines
  | .dcm => dcmLines
  | .clr => [.clr]
  | .illegal0F => [.illegal]
  | .illegalHi _ => [.illegal]
  | .hdrI => []
  | .hdrL _ => []

/-- NOP, 0x00 (R210). -/
def execNop (s : State) : Outcome := runCommand .nop nopRule s

/-- CLR, 0x0E (R211). -/
def execClr (s : State) : Outcome := runCommand .clr clrRule s

/-- WRM, 0x04 (R212). -/
def execWrm (s : State) : Outcome := runCommand .wrm wrmRule s

/-- RDM, 0x07 (R214). -/
def execRdm (s : State) : Outcome := runCommand .rdm rdmRule s

/-- RWD, 0x0A (R216). -/
def execRwd (s : State) : Outcome := runCommand .rwd rwdRule s

/-- FIN, 0x0B (R218). -/
def execFin (s : State) : Outcome := runCommand .fin finRule s

/-- CMP, 0x0C (R222). -/
def execCmp (s : State) : Outcome := runCommand .cmp cmpRule s

/-- DCM, 0x0D (R226). -/
def execDcm (s : State) : Outcome := runCommand .dcm dcmRule s

/-- The reserved word 0x0F (R93). -/
def execIllegal0F (s : State) : Outcome := runCommand .illegal0F illegalRule s

/-- An illegal word 0x10 to 0xFF (R93). -/
def execIllegalHi (word : Byte) (s : State) : Outcome := runCommand (.illegalHi word) illegalRule s

end Sys2Proof.Machine
end

