-- ==== Sys2Proof/Machine/Dispatch.lean ====
section
/-! DEFINITION. One arm per constructor of `Instr`, each one call of that instruction's meaning. -/

namespace Sys2Proof.Machine

def exec (i : Instr) (s : State) : Host.Outcome State Fault Refusal :=
  match i with
  | .nop => Sys2Proof.Machine.execNop s
  | .cnt => Sys2Proof.Machine.execCnt s
  | .bld => Sys2Proof.Machine.execBld s
  | .gen => Sys2Proof.Machine.execGen s
  | .wrm => Sys2Proof.Machine.execWrm s
  | .wrh => Sys2Proof.Machine.execWrh s
  | .enc => Sys2Proof.Machine.execEnc s
  | .rdm => Sys2Proof.Machine.execRdm s
  | .rdh => Sys2Proof.Machine.execRdh s
  | .dec => Sys2Proof.Machine.execDec s
  | .rwd => Sys2Proof.Machine.execRwd s
  | .fin => Sys2Proof.Machine.execFin s
  | .cmp => Sys2Proof.Machine.execCmp s
  | .dcm => Sys2Proof.Machine.execDcm s
  | .clr => Sys2Proof.Machine.execClr s
  | .illegal0F => Sys2Proof.Machine.execIllegal0F s
  | .illegalHi word => Sys2Proof.Machine.execIllegalHi word s
  | .hdrI => Sys2Proof.Machine.execHdrI s
  | .hdrL field => Sys2Proof.Machine.execHdrL field s

end Sys2Proof.Machine
end

