-- ==== Sys2Proof/Machine/Engine.lean ====
section
/-! DEFINITION. The engine while a command is in progress: starting a command without waiting for it (10_state.md R35), and
the small steps it then takes (DESIGN CHOICE, log entry 5). The lines and the loop turns are those of the atomic commands. -/

namespace Sys2Proof.Machine

/-- A write of `CMD` by a host that does not wait (R35, R36, R220): `BUSY` is then 1 and the sequencer holds the command's
lines, none of them where an error is recorded and the command is ignored (R249). While busy the write is dropped (R284). -/
def startCommand (word : Byte) (s : State) : State :=
  if s.busy then s
  else
    let i := decodeCommand word
    let t := beginCommand i s
    if t.err ≠ .none ∧ runsUnderError i = false then { t with seq := [] } else { t with seq := linesOf i }

/-- The line `c` has made its first part and goes on as `d`. -/
def proceedAs (d : Component) (s : State) : State := { s with seq := d :: s.seq.tail }

/-- One small step of the line on top of the sequencer's list: a line without a loop runs whole; a line with a loop first
does what precedes the loop, then one turn at a time. The header reader's turn fetches a token and executes it. -/
def lineStep (c : Component) (s : State) : Outcome :=
  match c with
  | .resetCall => .next (settle (.done (resetCall s)))
  | .clr => .next (settle (clrRule s))
  | .illegal => .next (settle (illegalRule s))
  | .cnt => .next (proceedAs .cntLoop (cntStart s))
  | .cntLoop => .next (settle (cntByte s))
  | .bld => .next (proceedAs .bldLoop (bldStart s))
  | .bldLoop => .next (settle (bldJoin s))
  | .gen => .next (settle (genRule s))
  | .wrm => .next (settle (wrmRule s))
  | .wrh => .next (settle (wrhRule s))
  | .enc => if s.ctV then .next (proceedAs .encLoop s) else .next (settle (.raised (refuseCommand s)))
  | .encLoop => .next (settle (encByte s))
  | .rdm => .next (settle (rdmRule s))
  | .rdh => .next (proceedAs .header (rdhStart s))
  | .header =>
    match fetchToken s with
    | .error t => .next (settle (.raised t))
    | .ok (i, t) => exec i t
  | .dec =>
    match s.tree with
    | none => .next (settle (.raised (refuseCommand s)))
    | some root => .next (proceedAs .decLoop (decStart root s))
  | .decLoop => .next (settle (decBit s))
  | .rwd => .next (settle (rwdRule s))
  | .fin => .next (settle (finRule s))

/-- One small step of the engine: idle, it does nothing (R272); busy, it runs, or skips after an error (R220, R222), the
line on top, and ends the command when no line is left (R220). -/
def engineStep (s : State) : Outcome :=
  if s.busy then
    match s.seq with
    | [] => .next (endCommand s)
    | c :: cs => if s.err ≠ .none ∧ c.runsUnderError = false then .next { s with seq := cs } else lineStep c s
  else .next s

end Sys2Proof.Machine
end

