-- ==== Sys2Proof/Machine/HostActions.lean ====
section
/-! DEFINITION. The host's actions: command words, the ports, the tables, the registers, reset (30_encoding.md R105,
10_state.md R36, R37, 20_memory.md R71, R79, 70_reset_and_hazards.md R270, R271, R284). -/

namespace Sys2Proof.Machine

/-- `Attach(src_bytes)`: a source at its first bit and an empty sink; not allowed while busy (R79, R284). -/
def attachPorts (bytes : List Byte) (s : State) : Outcome :=
  if s.busy then .refused .attachWhileBusy
  else .next { s with src := { bits := bitsOfBytes bytes, pos := 0 }, snk := { bits := [], finished := false } }

/-- A host write of `WT[s]`: any value `0..W_MAX`, no flag changed, dropped while busy (R71). R71 does not say what a value
above `W_MAX` leaves in the entry: any value of `W_BITS` bits (DESIGN CHOICE, log entry 15). -/
def hostWriteWt (sym : Symbol) (v : Nat) (s : State) : State :=
  if s.busy then s
  else if v ≤ wMax s.cfg then wtWrite sym v s
  else { wtWrite sym (Config.freeWtWrite s.fresh % 2 ^ s.cfg.wBits) s with fresh := s.fresh + 1 }

/-- A host read of `WT[s]`; while busy it returns an unspecified value (R71, U5). -/
def hostReadWt (sym : Symbol) (s : State) : State :=
  if s.busy then
    { s with hostRead := some (.weight (Config.freeWtRead s.fresh % 2 ^ s.cfg.wBits)), fresh := s.fresh + 1 }
  else { s with hostRead := some (.weight (wtRead sym s)) }

/-- A host read of `CT[s]` in the layout of R102; while busy it returns an unspecified value (R71, U5). -/
def hostReadCt (sym : Symbol) (s : State) : State :=
  if s.busy then { s with hostRead := some (.code (Config.freeCtRead s.fresh)), fresh := s.fresh + 1 }
  else { s with hostRead := some (.code (entryWord (ctGet sym s.ct))) }

/-- A read of a register by its number (R72): `CMD` reads 0 (R36), `STATUS` is read at any time (R37). -/
def hostReadReg (n : Fin 2) (s : State) : State :=
  { s with hostRead := some (if n = regCmd then .cmd 0#8 else .status (statusWord s)) }

/-- A write of a register by its number (R72): of `CMD` it starts a command (R36), of `STATUS` it has no effect (R37). -/
def hostWriteReg (n : Fin 2) (v : BitVec 16) (s : State) : State :=
  if n = regCmd then startCommand (v.extractLsb' 0 8) s else s

/-- The host takes the sink's bytes; they are defined only when it is finished (R65, R279). What it gets while a command runs
the spec does not say, R284 allowing the host a read of `STATUS` only: any bytes (DESIGN CHOICE, log entry 16). -/
def hostTakeOutput (s : State) : State :=
  match if s.busy then none else s.snk.output with
  | some bytes => { s with hostRead := some (.output bytes) }
  | none => { s with hostRead := some (.output (Config.freeOutput s.fresh)), fresh := s.fresh + 1 }

/-- The internal state becomes the reset state; the ports, the parameters and the host's side stay (R43, R270). -/
def resetInternal (s : State) : State :=
  { State.reset with
    src := s.src, snk := s.snk, cfg := s.cfg, host := s.host, hostRead := s.hostRead, fresh := s.fresh }

/-- What a reset inside a command leaves of the ports: a cursor anywhere in the source, any bits in the sink, which the reset
does not finish (R271, U7). -/
def spoilPorts (s : State) : State :=
  let free := Config.freeBits s.fresh
  { s with
    src := { s.src with pos := Config.freeCursor s.fresh % (s.src.bits.length + 1) }
    snk := { s.snk with bits := if s.snk.finished then padToByte free else free }
    fresh := s.fresh + 1 }

/-- `RESET` (R270); while busy it abandons the command (R271). -/
def hostReset (s : State) : State := if s.busy then resetInternal (spoilPorts s) else resetInternal s

/-- One action of the host (R105). -/
def hostAct (a : HostAction) (s : State) : Outcome :=
  match a with
  | .cmd word => exec (decodeCommand word) s
  | .writeReg n v => .next (hostWriteReg n v s)
  | .readReg n => .next (hostReadReg n s)
  | .engine => engineStep s
  | .attach bytes => attachPorts bytes s
  | .writeWt sym v => .next (hostWriteWt sym v s)
  | .readWt sym => .next (hostReadWt sym s)
  | .readCt sym => .next (hostReadCt sym s)
  | .takeOutput => .next (hostTakeOutput s)
  | .reset => .next (hostReset s)

/-- The state that stands before its next step at a word of the opcode table (log entries 3 and 4): a command word is the
next thing an idle host writes and waits for; a header token is the next thing on the source of an RDH that has just begun to
read. -/
def placeWord (f : Format) (bits : Bits) (s : State) : State :=
  match f with
  | .cmd => { s with busy := false, seq := [], host := .cmd (BitVec.ofNat 8 (val bits)) :: s.host }
  | .hdr =>
    { s with
      busy := true, seq := [.header], stack := [], nodes := 0, err := .none
      src := { bits := padToByte bits, pos := 0 }
      host := .engine :: s.host }

end Sys2Proof.Machine
end

