-- ==== Sys2Proof/Machine/Step.lean ====
section
/-! DEFINITION. One step of the machine, and the placing of an instruction where the next step takes it. -/

namespace Sys2Proof.Machine

/-- One step: the host's next action; with none, the engine goes on with the command in progress, or idles (R272). -/
def step (s : State) : Host.Outcome State Fault Refusal :=
  match s.host with
  | [] => engineStep s
  | a :: rest => hostAct a { s with host := rest }

/-- `s` with a word of the opcode table stored where `step` takes its next instruction from: the host's next action, or,
for a header token, the bit source of a running RDH. -/
def State.withFetchWord (s : State) (nbits w : Nat) : State :=
  match tableBits nbits w with
  | none => s
  | some (f, bits) => placeWord f bits s

end Sys2Proof.Machine
end

