-- ==== Sys2Proof/Safety.lean ====
section
/-! DEFINITION. The terms the statements use: premises and success of a run (70_reset_and_hazards.md R289, R290), what a state
of the machine satisfies at every step, and the spec's own notions of a greedy build, a path in a tree and a file. -/

namespace Sys2Proof.Machine

/-! ### Runs -/

/-- *Idle*: `BUSY` = 0 (R290). -/
abbrev Idle (s : State) : Prop := s.busy = false

/-- *NoError*: `ERR` = None (R290). -/
abbrev NoError (s : State) : Prop := s.err = .none

/-- *FreshPorts* with the input `x`: `Attach(x)` was the last port action (R79, R290). -/
abbrev FreshPorts (x : List Byte) (s : State) : Prop :=
  s.src = { bits := bitsOfBytes x, pos := 0 } ∧ s.snk = { bits := [], finished := false }

/-- *InRange*: the input is shorter than `W_MAX` bytes (R290). -/
abbrev InRange (x : List Byte) (s : State) : Prop := x.length < wMax s.cfg

/-- A compression has succeeded (R289). -/
abbrev CompressionSucceeded (s : State) : Prop := s.err = .none ∧ s.snk.finished = true

/-- A decompression has succeeded (R289). -/
abbrev DecompressionSucceeded (s : State) : Prop := s.err = .none ∧ s.dstate = .done ∧ s.snk.finished = true

/-- `s` after a command `i` that ran or was ignored, before its own effect is added: `CMD` holds the word, `BUSY` = 0 and
`DONE` = 1 (R35, R36, R220). -/
def ran (i : Instr) (s : State) : State := { s with cmd := i.word, busy := false, done := true }

/-- A host that writes the words of a list of commands one after another and waits for each. -/
def runAll : List Instr → State → Outcome
  | [], s => .next s
  | i :: is, s =>
    match exec i s with
    | .next t => runAll is t
    | .fault f => .fault f
    | .refused r => .refused r

/-- `k` small steps of the engine. -/
def engineRun : Nat → State → Outcome
  | 0, s => .next s
  | k + 1, s =>
    match engineStep s with
    | .next t => engineRun k t
    | .fault f => .fault f
    | .refused r => .refused r

/-- The values of R43 that a reset gives the block's own state; the ports are not part of it. -/
def ResetValues (t : State) : Prop :=
  (∀ sym, wtRead sym t = if sym = eofSym then 1 else 0) ∧ t.tree = none ∧ treeV t = false ∧
  (∀ sym, ctGet sym t.ct = none) ∧ t.ctV = false ∧ t.dstate = .walking ∧ t.cur = none ∧ t.err = .none ∧
  t.busy = false ∧ t.done = false ∧ statusWord t = 0x0000#16 ∧ t.pq = [] ∧ t.stack = []

/-- The error kinds a command can raise (R258); a leaf token is rejected by RDH (R168). -/
def mayRaise : Instr → ErrKind → Bool
  | .cnt, .overflow | .bld, .overflow | .gen, .badCommand | .wrm, .badCommand | .wrh, .badCommand => true
  | .enc, .badCode | .enc, .badCommand | .rdm, .badMagic | .rdh, .corruptHeader | .rdh, .overflow => true
  | .dec, .truncatedBody | .dec, .badCode | .dec, .badCommand => true
  | .cmp, .overflow | .cmp, .badCode | .cmp, .badCommand => true
  | .dcm, .badMagic | .dcm, .corruptHeader | .dcm, .truncatedBody | .dcm, .overflow | .dcm, .badCode
  | .dcm, .badCommand => true
  | .illegal0F, .badCommand | .illegalHi _, .badCommand | .hdrL _, .corruptHeader => true
  | _, _ => false

/-! ### What every step keeps -/

/-- The ports: a source of whole bytes with its cursor inside (R40), a finished sink of whole bytes (R65). -/
abbrev PortsOk (s : State) : Prop :=
  s.src.bits.length % 8 = 0 ∧ s.src.pos ≤ s.src.bits.length ∧ (s.snk.finished = true → s.snk.bits.length % 8 = 0)

/-- Every weight of `WT[0..255]` fits `W_BITS` bits (R21). -/
abbrev WeightsFit (s : State) : Prop := ∀ i : Fin 256, s.wt[i.val] ≤ wMax s.cfg

/-- The line stands inside its command, after its first part. -/
def Component.inside : Component → Bool
  | .cntLoop | .bldLoop | .encLoop | .header | .decLoop => true
  | .resetCall | .clr | .illegal | .cnt | .bld | .gen | .wrm | .wrh | .enc | .rdm | .rdh | .dec | .rwd | .fin => false

/-- What the engine holds only while it works: the queue, the traversal stack and node count, the cursor and the sequencer's
list are empty outside the line that uses them (R31, R33, R38, R42), and EMITTED is held only inside DEC's turn (R32). -/
abbrev EngineClean (s : State) : Prop :=
  (s.busy = false → s.seq = []) ∧
  (∀ c ∈ s.seq.tail, c.inside = false) ∧
  (s.err ≠ .none → ∀ c, s.seq.head? = some c → c.inside = false) ∧
  (s.seq.head? ≠ some .bldLoop → s.pq = []) ∧
  (s.seq.head? ≠ some .header → s.stack = [] ∧ s.nodes = 0) ∧
  (s.seq.head? ≠ some .decLoop → s.cur = none) ∧
  s.dstate ≠ .emitted

/-- The code table belongs to the tree present (R30, R71): `CTV` = 1 with GEN's table of `TREE`, or `CTV` = 0 with every
entry invalid; while BLD or RDH is at work it is 0. -/
abbrev TableOfTree (s : State) : Prop :=
  (s.ctV = true → s.tree.map codesOf = some s.ct) ∧
  (s.ctV = false → s.ct = ctEmpty) ∧
  (s.seq.head? = some .bldLoop ∨ s.seq.head? = some .header → s.ctV = false)

/-- The symbols on the leaves under a node (R26). -/
def Tree.symbols (t : Tree) : List Symbol := t.leaves.map Prod.fst

/-- The symbols on the leaves under the nodes of a queue. -/
def queueSymbols (q : List Tree) : List Symbol := q.flatMap Tree.symbols

/-- While BLD joins nodes, each leaf symbol is under exactly one node of `PQ`, once (R139). -/
abbrev QueueDisjoint (s : State) : Prop := s.seq.head? = some .bldLoop → (queueSymbols s.pq).Nodup

/-- The number of nodes that the frames of the traversal stack stand for. -/
def framesSize : List Frame → Nat
  | [] => 0
  | .left :: k => framesSize k + 1
  | .right l :: k => framesSize k + l.size + 1

/-- The nodes of the trees of a queue, one more counted for each tree. -/
def queueSize : List Tree → Nat
  | [] => 0
  | t :: ts => t.size + 1 + queueSize ts

/-- The node store never holds more than `NODE_CAP` nodes (R24 (c), R27): the tree present; the trees of the tree builder's
queue, which its remaining joins complete to `queueSize - 1` nodes; the nodes the header reader has counted. -/
abbrev NodesFit (s : State) : Prop :=
  (∀ t, s.tree = some t → t.size ≤ nodeCap) ∧
  (s.seq.head? = some .bldLoop → queueSize s.pq ≤ nodeCap + 1) ∧
  (s.seq.head? = some .header → s.nodes = framesSize s.stack ∧ s.nodes ≤ nodeCap)

/-! ### Trees, codes and files -/

/-- The tree with every weight 0, as RDH makes it (R166). -/
def Tree.unweighted : Tree → Tree
  | .leaf s _ => .leaf s 0
  | .node _ l r => .node 0 l.unweighted r.unweighted

/-- The tokens of a tree's header, in pre-order (R94 to R96). -/
def Tree.tokens : Tree → List Instr
  | .leaf s _ => [.hdrL (BitVec.ofNat 9 s.val)]
  | .node _ l r => .hdrI :: (l.tokens ++ r.tokens)

/-- The node a path leads to, `false` to the left child and `true` to the right child (R101). -/
def Tree.atPath : Tree → Bits → Option Tree
  | t, [] => some t
  | .leaf _ _, _ :: _ => none
  | .node _ l r, b :: p => if b then r.atPath p else l.atPath p

/-- Path `p` is left of path `q` or equal to it: where they first differ `p` goes left. -/
def pathLe : Bits → Bits → Bool
  | [], _ => true
  | _ :: _, [] => false
  | a :: p, b :: q => if a = b then pathLe p q else !a

/-- A code of a tree for a symbol (R101, R152): the path of one of its leaves, or the one bit `0` of a root that is a leaf. -/
def Tree.IsCode (t : Tree) (sym : Symbol) (p : Bits) : Prop :=
  match t with
  | .leaf s _ => s = sym ∧ p = [false]
  | .node _ _ _ => ∃ w, t.atPath p = some (.leaf sym w)

/-- Every internal node's weight is the sum of its children's, and its left child was removed first (R140 (b), (d)). -/
def Tree.Built : Tree → Prop
  | .leaf _ _ => True
  | .node w l r => w = l.weight + r.weight ∧ less l r = true ∧ l.Built ∧ r.Built

/-- The greedy construction as a relation on the nodes present, in whatever order they are listed (R133, R134): the least
node `a` and then the least node `b` are joined, and so on until one node is left; no sum passes `top` (R138). -/
inductive Greedy (top : Nat) : List Tree → Tree → Prop where
  | root (t : Tree) : Greedy top [t] t
  | join {present rest : List Tree} {a b t : Tree} (nodes : present.Perm (a :: b :: rest))
      (first : ∀ x ∈ b :: rest, less a x = true) (second : ∀ x ∈ rest, less b x = true)
      (fits : a.weight + b.weight ≤ top) (goesOn : Greedy top (.node (a.weight + b.weight) a b :: rest) t) :
      Greedy top present t

/-- The number of times a byte value occurs in a byte sequence. -/
def occurrences (x : List Byte) (s : Fin 256) : Nat := x.countP fun b => b.toNat == s.val

/-- The weight table of a byte sequence: every byte value's number of occurrences (R121). -/
def countsOf (x : List Byte) : Vector Nat 256 := Vector.ofFn fun s => occurrences x s

/-- The sum of all weights, the sentinel's included (R143). -/
def totalWeight (wt : Vector Nat 256) : Nat := wt.toList.sum + eofSeed

/-- A symbol's code in a table, empty if it has none. -/
def codeIn (ct : Vector (Option Bits) 257) (s : Symbol) : Bits := (ctGet s ct).getD []

/-- `body(x)`: the codes of the bytes in order, then the sentinel's code (R100). -/
def body (ct : Vector (Option Bits) 257) (x : List Byte) : Bits :=
  x.flatMap (fun b => codeIn ct b.toFin.castSucc) ++ codeIn ct eofSym

/-- The file of an input: magic, header, body, pad (R98). -/
def fileBits (c : Config) (t : Tree) (x : List Byte) : Bits :=
  padToByte (bitsOf 32 c.magic.toNat ++ t.ser ++ body (codesOf t) x)

end Sys2Proof.Machine
end

