-- ==== Sys2Proof/Certificates/Slice0/Obligations.lean ====
section
/-! DEFINITION. The statements for the provers, from the spec's numbered rules. A docstring names the rule it formalises. -/

open Sys2Proof Sys2Proof.Machine

/-! ### Encodings -/

/-- R92 (the opcode map), R93, and the tokens of R94 and R95, written out bit by bit, first bit first. -/
def Obligations.SampleWordsDecodeToTheirInstructions : Prop :=
  (decode .cmd [false, false, false, false, false, false, false, false] = .ok (.nop, []) ∧
   decode .cmd [false, false, false, false, false, false, false, true] = .ok (.cnt, []) ∧
   decode .cmd [false, false, false, false, false, false, true, false] = .ok (.bld, []) ∧
   decode .cmd [false, false, false, false, false, false, true, true] = .ok (.gen, []) ∧
   decode .cmd [false, false, false, false, false, true, false, false] = .ok (.wrm, []) ∧
   decode .cmd [false, false, false, false, false, true, false, true] = .ok (.wrh, []) ∧
   decode .cmd [false, false, false, false, false, true, true, false] = .ok (.enc, []) ∧
   decode .cmd [false, false, false, false, false, true, true, true] = .ok (.rdm, []) ∧
   decode .cmd [false, false, false, false, true, false, false, false] = .ok (.rdh, []) ∧
   decode .cmd [false, false, false, false, true, false, false, true] = .ok (.dec, []) ∧
   decode .cmd [false, false, false, false, true, false, true, false] = .ok (.rwd, []) ∧
   decode .cmd [false, false, false, false, true, false, true, true] = .ok (.fin, []) ∧
   decode .cmd [false, false, false, false, true, true, false, false] = .ok (.cmp, []) ∧
   decode .cmd [false, false, false, false, true, true, false, true] = .ok (.dcm, []) ∧
   decode .cmd [false, false, false, false, true, true, true, false] = .ok (.clr, []) ∧
   decode .cmd [false, false, false, false, true, true, true, true] = .ok (.illegal0F, []) ∧
   decode .cmd [false, false, false, true, false, false, false, false] = .ok (.illegalHi 0x10#8, [])) ∧
  (decode .hdr [false] = .ok (.hdrI, []) ∧
   decode .hdr [true, false, false, true, true, false, false, false, false, true] = .ok (.hdrL 97#9, []) ∧
   decode .hdr [true, true, false, false, false, false, false, false, false, false] = .ok (.hdrL 256#9, []) ∧
   decode .hdr [true, false, false, false, false, false, false, false, false, false] = .ok (.hdrL 0#9, []))

/-- R93: the words below 0x0F are the fifteen commands; the word 0x0F and every word with a bit of `[7:4]` set are illegal,
and an illegal word raises BadCommand and changes nothing else. -/
def Obligations.IllegalWordsRaiseBadCommand : Prop :=
  (∀ w : Byte, w.toNat < 0x0F → decodeCommand w ∈
    [Instr.nop, .cnt, .bld, .gen, .wrm, .wrh, .enc, .rdm, .rdh, .dec, .rwd, .fin, .cmp, .dcm, .clr]) ∧
  ∀ (w : Byte) (s : State), 0x0F ≤ w.toNat → Idle s → NoError s →
    decodeCommand w = (if w = 0x0F#8 then .illegal0F else .illegalHi w) ∧
    exec (decodeCommand w) s = .next { ran (decodeCommand w) s with err := .badCommand }

/-- Decoding the bits an instruction is encoded in gives it back, with every operand at every value its encoding admits. -/
def Obligations.DecodeOfEncodeIsTheInstruction : Prop :=
  ∀ (i : Instr) (rest : Bits), i.wf = true → decode i.format (encode i ++ rest) = .ok (i, rest)

/-- A bit string that decodes is the encoding of what it decodes to, followed by the bits left. -/
def Obligations.DecodedBitsAreTheEncoding : Prop :=
  ∀ (f : Format) (bits rest : Bits) (i : Instr), decode f bits = .ok (i, rest) →
    i.wf = true ∧ i.format = f ∧ bits = encode i ++ rest

/-- R96 and R108: a header is the encodings of its tree's tokens in pre-order, every one a token that may be written, and a
tree with `L` leaves has `L - 1` internal nodes and a header of `11*L - 1` bits. -/
def Obligations.HeaderIsItsTokensAndTheirLength : Prop :=
  ∀ t : Tree, t.ser = t.tokens.flatMap encode ∧ (∀ i ∈ t.tokens, i.writable = true) ∧
    t.size = t.leaves.length + (t.leaves.length - 1) ∧ t.ser.length = 11 * t.leaves.length - 1

/-! ### Registers, reset, the host's accesses -/

/-- R37, with the codes of R32 and R34: the fields of `STATUS`, register number 1, all 0 at reset; a write has no effect, and a read
is allowed at any time, while busy too. -/
def Obligations.StatusShowsItsFieldsAndIsReadOnly : Prop :=
  (∀ s : State,
    (statusWord s).extractLsb' 0 1 = BitVec.ofBool s.busy ∧
    (statusWord s).extractLsb' 1 1 = BitVec.ofBool s.done ∧
    (statusWord s).extractLsb' 2 3 = s.err.code ∧
    (statusWord s).extractLsb' 5 2 = s.dstate.code ∧
    (statusWord s).extractLsb' 7 1 = BitVec.ofBool s.tree.isSome ∧
    (statusWord s).extractLsb' 8 1 = BitVec.ofBool s.ctV ∧
    (statusWord s).extractLsb' 9 7 = 0#7) ∧
  (ErrKind.none.code = 0#3 ∧ ErrKind.badMagic.code = 1#3 ∧ ErrKind.corruptHeader.code = 2#3 ∧
   ErrKind.truncatedBody.code = 3#3 ∧ ErrKind.overflow.code = 4#3 ∧ ErrKind.badCode.code = 5#3 ∧
   ErrKind.badCommand.code = 6#3) ∧
  (DState.walking.code = 0#2 ∧ DState.emitted.code = 1#2 ∧ DState.done.code = 2#2 ∧ DState.error.code = 3#2) ∧
  statusWord State.reset = 0x0000#16 ∧
  ∀ (s : State) (rest : List HostAction),
    (∀ v, s.host = .writeReg 1 v :: rest → step s = .next { s with host := rest }) ∧
    (s.host = .readReg 1 :: rest →
      step s = .next { s with host := rest, hostRead := some (.status (statusWord s)) })

/-- R43 and R270: `RESET` puts every piece of the block's state to its reset value and touches neither port. (Inside a
command, R271 and U7, the cursor and the sink's bits are free values, log entry 11; nothing is stated of them.) -/
def Obligations.ResetGivesTheResetValues : Prop :=
  ResetValues State.reset ∧
  ∀ (s : State) (rest : List HostAction), s.host = .reset :: rest →
    ∃ t, step s = .next t ∧ ResetValues t ∧ t.host = rest ∧ t.src.bits = s.src.bits ∧
      t.snk.finished = s.snk.finished ∧ (Idle s → t.src = s.src ∧ t.snk = s.snk)

/-- A step runs the command whose word the host writes next, and an idle engine with no host action does nothing (R272). -/
def Obligations.StepRunsTheHostsNextCommand : Prop :=
  (∀ (s : State) (w : Byte) (rest : List HostAction), s.host = .cmd w :: rest →
    step s = exec (decodeCommand w) { s with host := rest }) ∧
  ∀ s : State, Idle s → s.host = [] → step s = .next s

/-- Inside RDH a step runs the header token that the source's next bits decode to, with the cursor moved past it and its node
counted (R165, log entries 4 and 5). -/
def Obligations.StepRunsTheNextHeaderToken : Prop :=
  ∀ (s : State) (i : Instr) (tail : Bits) (h : List HostAction),
    (s.host = [] ∧ h = [] ∨ s.host = .engine :: h) → readingHeader s = true → NoError s → s.nodes < nodeCap →
    decodeToken s.src.rest = .ok (i, tail) →
    step s = exec i
      { s with host := h, src := { s.src with pos := s.src.pos + (encode i).length }, nodes := s.nodes + 1 }

/-- R284: while `BUSY` = 1 a write of `CMD` or `WT` is dropped, a read of `WT` or `CT` returns some value, `Attach` is not
allowed, and `STATUS` may be read. That a command word to be waited for is dropped without a wait is the model's choice (log
entry 21). -/
def Obligations.HostAccessWhileBusy : Prop :=
  ∀ (s : State) (rest : List HostAction), s.busy = true →
    (∀ w, s.host = .cmd w :: rest → step s = .next { s with host := rest }) ∧
    (∀ v, s.host = .writeReg 0 v :: rest → step s = .next { s with host := rest }) ∧
    (∀ sym v, s.host = .writeWt sym v :: rest → step s = .next { s with host := rest }) ∧
    (∀ sym, s.host = .readWt sym :: rest →
      ∃ v n, step s = .next { s with host := rest, hostRead := some (.weight v), fresh := n }) ∧
    (∀ sym, s.host = .readCt sym :: rest →
      ∃ v n, step s = .next { s with host := rest, hostRead := some (.code v), fresh := n }) ∧
    (∀ bytes, s.host = .attach bytes :: rest → step s = .refused .attachWhileBusy) ∧
    (s.host = .readReg 1 :: rest →
      step s = .next { s with host := rest, hostRead := some (.status (statusWord s)) })

/-- R71 and R22: the sentinel's weight always reads 1; while idle the host reads any weight and writes any but the sentinel's;
a write changes no other entry and nothing else. A write of a value above `W_MAX` runs as well, and leaves a free value in its
entry: the model's choice (log entry 15). -/
def Obligations.HostReadsAndWritesWeights : Prop :=
  (∀ s : State, wtRead eofSym s = 1) ∧
  ∀ (s : State) (sym : Symbol) (rest : List HostAction), Idle s →
    (s.host = .readWt sym :: rest →
      step s = .next { s with host := rest, hostRead := some (.weight (wtRead sym s)) }) ∧
    (∀ v, v ≤ wMax s.cfg → s.host = .writeWt sym v :: rest →
      ∃ wt', step s = .next { s with host := rest, wt := wt' } ∧
        ∀ y, wtRead y { s with wt := wt' } = if y = sym ∧ y ≠ eofSym then v else wtRead y s) ∧
    (∀ v, s.host = .writeWt sym v :: rest →
      ∃ wt' n, step s = .next { s with host := rest, wt := wt', fresh := n } ∧
        (∀ y, y ≠ sym ∨ y = eofSym → wtRead y { s with wt := wt' } = wtRead y s) ∧
        (sym ≠ eofSym → wtRead sym { s with wt := wt' } ≤ wMax s.cfg))

/-- R102: the 266 bits the host reads of an entry of `CT`: `valid`, `len`, `codeval`, from which the code comes back; all 0
for an invalid entry. -/
def Obligations.HostReadsCodeEntries : Prop :=
  ∀ (s : State) (sym : Symbol) (rest : List HostAction), Idle s → s.host = .readCt sym :: rest →
    ∃ v : BitVec 266, step s = .next { s with host := rest, hostRead := some (.code v) } ∧
      (ctGet sym s.ct = none → v = 0#266) ∧
      ∀ code, ctGet sym s.ct = some code → 1 ≤ code.length → code.length ≤ codeMax →
        v.extractLsb' 265 1 = 1#1 ∧ (v.extractLsb' 256 9).toNat = code.length ∧
        (v.extractLsb' 0 256).toNat = val code ∧ bitsOf code.length (v.extractLsb' 0 256).toNat = code

/-- R79 and R67: `Attach` while idle supplies a source whose bit `k` is bit `7 - k mod 8` of byte `k div 8`, with its cursor
at 0, and an empty sink; nothing else changes. -/
def Obligations.AttachConnectsThePorts : Prop :=
  ∀ (s : State) (bytes : List Byte) (rest : List HostAction), Idle s → s.host = .attach bytes :: rest →
    ∃ bits : Bits, step s = .next
        { s with host := rest, src := { bits := bits, pos := 0 }, snk := { bits := [], finished := false } } ∧
      bits.length = 8 * bytes.length ∧
      ∀ (k : Nat) (b : Byte), bytes[k / 8]? = some b → bits[k]? = some (b.getLsbD (7 - k % 8))

/-- R36: a write of `CMD`, register number 0, starts the command of that word while idle, has no effect while busy, and a read
returns 0. That the word is kept in `cmd` (log entry 9), and that the sequencer then holds the command's lines, none where an
error is recorded and the command is ignored, is the model's choice (log entry 5). -/
def Obligations.CmdStartsACommandAndReadsZero : Prop :=
  ∀ (s : State) (w : Byte) (rest : List HostAction),
    (Idle s → s.host = .writeReg 0 (w.setWidth 16) :: rest →
      step s = .next
        { s with
          host := rest, cmd := w, busy := true, done := false
          seq := if s.err ≠ .none ∧ runsUnderError (decodeCommand w) = false then [] else linesOf (decodeCommand w) }) ∧
    (s.busy = true → s.host = .writeReg 0 (w.setWidth 16) :: rest → step s = .next { s with host := rest }) ∧
    (s.host = .readReg 0 :: rest → step s = .next { s with host := rest, hostRead := some (.cmd 0#8) })

/-! ### The ports -/

/-- R61 and R62: `readUnit(n)` returns the next `n` bits, first bit most significant, or `EOS` with the cursor at the end,
and then every later read returns `EOS`. -/
def Obligations.ReadUnitTakesTheNextBits : Prop :=
  ∀ (n : Nat) (s : State), 1 ≤ n → n ≤ 32 →
    (s.src.pos + n ≤ s.src.bits.length →
      ∃ v : BitVec n, readUnit n s = (some v, { s with src := { s.src with pos := s.src.pos + n } }) ∧
        v.toNat = val ((s.src.bits.drop s.src.pos).take n)) ∧
    (¬ s.src.pos + n ≤ s.src.bits.length →
      readUnit n s = (none, { s with src := { s.src with pos := s.src.bits.length } }) ∧
      ∀ m, 1 ≤ m → (readUnit m (readUnit n s).2).1 = none)

/-- R64 and R66: `writeUnit(n, v)` appends bit `n-1` of `v` first and bit 0 last, is refused by a finished sink, and what was
written is read back as the low `n` bits of `v`. -/
def Obligations.WriteUnitAppendsAndReadsBack : Prop :=
  ∀ (n v : Nat) (s : State), 1 ≤ n → n ≤ 32 →
    (s.snk.finished = true → writeUnit n v s = none) ∧
    (s.snk.finished = false → ∃ unit : Bits,
      writeUnit n v s = some { s with snk := { s.snk with bits := s.snk.bits ++ unit } } ∧
      unit.length = n ∧ (∀ k, k < n → unit[k]? = some (v.testBit (n - 1 - k))) ∧
      ∀ before after : Bits, (readUnit n { s with src := { bits := before ++ unit ++ after, pos := before.length } }).1 =
        some (BitVec.ofNat n v))

/-- R65 and R218: FIN, whether or not an error is recorded, pads an open sink with zeros to a whole byte and finishes it;
on a finished sink it does nothing. -/
def Obligations.FinFinishesTheSink : Prop :=
  ∀ s : State, Idle s →
    (s.snk.finished = true → exec .fin s = .next (ran .fin s)) ∧
    (s.snk.finished = false → ∃ k, k < 8 ∧ (s.snk.bits.length + k) % 8 = 0 ∧
      exec .fin s = .next
        { ran .fin s with snk := { bits := s.snk.bits ++ List.replicate k false, finished := true } })

/-! ### The control commands -/

/-- R210: NOP changes nothing, whether or not an error is recorded. -/
def Obligations.NopChangesNothing : Prop :=
  ∀ s : State, Idle s → exec .nop s = .next (ran .nop s)

/-- R211 and R39: CLR, whether or not an error is recorded, clears the call's data and the error and touches no port. -/
def Obligations.ClrEndsTheCallAndClearsTheError : Prop :=
  ∀ s : State, Idle s → exec .clr s = .next
    { ran .clr s with
      wt := Vector.replicate 256 0, tree := none, ct := Vector.replicate 257 none, ctV := false, dstate := .walking
      err := .none }

/-- R212: WRM appends the 32 bits of `MAGIC`; on a finished sink it raises BadCommand. -/
def Obligations.WrmWritesTheMagic : Prop :=
  ∀ s : State, Idle s → NoError s →
    (s.snk.finished = false → exec .wrm s = .next
      { ran .wrm s with snk := { bits := s.snk.bits ++ bitsOf 32 s.cfg.magic.toNat, finished := false } }) ∧
    (s.snk.finished = true → ∃ t, exec .wrm s = .next t ∧ t.err = .badCommand)

/-- R214 and R215: RDM reads 32 bits once; if they are `MAGIC` nothing else changes, and otherwise, or if there are fewer,
it raises BadMagic. -/
def Obligations.RdmChecksTheMagic : Prop :=
  ∀ s : State, Idle s → NoError s →
    (∀ tail, s.src.rest = bitsOf 32 s.cfg.magic.toNat ++ tail →
      exec .rdm s = .next { ran .rdm s with src := { s.src with pos := s.src.pos + 32 } }) ∧
    (s.src.rest.take 32 ≠ bitsOf 32 s.cfg.magic.toNat →
      ∃ t, exec .rdm s = .next t ∧ t.err = .badMagic ∧
        t.src = { s.src with
          pos := if s.src.pos + 32 ≤ s.src.bits.length then s.src.pos + 32 else s.src.bits.length } ∧
        t.wt = s.wt ∧ t.tree = s.tree ∧ t.ct = s.ct ∧ t.ctV = s.ctV ∧ t.dstate = s.dstate ∧
        t.snk.finished = s.snk.finished)

/-- R216 and R63: RWD puts the cursor to 0 and changes nothing else. -/
def Obligations.RwdRewindsTheSource : Prop :=
  ∀ s : State, Idle s → NoError s → exec .rwd s = .next { ran .rwd s with src := { bits := s.src.bits, pos := 0 } }

/-! ### CNT and BLD -/

/-- R121: CNT counts every byte from the cursor to the end of the source; `WT` holds the counts and the cursor is at the end;
nothing else changes. -/
def Obligations.CntCountsTheBytes : Prop :=
  ∀ s : State, Idle s → NoError s → (∀ v, occurrences (bytesOfBits s.src.rest) v ≤ wMax s.cfg) →
    exec .cnt s = .next
      { ran .cnt s with wt := countsOf (bytesOfBits s.src.rest), src := { s.src with pos := s.src.bits.length } }

/-- R122: at the first byte that cannot be counted CNT raises Overflow; the tree, the code table, their flags, `DSTATE` and
the sink's `finished` stay. That the cursor stands right after that byte is the model's inference (log entry 19). -/
def Obligations.CntRaisesOverflow : Prop :=
  ∀ (s : State) (before : List Byte) (b : Byte) (tail : Bits), Idle s → NoError s →
    s.src.rest = bitsOfBytes (before ++ [b]) ++ tail →
    (∀ v, occurrences before v ≤ wMax s.cfg) → occurrences before b.toFin = wMax s.cfg →
    ∃ t, exec .cnt s = .next t ∧ t.err = .overflow ∧
      t.src = { s.src with pos := s.src.pos + 8 * (before.length + 1) } ∧ wtRead eofSym t = 1 ∧
      t.tree = s.tree ∧ t.ct = s.ct ∧ t.ctV = s.ctV ∧ t.dstate = s.dstate ∧ t.snk.finished = s.snk.finished

/-- R131 to R135: when all weights together fit, BLD builds a tree of the greedy construction from the initial leaves,
invalidates the code table, and changes nothing else. -/
def Obligations.BldBuildsTheGreedyTree : Prop :=
  ∀ s : State, Idle s → NoError s → totalWeight s.wt ≤ wMax s.cfg →
    ∃ t, Greedy (wMax s.cfg) (initialLeaves s.wt) t ∧
      exec .bld s = .next
        { ran .bld s with tree := some t, ct := Vector.replicate 257 none, ctV := false, pq := [] }

/-- R139: while BLD joins nodes, no two nodes of `PQ` share a leaf symbol, whatever step is taken; then for any two nodes at
different places of the queue exactly one of `less(x, y)`, `less(y, x)` holds; and BLD answers the same from every listing of the
initial leaves. The steps inside BLD, which the first clause speaks of, are the model's choice (log entry 5). -/
def Obligations.LessOrdersTheQueueAtEveryStep : Prop :=
  (∀ s t : State, EngineClean s → QueueDisjoint s → step s = .next t → QueueDisjoint t) ∧
  (∀ q : List Tree, (queueSymbols q).Nodup → q.Pairwise fun x y =>
    less x y = true ∧ less y x = false ∨ less y x = true ∧ less x y = false) ∧
  ∀ (s : State) (l : List Tree), l.Perm (initialLeaves s.wt) → bldLoop { bldStart s with pq := l } = bldRule s

/-- R140 and R143: what a built tree satisfies. -/
def Obligations.BuiltTreeHasItsLeavesAndSums : Prop :=
  ∀ s u : State, Idle s → NoError s → exec .bld s = .next u → NoError u →
    ∃ t, u.tree = some t ∧
      (∀ sym w, (sym, w) ∈ t.leaves ↔ w = wtRead sym s ∧ w ≠ 0) ∧ (t.leaves.map Prod.fst).Nodup ∧
      t.Built ∧ t.size = 2 * t.leaves.length - 1 ∧ t.weight = totalWeight s.wt

/-- R138: when the weights together do not fit, BLD raises Overflow and leaves no tree and no code table. -/
def Obligations.BldRaisesOverflow : Prop :=
  ∀ s : State, Idle s → NoError s → 1 ≤ s.cfg.wBits → wMax s.cfg < totalWeight s.wt →
    ∃ u, exec .bld s = .next u ∧ u.err = .overflow ∧ u.tree = none ∧ u.ctV = false ∧
      (∀ sym, ctGet sym u.ct = none) ∧ u.wt = s.wt ∧ u.dstate = s.dstate ∧ u.src = s.src ∧
      u.snk.finished = s.snk.finished

/-- R142: of two symbols of a built tree the heavier never has the longer code. -/
def Obligations.HeavierSymbolHasNoLongerCode : Prop :=
  ∀ (s u v : State), Idle s → NoError s → exec .bld s = .next u → NoError u → exec .gen u = .next v →
    ∀ (a b : Symbol) (p q : Bits), ctGet a v.ct = some p → ctGet b v.ct = some q → wtRead b s < wtRead a s →
      p.length ≤ q.length

/-! ### GEN -/

/-- R151 to R153: GEN's table holds for every symbol its code in the tree, of several leaves of one symbol the rightmost
leaf's, and nothing for a symbol with no leaf; `CTV` is 1 and nothing else changes. -/
def Obligations.GenTabulatesThePaths : Prop :=
  ∀ (s : State) (t : Tree), Idle s → NoError s → s.tree = some t →
    ∃ ct', exec .gen s = .next { ran .gen s with ct := ct', ctV := true } ∧
      ∀ sym p, ctGet sym ct' = some p ↔ t.IsCode sym p ∧ ∀ q, t.IsCode sym q → pathLe q p = true

/-- R155 and R154: no code of GEN's table is a prefix of another, and a code of a tree within the node capacity has 1 to 256
bits. -/
def Obligations.CodesArePrefixFreeAndBounded : Prop :=
  ∀ (s u : State) (t : Tree), Idle s → NoError s → s.tree = some t → exec .gen s = .next u →
    (∀ (a b : Symbol) (p q : Bits), a ≠ b → ctGet a u.ct = some p → ctGet b u.ct = some q → ¬ p <+: q) ∧
    (t.size ≤ nodeCap → ∀ (a : Symbol) (p : Bits), ctGet a u.ct = some p → 1 ≤ p.length ∧ p.length ≤ codeMax)

/-! ### WRH and RDH -/

/-- R161: WRH appends `ser(TREE)` and changes nothing else; on a finished sink it raises BadCommand. -/
def Obligations.WrhWritesTheHeader : Prop :=
  ∀ (s : State) (t : Tree), Idle s → NoError s → s.tree = some t →
    (s.snk.finished = false → exec .wrh s = .next
      { ran .wrh s with snk := { bits := s.snk.bits ++ t.ser, finished := false } }) ∧
    (s.snk.finished = true → ∃ u, exec .wrh s = .next u ∧ u.err = .badCommand ∧ u.tree = s.tree)

/-- R171: RDH on a source that holds `ser(t)` at the cursor makes the tree of that shape and those symbols with weights 0,
reads exactly those bits, and invalidates the code table. -/
def Obligations.RdhReadsTheHeaderBack : Prop :=
  ∀ (s : State) (t : Tree) (tail : Bits), Idle s → NoError s → t.size ≤ nodeCap → s.src.rest = t.ser ++ tail →
    exec .rdh s = .next
      { ran .rdh s with
        tree := some t.unweighted, ct := Vector.replicate 257 none, ctV := false
        src := { s.src with pos := s.src.pos + t.ser.length }, stack := [], nodes := 0 }

/-- R167, R251: a source that ends inside a header, at a tag or in a symbol field, whatever bits that field began with, is
CorruptHeader, with no tree left. The tree `t` only says that the header goes on after the tokens read, and may be of any size;
the nodes counted are at most 513. That the cursor then stands at the end of the source is the model's inference (log entry
19). -/
def Obligations.RdhRejectsAShortHeader : Prop :=
  ∀ (s : State) (t : Tree) (before after : List Instr) (x : Instr) (part : Bits), Idle s → NoError s →
    t.tokens = before ++ x :: after →
    (part = [] ∧ before.length ≤ nodeCap ∨
      ∃ f : Bits, part = true :: f ∧ f.length < 9 ∧ before.length < nodeCap) →
    s.src.rest = before.flatMap encode ++ part →
    ∃ u, exec .rdh s = .next u ∧ u.err = .corruptHeader ∧ u.tree = none ∧ u.ctV = false ∧
      u.src = { s.src with pos := s.src.bits.length } ∧ u.wt = s.wt ∧ u.dstate = s.dstate ∧
      u.snk.finished = s.snk.finished

/-- R168: a symbol field of 257 to 511, wherever in the first 513 nodes of a header a node is expected, is CorruptHeader at that
field (the tree `t` only says that the header goes on, and may be of any size). That the cursor then stands right after the
field is the model's inference (log entry 19). -/
def Obligations.RdhRejectsAFieldThatIsNoSymbol : Prop :=
  ∀ (s : State) (t : Tree) (before after : List Instr) (x : Instr) (f : BitVec 9) (tail : Bits), Idle s → NoError s →
    t.tokens = before ++ x :: after → before.length < nodeCap → 256 < f.toNat →
    s.src.rest = before.flatMap encode ++ encode (.hdrL f) ++ tail →
    ∃ u, exec .rdh s = .next u ∧ u.err = .corruptHeader ∧ u.tree = none ∧ u.ctV = false ∧
      u.src = { s.src with pos := s.src.pos + (before.flatMap encode).length + 10 }

/-- R169: a header of more than 513 nodes is Overflow at the tag bit of node 514, whatever that bit is. -/
def Obligations.RdhRejectsTooManyNodes : Prop :=
  ∀ (s : State) (t : Tree) (b : Bool) (tail : Bits), Idle s → NoError s → nodeCap < t.size →
    s.src.rest = (t.tokens.take nodeCap).flatMap encode ++ b :: tail →
    ∃ u, exec .rdh s = .next u ∧ u.err = .overflow ∧ u.tree = none ∧ u.ctV = false ∧
      u.src = { s.src with pos := s.src.pos + ((t.tokens.take nodeCap).flatMap encode).length + 1 }

/-- R171, the converse: WRH of a tree RDH read appends exactly the bits RDH consumed. -/
def Obligations.WrhWritesBackWhatRdhRead : Prop :=
  ∀ s u : State, Idle s → NoError s → s.snk.finished = false → exec .rdh s = .next u → NoError u →
    exec .wrh u = .next
      { ran .wrh u with
        snk := { bits := s.snk.bits ++ s.src.rest.take (u.src.pos - s.src.pos), finished := false } }

/-- The header tokens inside RDH (R94, R95, R165, R168): HDR-I puts a node whose left child is expected on the stack; HDR-L
completes a leaf, then every node whose right child that completes, and then stands as the left child of the node on top or
is the tree; a field above 256 ends RDH with CorruptHeader. Outside RDH a token has no effect (log entry 4). -/
def Obligations.HeaderTokensDriveTheReader : Prop :=
  ∀ s : State,
    (readingHeader s = true →
      exec .hdrI s = .next { s with stack := .left :: s.stack } ∧
      (∀ (sym : Symbol) (ls : List Tree) (k : List Frame), s.stack = ls.map .right ++ .left :: k →
        exec (.hdrL (BitVec.ofNat 9 sym.val)) s = .next
          { s with stack := .right (ls.foldl (fun t l => .node 0 l t) (.leaf sym 0)) :: k }) ∧
      (∀ (sym : Symbol) (ls : List Tree), s.stack = ls.map .right →
        exec (.hdrL (BitVec.ofNat 9 sym.val)) s = .next
          { s with
            tree := some (ls.foldl (fun t l => .node 0 l t) (.leaf sym 0)), stack := [], nodes := 0
            seq := s.seq.tail }) ∧
      (∀ f : BitVec 9, 256 < f.toNat →
        ∃ u, exec (.hdrL f) s = .next u ∧ u.err = .corruptHeader ∧ u.stack = [] ∧ u.nodes = 0 ∧
          u.seq = s.seq.tail ∧ u.tree = s.tree ∧ u.src = s.src)) ∧
    (readingHeader s = false → exec .hdrI s = .next s ∧ ∀ f, exec (.hdrL f) s = .next s)

/-! ### ENC and DEC -/

/-- R181, R182, R184: ENC appends the code of every byte from the cursor to the end of the source and then the sentinel's,
drains the source, and changes nothing else. -/
def Obligations.EncWritesTheBody : Prop :=
  ∀ s : State, Idle s → NoError s → s.ctV = true → s.snk.finished = false →
    (∀ b ∈ bytesOfBits s.src.rest, (ctGet b.toFin.castSucc s.ct).isSome = true) →
    (ctGet eofSym s.ct).isSome = true →
    exec .enc s = .next
      { ran .enc s with
        snk := { bits := s.snk.bits ++ body s.ct (bytesOfBits s.src.rest), finished := false }
        src := { s.src with pos := s.src.bits.length } }

/-- R183: ENC raises BadCode at the first byte that has no code, or at the sentinel when it has none; on a finished sink too,
where that is the first symbol it puts, for `valid` is tested before anything is written (R181). R181, R245, R258: on a
finished sink ENC raises BadCommand at the first symbol it puts, the first byte or, with no byte left, the sentinel, when that
has a code. That the cursor then stands right after the last unit read is the model's inference (log entry 19). -/
def Obligations.EncRaisesBadCodeAndBadCommand : Prop :=
  ∀ s : State, Idle s → NoError s → s.ctV = true →
    (∀ (before : List Byte) (b : Byte) (tail : Bits), s.snk.finished = false ∨ before = [] →
      s.src.rest = bitsOfBytes (before ++ [b]) ++ tail →
      (∀ c ∈ before, (ctGet c.toFin.castSucc s.ct).isSome = true) → ctGet b.toFin.castSucc s.ct = none →
      ∃ u, exec .enc s = .next u ∧ u.err = .badCode ∧
        u.src = { s.src with pos := s.src.pos + 8 * (before.length + 1) } ∧
        u.ct = s.ct ∧ u.ctV = s.ctV ∧ u.tree = s.tree ∧ u.wt = s.wt ∧ u.snk.finished = s.snk.finished) ∧
    (s.snk.finished = false ∨ s.src.rest.length < 8 →
      (∀ c ∈ bytesOfBits s.src.rest, (ctGet c.toFin.castSucc s.ct).isSome = true) → ctGet eofSym s.ct = none →
      ∃ u, exec .enc s = .next u ∧ u.err = .badCode ∧ u.src = { s.src with pos := s.src.bits.length } ∧
        u.ct = s.ct ∧ u.ctV = s.ctV ∧ u.tree = s.tree ∧ u.wt = s.wt ∧ u.snk.finished = s.snk.finished) ∧
    (s.snk.finished = true →
      (∀ (b : Byte) (tail code : Bits), s.src.rest = bitsOf 8 b.toNat ++ tail →
        ctGet b.toFin.castSucc s.ct = some code → code ≠ [] →
        ∃ u, exec .enc s = .next u ∧ u.err = .badCommand ∧ u.src = { s.src with pos := s.src.pos + 8 } ∧
          u.ct = s.ct ∧ u.ctV = s.ctV ∧ u.tree = s.tree ∧ u.wt = s.wt ∧ u.snk.finished = true) ∧
      (∀ code : Bits, s.src.rest.length < 8 → ctGet eofSym s.ct = some code → code ≠ [] →
        ∃ u, exec .enc s = .next u ∧ u.err = .badCommand ∧ u.src = { s.src with pos := s.src.bits.length } ∧
          u.ct = s.ct ∧ u.ctV = s.ctV ∧ u.tree = s.tree ∧ u.wt = s.wt ∧ u.snk.finished = true))

/-- R191 to R195, R199, R200: on a source that holds codes of the tree for byte symbols and then a code for the sentinel, DEC
writes those bytes, ends DONE on the bit after the sentinel's code, and changes nothing else; on a finished sink too, where no
byte is to be written (R196). -/
def Obligations.DecDecodesTheBody : Prop :=
  ∀ (s : State) (root : Tree) (codes : List (Symbol × Bits)) (last tail : Bits), Idle s → NoError s →
    s.tree = some root → s.snk.finished = false ∨ codes = [] →
    (∀ c ∈ codes, c.1 ≠ eofSym ∧ root.IsCode c.1 c.2) →
    root.IsCode eofSym last → s.src.rest = codes.flatMap Prod.snd ++ last ++ tail →
    exec .dec s = .next
      { ran .dec s with
        dstate := .done, cur := none
        src := { s.src with pos := s.src.pos + (codes.flatMap Prod.snd ++ last).length }
        snk := { s.snk with bits := s.snk.bits ++ codes.flatMap fun c => bitsOf 8 c.1.val } }

/-- R197 and R198: a source that ends before the sentinel's leaf is reached, between two symbols, at the first read or inside
a code, is TruncatedBody, and `DSTATE` is ERROR; on a finished sink too, where no byte is to be written before (R196). That the
cursor then stands at the end is the model's inference (log entry 19). -/
def Obligations.DecRaisesTruncatedBody : Prop :=
  ∀ (s : State) (root : Tree) (codes : List (Symbol × Bits)) (part : Bits), Idle s → NoError s →
    s.tree = some root → s.snk.finished = false ∨ codes = [] →
    (∀ c ∈ codes, c.1 ≠ eofSym ∧ root.IsCode c.1 c.2) →
    (part = [] ∨ ∃ w l r, root.atPath part = some (.node w l r)) → s.src.rest = codes.flatMap Prod.snd ++ part →
    ∃ u, exec .dec s = .next u ∧ u.err = .truncatedBody ∧ u.dstate = .error ∧ u.tree = s.tree ∧
      u.src = { s.src with pos := s.src.bits.length } ∧ u.wt = s.wt ∧ u.ct = s.ct ∧ u.ctV = s.ctV ∧
      u.snk.finished = s.snk.finished

/-- R194 and R196: a root that is a leaf meets a bit 1 after `n` symbols (none, on a finished sink): BadCode; a byte to be
written to a finished sink: BadCommand; `DSTATE` is ERROR. That the cursor then stands right after the last bit read is the
model's inference (log entry 19). -/
def Obligations.DecRaisesBadCodeAndBadCommand : Prop :=
  ∀ s : State, Idle s → NoError s →
    (∀ (sym : Symbol) (w n : Nat) (tail : Bits), s.tree = some (.leaf sym w) → s.snk.finished = false ∨ n = 0 →
      (sym = eofSym → n = 0) → s.src.rest = List.replicate n false ++ true :: tail →
      ∃ u, exec .dec s = .next u ∧ u.err = .badCode ∧ u.dstate = .error ∧ u.tree = s.tree ∧
        u.snk.finished = s.snk.finished ∧ u.src = { s.src with pos := s.src.pos + n + 1 }) ∧
    (∀ (root : Tree) (sym : Symbol) (p tail : Bits), s.tree = some root → s.snk.finished = true → sym ≠ eofSym →
      root.IsCode sym p → s.src.rest = p ++ tail →
      ∃ u, exec .dec s = .next u ∧ u.err = .badCommand ∧ u.dstate = .error ∧ u.tree = s.tree ∧
        u.snk.finished = true ∧ u.src = { s.src with pos := s.src.pos + p.length })

/-! ### The macros and the whole -/

/-- R233: a macro has the effect of its expansion by component commands, but for the word in `CMD`. -/
def Obligations.MacroEqualsItsExpansion : Prop :=
  ∀ s : State, Idle s → NoError s →
    (∃ t, runAll [.clr, .cnt, .bld, .gen, .wrm, .wrh, .rwd, .enc, .fin] s = .next t ∧
      exec .cmp s = .next { t with cmd := 0x0C#8 }) ∧
    (∃ t, runAll [.clr, .rdm, .rdh, .dec, .fin] s = .next t ∧ exec .dcm s = .next { t with cmd := 0x0D#8 })

/-- R222, R98, R224: CMP of an input leaves its counts, the greedy tree, that tree's code table and the finished file, whose
length before padding is that of R224; nothing else changes. -/
def Obligations.CmpWritesTheFile : Prop :=
  ∀ (s : State) (x : List Byte), Idle s → NoError s → FreshPorts x s → InRange x s →
    ∃ t, Greedy (wMax s.cfg) (initialLeaves (countsOf x)) t ∧
      exec .cmp s = .next
        { ran .cmp s with
          wt := countsOf x, tree := some t, ct := codesOf t, ctV := true, dstate := .walking, pq := []
          src := { bits := bitsOfBytes x, pos := 8 * x.length }
          snk := { bits := fileBits s.cfg t x, finished := true } } ∧
      (bitsOf 32 s.cfg.magic.toNat ++ t.ser ++ body (codesOf t) x).length =
        32 + (11 * t.leaves.length - 1) +
          ((List.finRange 256).map fun c => occurrences x c * (codeIn (codesOf t) c.castSucc).length).sum +
          (codeIn (codesOf t) eofSym).length

/-- R229: on a source whose first 32 bits are not the magic, or that has fewer, DCM ends with BadMagic, reads nothing after
its one `readUnit(32)`, and leaves the sink finished and empty. -/
def Obligations.DcmRejectsAWrongMagic : Prop :=
  ∀ (s : State) (x : List Byte), Idle s → NoError s → FreshPorts x s →
    (bitsOfBytes x).take 32 ≠ bitsOf 32 s.cfg.magic.toNat →
    ∃ u, exec .dcm s = .next u ∧ u.err = .badMagic ∧ u.src = (readUnit 32 s).2.src ∧
      u.snk = { bits := [], finished := true } ∧ statusWord u = 0x0006#16

/-- R226: DCM of a file, a magic, a tree's header, codes of that tree for byte symbols and one for the sentinel, whatever
follows, leaves the decoded tree, `DSTATE` = DONE, the bytes in the finished sink, and the cursor after the sentinel's code;
on a sink already finished too, where no byte is to be written, and the sink then stays as it is. -/
def Obligations.DcmDecodesTheFile : Prop :=
  ∀ (s : State) (root : Tree) (codes : List (Symbol × Bits)) (last tail : Bits), Idle s → NoError s →
    s.snk.finished = false ∨ codes = [] → root.size ≤ nodeCap → (∀ c ∈ codes, c.1 ≠ eofSym ∧ root.IsCode c.1 c.2) →
    root.IsCode eofSym last →
    s.src.rest = bitsOf 32 s.cfg.magic.toNat ++ root.ser ++ codes.flatMap Prod.snd ++ last ++ tail →
    exec .dcm s = .next
      { ran .dcm s with
        wt := Vector.replicate 256 0, tree := some root.unweighted, ct := Vector.replicate 257 none, ctV := false
        dstate := .done, cur := none, stack := [], nodes := 0
        src := { s.src with
          pos := s.src.pos + (32 + root.ser.length + (codes.flatMap Prod.snd).length + last.length) }
        snk := if s.snk.finished then s.snk
          else { bits := padToByte (s.snk.bits ++ codes.flatMap fun c => bitsOf 8 c.1.val), finished := true } }

/-- R228: decompressing a compressed input gives the input back, for every byte sequence shorter than `W_MAX`, from reset,
with any value of the parameters. -/
def Obligations.RoundTripGivesTheInputBack : Prop :=
  ∀ (c : Config) (x : List Byte), x.length < wMax c →
    ∃ t y u,
      Sys2Proof.core.run 2 { State.reset with cfg := c, host := [.attach x, .cmd 0x0C#8] } = .next t ∧
      CompressionSucceeded t ∧ t.snk.output = some y ∧
      Sys2Proof.core.run 2 { (t : State) with host := [.attach y, .cmd 0x0D#8] } = .next u ∧
      DecompressionSucceeded u ∧ u.snk.output = some x

/-! ### Rules of the whole machine -/

/-- R287: with a finite source every command ends: every instruction answers a next state in every state, and no step is
ever stuck. -/
def Obligations.EveryCommandEnds : Prop :=
  (∀ (i : Instr) (s : State), ∃ t, exec i s = .next t) ∧ ∀ s : State, step s ≠ .fault .stuck

/-- R258: which command can raise which error. -/
def Obligations.CommandsRaiseOnlyTheirErrors : Prop :=
  ∀ (i : Instr) (s t : State), NoError s → exec i s = .next t → t.err = .none ∨ mayRaise i t.err = true

/-- R249: while an error is recorded every command but NOP, FIN and CLR is ignored, and only CLR clears it. -/
def Obligations.ErrorIsStickyUntilClr : Prop :=
  ∀ (i : Instr) (s : State), Idle s → s.err ≠ .none → i.format = .cmd →
    (i ≠ .nop → i ≠ .fin → i ≠ .clr → exec i s = .next (ran i s)) ∧
    ∀ t, exec i s = .next t → t.err = if i = .clr then .none else s.err

/-- R246: a command that fails its precondition changes nothing but `ERR` and `DONE`. -/
def Obligations.FailedPreconditionChangesOnlyErr : Prop :=
  ∀ s : State, Idle s → NoError s →
    (s.tree = none →
      exec .gen s = .next { ran .gen s with err := .badCommand } ∧
      exec .wrh s = .next { ran .wrh s with err := .badCommand } ∧
      exec .dec s = .next { ran .dec s with err := .badCommand }) ∧
    (s.ctV = false → exec .enc s = .next { ran .enc s with err := .badCommand })

/-- R20, "written by": what each instruction leaves unchanged, whether it ends with an error or not. The sink's content after
a new error is unspecified (R248, log entry 6), its `finished` is not. -/
def Obligations.StateIsWrittenOnlyByItsWriters : Prop :=
  ∀ (i : Instr) (s t : State), exec i s = .next t →
    (i ∉ [Instr.cnt, .clr, .cmp, .dcm] → t.wt = s.wt) ∧
    (i ∉ [Instr.bld, .rdh, .clr, .cmp, .dcm] → i.format = .cmd → t.tree = s.tree) ∧
    (i ∉ [Instr.gen, .bld, .rdh, .clr, .cmp, .dcm] → t.ct = s.ct ∧ t.ctV = s.ctV) ∧
    (i ∉ [Instr.dec, .clr, .cmp, .dcm] → t.dstate = s.dstate) ∧
    (i ∉ [Instr.cnt, .enc, .rdm, .rdh, .dec, .rwd, .cmp, .dcm] → t.src = s.src) ∧
    (i ∉ [Instr.fin, .cmp, .dcm] → t.snk.finished = s.snk.finished) ∧
    (i ∉ [Instr.wrm, .wrh, .enc, .dec, .fin, .cmp, .dcm] → NoError s ∨ i.format = .cmd → t.err = s.err → t.snk = s.snk) ∧
    (i.format = .cmd → t.seq = s.seq) ∧
    t.src.bits = s.src.bits ∧ t.cfg = s.cfg ∧ t.host = s.host ∧ t.hostRead = s.hostRead

/-! ### What every step keeps -/

/-- R44: no step changes the parameters. -/
def Obligations.EveryStepKeepsTheParameters : Prop :=
  ∀ s t : State, step s = .next t → t.cfg = s.cfg

/-- The invariants below hold at reset. The ports before any `Attach` (log entry 2) and the node count 0 (log entry 9) are the
model's choices. -/
def Obligations.InvariantsHoldAtReset : Prop :=
  PortsOk State.reset ∧ WeightsFit State.reset ∧ EngineClean State.reset ∧ TableOfTree State.reset ∧ NodesFit State.reset

/-- R40 and R65: the source stays whole bytes with its cursor inside, and a finished sink is whole bytes. -/
def Obligations.EveryStepKeepsThePortsOk : Prop :=
  ∀ s t : State, PortsOk s → step s = .next t → PortsOk t

/-- R21: every weight stays within `W_BITS` bits. -/
def Obligations.EveryStepKeepsTheWeightsFit : Prop :=
  ∀ s t : State, WeightsFit s → step s = .next t → WeightsFit t

/-- R31 to R33, R42: the queue, the traversal stack, the cursor and the sequencer's list are empty outside the commands that
use them, and EMITTED is never held between steps. -/
def Obligations.EveryStepKeepsTheEngineClean : Prop :=
  ∀ s t : State, EngineClean s → step s = .next t → EngineClean t

/-- R30, R24 (c), R27: the code table always belongs to the tree present, and no tree passes the node capacity. -/
def Obligations.EveryStepKeepsTableAndTree : Prop :=
  ∀ s t : State, EngineClean s → TableOfTree s → NodesFit s → step s = .next t → TableOfTree t ∧ NodesFit t

/-- R35, R8: a command taken as one step is the run of the engine's small steps, the model's choice (log entry 5), from the
write of `CMD` to `DONE`. -/
def Obligations.AtomicCommandIsTheRunOfItsSteps : Prop :=
  ∀ (s t : State) (w : Byte), Idle s → EngineClean s → exec (decodeCommand w) s = .next t →
    ∃ k, engineRun k (startCommand w s) = .next t
end

