-- ==== Sys2Proof/Laws/Bits.lean ====
section
/-! SUPPORT. Laws of bit strings: `bitsOf` and `val` are inverse, and bytes and bits agree. -/

namespace Sys2Proof.Laws

@[simp] theorem length_bitsOf (n v : Nat) : (bitsOf n v).length = n := by
  induction n with
  | zero => rfl
  | succ n ih => simp [bitsOf, ih]

theorem valFrom_eq (acc : Nat) (bs : Bits) : valFrom acc bs = acc * 2 ^ bs.length + val bs := by
  induction bs generalizing acc with
  | nil => simp [valFrom, val]
  | cons b bs ih =>
    have h : val (b :: bs) = b.toNat * 2 ^ bs.length + val bs := by
      show valFrom (2 * 0 + b.toNat) bs = _
      rw [ih]; simp
    rw [h]
    show valFrom (2 * acc + b.toNat) bs = _
    rw [ih, List.length_cons, pow_succ]
    ring

@[simp] theorem val_nil : val [] = 0 := rfl

theorem val_cons (b : Bool) (bs : Bits) : val (b :: bs) = b.toNat * 2 ^ bs.length + val bs := by
  show valFrom (2 * 0 + b.toNat) bs = _
  rw [valFrom_eq]; simp

theorem val_append (a b : Bits) : val (a ++ b) = val a * 2 ^ b.length + val b := by
  induction a with
  | nil => simp
  | cons x a ih =>
    simp only [List.cons_append, val_cons, List.length_append, pow_add, ih]
    ring

theorem val_lt (bs : Bits) : val bs < 2 ^ bs.length := by
  induction bs with
  | nil => simp
  | cons b bs ih =>
    rw [val_cons, List.length_cons, pow_succ]
    cases b <;> simp <;> omega

/-- Reading back `bitsN(v)` gives the low `n` bits of `v` (R9, R66). -/
theorem val_bitsOf (n v : Nat) : val (bitsOf n v) = v % 2 ^ n := by
  induction n with
  | zero => simp [bitsOf, Nat.mod_one]
  | succ n ih =>
    have hb : (v.testBit n).toNat = v / 2 ^ n % 2 := by
      rw [Nat.testBit_eq_decide_div_mod_eq]
      rcases Nat.mod_two_eq_zero_or_one (v / 2 ^ n) with h | h <;> simp [h]
    rw [bitsOf, val_cons, length_bitsOf, ih, hb, Nat.mod_pow_succ, Nat.mul_comm, Nat.add_comm]

theorem testBit_val_head (b : Bool) (bs : Bits) : (val (b :: bs)).testBit bs.length = b := by
  have h := val_lt bs
  rw [val_cons, Nat.add_comm, Nat.mul_comm, Nat.testBit_eq_decide_div_mod_eq]
  rw [Nat.add_mul_div_left _ _ (Nat.two_pow_pos _), Nat.div_eq_of_lt h]
  cases b <;> simp

theorem bitsOf_congr (n : Nat) {v w : Nat} (h : v % 2 ^ n = w % 2 ^ n) : bitsOf n v = bitsOf n w := by
  induction n with
  | zero => rfl
  | succ n ih =>
    have ht : v.testBit n = w.testBit n := by
      have := congrArg (fun x => x.testBit n) h
      simpa [Nat.testBit_mod_two_pow] using this
    have hm : v % 2 ^ n = w % 2 ^ n := by
      have := congrArg (· % 2 ^ n) h
      simpa [Nat.mod_mod_of_dvd _ (pow_dvd_pow 2 (Nat.le_succ n))] using this
    rw [bitsOf, bitsOf, ht, ih hm]

/-- A bit string is the `bitsN` of its own value (R102). -/
theorem bitsOf_val (bs : Bits) : bitsOf bs.length (val bs) = bs := by
  induction bs with
  | nil => rfl
  | cons b bs ih =>
    rw [List.length_cons, bitsOf, testBit_val_head]
    have : bitsOf bs.length (val (b :: bs)) = bitsOf bs.length (val bs) := by
      apply bitsOf_congr
      rw [val_cons, Nat.add_comm, Nat.add_mul_mod_self_right]
    rw [this, ih]

theorem bitsOf_inj {n v w : Nat} (hv : v < 2 ^ n) (hw : w < 2 ^ n) (h : bitsOf n v = bitsOf n w) : v = w := by
  have := congrArg val h
  rwa [val_bitsOf, val_bitsOf, Nat.mod_eq_of_lt hv, Nat.mod_eq_of_lt hw] at this

/-- A unit of `n` bits, as a bit vector, and back. -/
theorem ofNat_val_bitsOf {n : Nat} (v : BitVec n) : BitVec.ofNat n (val (bitsOf n v.toNat)) = v := by
  rw [val_bitsOf, Nat.mod_eq_of_lt v.isLt]
  exact BitVec.eq_of_toNat_eq (by simp)

@[simp] theorem bitsOfBytes_nil : bitsOfBytes [] = [] := rfl

@[simp] theorem bitsOfBytes_cons (b : Byte) (bs : List Byte) :
    bitsOfBytes (b :: bs) = bitsOf 8 b.toNat ++ bitsOfBytes bs := rfl

@[simp] theorem length_bitsOfBytes (bs : List Byte) : (bitsOfBytes bs).length = 8 * bs.length := by
  induction bs with
  | nil => rfl
  | cons b bs ih => simp [ih]; omega

theorem bytesOfBits_append {u : Bits} (h : u.length = 8) (rest : Bits) :
    bytesOfBits (u ++ rest) = BitVec.ofNat 8 (val u) :: bytesOfBits rest := by
  match u, h with
  | [_, _, _, _, _, _, _, _], _ => rfl

/-- The bytes of the bits of a byte sequence are that sequence (R67). -/
theorem bytesOfBits_bitsOfBytes (bs : List Byte) : bytesOfBits (bitsOfBytes bs) = bs := by
  induction bs with
  | nil => rfl
  | cons b bs ih =>
    rw [bitsOfBytes_cons, bytesOfBits_append (length_bitsOf 8 _), ofNat_val_bitsOf, ih]

/-- Every bit string of whole bytes is the bits of its bytes (R67). -/
theorem bitsOfBytes_bytesOfBits (bits : Bits) (h : bits.length % 8 = 0) : bitsOfBytes (bytesOfBits bits) = bits := by
  obtain ⟨k, hk⟩ : ∃ k, bits.length = 8 * k := ⟨bits.length / 8, by omega⟩
  induction k generalizing bits with
  | zero =>
    have : bits = [] := List.length_eq_zero_iff.mp (by omega)
    subst this; rfl
  | succ k ih =>
    have h8 : (bits.take 8).length = 8 := by rw [List.length_take]; omega
    have hr : (bits.drop 8).length = 8 * k := by rw [List.length_drop]; omega
    have hu : bitsOf 8 (BitVec.ofNat 8 (val (bits.take 8))).toNat = bits.take 8 := by
      have hv := val_lt (bits.take 8)
      rw [h8] at hv
      rw [BitVec.toNat_ofNat, Nat.mod_eq_of_lt hv]
      have := bitsOf_val (bits.take 8)
      rwa [h8] at this
    conv_lhs => rw [← List.take_append_drop 8 bits]
    rw [bytesOfBits_append h8, bitsOfBytes_cons, ih (bits.drop 8) (by omega) hr, hu, List.take_append_drop]

end Sys2Proof.Laws
end

