-- ==== Sys2Proof/Laws/State.lean ====
section
/-! SUPPORT. What each shared update of the state does to each field: one lemma a field, true by rfl. -/

namespace Sys2Proof.Laws

open Sys2Proof.Machine

@[simp] theorem beginCommand_wt (i : Instr) (s : State) : (beginCommand i s).wt = s.wt := rfl
@[simp] theorem beginCommand_tree (i : Instr) (s : State) : (beginCommand i s).tree = s.tree := rfl
@[simp] theorem beginCommand_ct (i : Instr) (s : State) : (beginCommand i s).ct = s.ct := rfl
@[simp] theorem beginCommand_ctV (i : Instr) (s : State) : (beginCommand i s).ctV = s.ctV := rfl
@[simp] theorem beginCommand_dstate (i : Instr) (s : State) : (beginCommand i s).dstate = s.dstate := rfl
@[simp] theorem beginCommand_cur (i : Instr) (s : State) : (beginCommand i s).cur = s.cur := rfl
@[simp] theorem beginCommand_err (i : Instr) (s : State) : (beginCommand i s).err = s.err := rfl
@[simp] theorem beginCommand_busy (i : Instr) (s : State) : (beginCommand i s).busy = true := rfl
@[simp] theorem beginCommand_done (i : Instr) (s : State) : (beginCommand i s).done = false := rfl
@[simp] theorem beginCommand_cmd (i : Instr) (s : State) : (beginCommand i s).cmd = i.word := rfl
@[simp] theorem beginCommand_src (i : Instr) (s : State) : (beginCommand i s).src = s.src := rfl
@[simp] theorem beginCommand_snk (i : Instr) (s : State) : (beginCommand i s).snk = s.snk := rfl
@[simp] theorem beginCommand_pq (i : Instr) (s : State) : (beginCommand i s).pq = s.pq := rfl
@[simp] theorem beginCommand_stack (i : Instr) (s : State) : (beginCommand i s).stack = s.stack := rfl
@[simp] theorem beginCommand_nodes (i : Instr) (s : State) : (beginCommand i s).nodes = s.nodes := rfl
@[simp] theorem beginCommand_seq (i : Instr) (s : State) : (beginCommand i s).seq = s.seq := rfl
@[simp] theorem beginCommand_cfg (i : Instr) (s : State) : (beginCommand i s).cfg = s.cfg := rfl
@[simp] theorem beginCommand_host (i : Instr) (s : State) : (beginCommand i s).host = s.host := rfl
@[simp] theorem beginCommand_hostRead (i : Instr) (s : State) : (beginCommand i s).hostRead = s.hostRead := rfl
@[simp] theorem beginCommand_fresh (i : Instr) (s : State) : (beginCommand i s).fresh = s.fresh := rfl

@[simp] theorem endCommand_wt (s : State) : (endCommand s).wt = s.wt := rfl
@[simp] theorem endCommand_tree (s : State) : (endCommand s).tree = s.tree := rfl
@[simp] theorem endCommand_ct (s : State) : (endCommand s).ct = s.ct := rfl
@[simp] theorem endCommand_ctV (s : State) : (endCommand s).ctV = s.ctV := rfl
@[simp] theorem endCommand_dstate (s : State) : (endCommand s).dstate = s.dstate := rfl
@[simp] theorem endCommand_cur (s : State) : (endCommand s).cur = s.cur := rfl
@[simp] theorem endCommand_err (s : State) : (endCommand s).err = s.err := rfl
@[simp] theorem endCommand_busy (s : State) : (endCommand s).busy = false := rfl
@[simp] theorem endCommand_done (s : State) : (endCommand s).done = true := rfl
@[simp] theorem endCommand_cmd (s : State) : (endCommand s).cmd = s.cmd := rfl
@[simp] theorem endCommand_src (s : State) : (endCommand s).src = s.src := rfl
@[simp] theorem endCommand_snk (s : State) : (endCommand s).snk = s.snk := rfl
@[simp] theorem endCommand_pq (s : State) : (endCommand s).pq = s.pq := rfl
@[simp] theorem endCommand_stack (s : State) : (endCommand s).stack = s.stack := rfl
@[simp] theorem endCommand_nodes (s : State) : (endCommand s).nodes = s.nodes := rfl
@[simp] theorem endCommand_seq (s : State) : (endCommand s).seq = s.seq := rfl
@[simp] theorem endCommand_cfg (s : State) : (endCommand s).cfg = s.cfg := rfl
@[simp] theorem endCommand_host (s : State) : (endCommand s).host = s.host := rfl
@[simp] theorem endCommand_hostRead (s : State) : (endCommand s).hostRead = s.hostRead := rfl
@[simp] theorem endCommand_fresh (s : State) : (endCommand s).fresh = s.fresh := rfl

@[simp] theorem ran_wt (i : Instr) (s : State) : (ran i s).wt = s.wt := rfl
@[simp] theorem ran_tree (i : Instr) (s : State) : (ran i s).tree = s.tree := rfl
@[simp] theorem ran_ct (i : Instr) (s : State) : (ran i s).ct = s.ct := rfl
@[simp] theorem ran_ctV (i : Instr) (s : State) : (ran i s).ctV = s.ctV := rfl
@[simp] theorem ran_dstate (i : Instr) (s : State) : (ran i s).dstate = s.dstate := rfl
@[simp] theorem ran_cur (i : Instr) (s : State) : (ran i s).cur = s.cur := rfl
@[simp] theorem ran_err (i : Instr) (s : State) : (ran i s).err = s.err := rfl
@[simp] theorem ran_busy (i : Instr) (s : State) : (ran i s).busy = false := rfl
@[simp] theorem ran_done (i : Instr) (s : State) : (ran i s).done = true := rfl
@[simp] theorem ran_cmd (i : Instr) (s : State) : (ran i s).cmd = i.word := rfl
@[simp] theorem ran_src (i : Instr) (s : State) : (ran i s).src = s.src := rfl
@[simp] theorem ran_snk (i : Instr) (s : State) : (ran i s).snk = s.snk := rfl
@[simp] theorem ran_pq (i : Instr) (s : State) : (ran i s).pq = s.pq := rfl
@[simp] theorem ran_stack (i : Instr) (s : State) : (ran i s).stack = s.stack := rfl
@[simp] theorem ran_nodes (i : Instr) (s : State) : (ran i s).nodes = s.nodes := rfl
@[simp] theorem ran_seq (i : Instr) (s : State) : (ran i s).seq = s.seq := rfl
@[simp] theorem ran_cfg (i : Instr) (s : State) : (ran i s).cfg = s.cfg := rfl
@[simp] theorem ran_host (i : Instr) (s : State) : (ran i s).host = s.host := rfl
@[simp] theorem ran_hostRead (i : Instr) (s : State) : (ran i s).hostRead = s.hostRead := rfl
@[simp] theorem ran_fresh (i : Instr) (s : State) : (ran i s).fresh = s.fresh := rfl

@[simp] theorem refuseCommand_wt (s : State) : (refuseCommand s).wt = s.wt := rfl
@[simp] theorem refuseCommand_tree (s : State) : (refuseCommand s).tree = s.tree := rfl
@[simp] theorem refuseCommand_ct (s : State) : (refuseCommand s).ct = s.ct := rfl
@[simp] theorem refuseCommand_ctV (s : State) : (refuseCommand s).ctV = s.ctV := rfl
@[simp] theorem refuseCommand_dstate (s : State) : (refuseCommand s).dstate = s.dstate := rfl
@[simp] theorem refuseCommand_cur (s : State) : (refuseCommand s).cur = s.cur := rfl
@[simp] theorem refuseCommand_err (s : State) : (refuseCommand s).err = .badCommand := rfl
@[simp] theorem refuseCommand_busy (s : State) : (refuseCommand s).busy = s.busy := rfl
@[simp] theorem refuseCommand_done (s : State) : (refuseCommand s).done = s.done := rfl
@[simp] theorem refuseCommand_cmd (s : State) : (refuseCommand s).cmd = s.cmd := rfl
@[simp] theorem refuseCommand_src (s : State) : (refuseCommand s).src = s.src := rfl
@[simp] theorem refuseCommand_snk (s : State) : (refuseCommand s).snk = s.snk := rfl
@[simp] theorem refuseCommand_pq (s : State) : (refuseCommand s).pq = s.pq := rfl
@[simp] theorem refuseCommand_stack (s : State) : (refuseCommand s).stack = s.stack := rfl
@[simp] theorem refuseCommand_nodes (s : State) : (refuseCommand s).nodes = s.nodes := rfl
@[simp] theorem refuseCommand_seq (s : State) : (refuseCommand s).seq = s.seq := rfl
@[simp] theorem refuseCommand_cfg (s : State) : (refuseCommand s).cfg = s.cfg := rfl
@[simp] theorem refuseCommand_host (s : State) : (refuseCommand s).host = s.host := rfl
@[simp] theorem refuseCommand_hostRead (s : State) : (refuseCommand s).hostRead = s.hostRead := rfl
@[simp] theorem refuseCommand_fresh (s : State) : (refuseCommand s).fresh = s.fresh := rfl

@[simp] theorem dropTree_wt (s : State) : (dropTree s).wt = s.wt := rfl
@[simp] theorem dropTree_tree (s : State) : (dropTree s).tree = none := rfl
@[simp] theorem dropTree_ct (s : State) : (dropTree s).ct = ctEmpty := rfl
@[simp] theorem dropTree_ctV (s : State) : (dropTree s).ctV = false := rfl
@[simp] theorem dropTree_dstate (s : State) : (dropTree s).dstate = s.dstate := rfl
@[simp] theorem dropTree_cur (s : State) : (dropTree s).cur = s.cur := rfl
@[simp] theorem dropTree_err (s : State) : (dropTree s).err = s.err := rfl
@[simp] theorem dropTree_busy (s : State) : (dropTree s).busy = s.busy := rfl
@[simp] theorem dropTree_done (s : State) : (dropTree s).done = s.done := rfl
@[simp] theorem dropTree_cmd (s : State) : (dropTree s).cmd = s.cmd := rfl
@[simp] theorem dropTree_src (s : State) : (dropTree s).src = s.src := rfl
@[simp] theorem dropTree_snk (s : State) : (dropTree s).snk = s.snk := rfl
@[simp] theorem dropTree_pq (s : State) : (dropTree s).pq = s.pq := rfl
@[simp] theorem dropTree_stack (s : State) : (dropTree s).stack = s.stack := rfl
@[simp] theorem dropTree_nodes (s : State) : (dropTree s).nodes = s.nodes := rfl
@[simp] theorem dropTree_seq (s : State) : (dropTree s).seq = s.seq := rfl
@[simp] theorem dropTree_cfg (s : State) : (dropTree s).cfg = s.cfg := rfl
@[simp] theorem dropTree_host (s : State) : (dropTree s).host = s.host := rfl
@[simp] theorem dropTree_hostRead (s : State) : (dropTree s).hostRead = s.hostRead := rfl
@[simp] theorem dropTree_fresh (s : State) : (dropTree s).fresh = s.fresh := rfl

@[simp] theorem resetCall_wt (s : State) : (resetCall s).wt = wtZero := rfl
@[simp] theorem resetCall_tree (s : State) : (resetCall s).tree = none := rfl
@[simp] theorem resetCall_ct (s : State) : (resetCall s).ct = ctEmpty := rfl
@[simp] theorem resetCall_ctV (s : State) : (resetCall s).ctV = false := rfl
@[simp] theorem resetCall_dstate (s : State) : (resetCall s).dstate = .walking := rfl
@[simp] theorem resetCall_cur (s : State) : (resetCall s).cur = s.cur := rfl
@[simp] theorem resetCall_err (s : State) : (resetCall s).err = s.err := rfl
@[simp] theorem resetCall_busy (s : State) : (resetCall s).busy = s.busy := rfl
@[simp] theorem resetCall_done (s : State) : (resetCall s).done = s.done := rfl
@[simp] theorem resetCall_cmd (s : State) : (resetCall s).cmd = s.cmd := rfl
@[simp] theorem resetCall_src (s : State) : (resetCall s).src = s.src := rfl
@[simp] theorem resetCall_snk (s : State) : (resetCall s).snk = s.snk := rfl
@[simp] theorem resetCall_pq (s : State) : (resetCall s).pq = s.pq := rfl
@[simp] theorem resetCall_stack (s : State) : (resetCall s).stack = s.stack := rfl
@[simp] theorem resetCall_nodes (s : State) : (resetCall s).nodes = s.nodes := rfl
@[simp] theorem resetCall_seq (s : State) : (resetCall s).seq = s.seq := rfl
@[simp] theorem resetCall_cfg (s : State) : (resetCall s).cfg = s.cfg := rfl
@[simp] theorem resetCall_host (s : State) : (resetCall s).host = s.host := rfl
@[simp] theorem resetCall_hostRead (s : State) : (resetCall s).hostRead = s.hostRead := rfl
@[simp] theorem resetCall_fresh (s : State) : (resetCall s).fresh = s.fresh := rfl

@[simp] theorem clearError_wt (s : State) : (clearError s).wt = wtZero := rfl
@[simp] theorem clearError_tree (s : State) : (clearError s).tree = none := rfl
@[simp] theorem clearError_ct (s : State) : (clearError s).ct = ctEmpty := rfl
@[simp] theorem clearError_ctV (s : State) : (clearError s).ctV = false := rfl
@[simp] theorem clearError_dstate (s : State) : (clearError s).dstate = .walking := rfl
@[simp] theorem clearError_cur (s : State) : (clearError s).cur = s.cur := rfl
@[simp] theorem clearError_err (s : State) : (clearError s).err = .none := rfl
@[simp] theorem clearError_busy (s : State) : (clearError s).busy = s.busy := rfl
@[simp] theorem clearError_done (s : State) : (clearError s).done = s.done := rfl
@[simp] theorem clearError_cmd (s : State) : (clearError s).cmd = s.cmd := rfl
@[simp] theorem clearError_src (s : State) : (clearError s).src = s.src := rfl
@[simp] theorem clearError_snk (s : State) : (clearError s).snk = s.snk := rfl
@[simp] theorem clearError_pq (s : State) : (clearError s).pq = s.pq := rfl
@[simp] theorem clearError_stack (s : State) : (clearError s).stack = s.stack := rfl
@[simp] theorem clearError_nodes (s : State) : (clearError s).nodes = s.nodes := rfl
@[simp] theorem clearError_seq (s : State) : (clearError s).seq = s.seq := rfl
@[simp] theorem clearError_cfg (s : State) : (clearError s).cfg = s.cfg := rfl
@[simp] theorem clearError_host (s : State) : (clearError s).host = s.host := rfl
@[simp] theorem clearError_hostRead (s : State) : (clearError s).hostRead = s.hostRead := rfl
@[simp] theorem clearError_fresh (s : State) : (clearError s).fresh = s.fresh := rfl

@[simp] theorem rewindSource_wt (s : State) : (rewindSource s).wt = s.wt := rfl
@[simp] theorem rewindSource_tree (s : State) : (rewindSource s).tree = s.tree := rfl
@[simp] theorem rewindSource_ct (s : State) : (rewindSource s).ct = s.ct := rfl
@[simp] theorem rewindSource_ctV (s : State) : (rewindSource s).ctV = s.ctV := rfl
@[simp] theorem rewindSource_dstate (s : State) : (rewindSource s).dstate = s.dstate := rfl
@[simp] theorem rewindSource_cur (s : State) : (rewindSource s).cur = s.cur := rfl
@[simp] theorem rewindSource_err (s : State) : (rewindSource s).err = s.err := rfl
@[simp] theorem rewindSource_busy (s : State) : (rewindSource s).busy = s.busy := rfl
@[simp] theorem rewindSource_done (s : State) : (rewindSource s).done = s.done := rfl
@[simp] theorem rewindSource_cmd (s : State) : (rewindSource s).cmd = s.cmd := rfl
@[simp] theorem rewindSource_src (s : State) : (rewindSource s).src = s.src.rewind := rfl
@[simp] theorem rewindSource_snk (s : State) : (rewindSource s).snk = s.snk := rfl
@[simp] theorem rewindSource_pq (s : State) : (rewindSource s).pq = s.pq := rfl
@[simp] theorem rewindSource_stack (s : State) : (rewindSource s).stack = s.stack := rfl
@[simp] theorem rewindSource_nodes (s : State) : (rewindSource s).nodes = s.nodes := rfl
@[simp] theorem rewindSource_seq (s : State) : (rewindSource s).seq = s.seq := rfl
@[simp] theorem rewindSource_cfg (s : State) : (rewindSource s).cfg = s.cfg := rfl
@[simp] theorem rewindSource_host (s : State) : (rewindSource s).host = s.host := rfl
@[simp] theorem rewindSource_hostRead (s : State) : (rewindSource s).hostRead = s.hostRead := rfl
@[simp] theorem rewindSource_fresh (s : State) : (rewindSource s).fresh = s.fresh := rfl

@[simp] theorem finishSink_wt (s : State) : (finishSink s).wt = s.wt := rfl
@[simp] theorem finishSink_tree (s : State) : (finishSink s).tree = s.tree := rfl
@[simp] theorem finishSink_ct (s : State) : (finishSink s).ct = s.ct := rfl
@[simp] theorem finishSink_ctV (s : State) : (finishSink s).ctV = s.ctV := rfl
@[simp] theorem finishSink_dstate (s : State) : (finishSink s).dstate = s.dstate := rfl
@[simp] theorem finishSink_cur (s : State) : (finishSink s).cur = s.cur := rfl
@[simp] theorem finishSink_err (s : State) : (finishSink s).err = s.err := rfl
@[simp] theorem finishSink_busy (s : State) : (finishSink s).busy = s.busy := rfl
@[simp] theorem finishSink_done (s : State) : (finishSink s).done = s.done := rfl
@[simp] theorem finishSink_cmd (s : State) : (finishSink s).cmd = s.cmd := rfl
@[simp] theorem finishSink_src (s : State) : (finishSink s).src = s.src := rfl
@[simp] theorem finishSink_snk (s : State) : (finishSink s).snk = s.snk.finish := rfl
@[simp] theorem finishSink_pq (s : State) : (finishSink s).pq = s.pq := rfl
@[simp] theorem finishSink_stack (s : State) : (finishSink s).stack = s.stack := rfl
@[simp] theorem finishSink_nodes (s : State) : (finishSink s).nodes = s.nodes := rfl
@[simp] theorem finishSink_seq (s : State) : (finishSink s).seq = s.seq := rfl
@[simp] theorem finishSink_cfg (s : State) : (finishSink s).cfg = s.cfg := rfl
@[simp] theorem finishSink_host (s : State) : (finishSink s).host = s.host := rfl
@[simp] theorem finishSink_hostRead (s : State) : (finishSink s).hostRead = s.hostRead := rfl
@[simp] theorem finishSink_fresh (s : State) : (finishSink s).fresh = s.fresh := rfl

/-- The frame of a command leaves what `ran` says when the command itself leaves the state alone. -/
theorem end_begin (i : Instr) (s : State) : endCommand (beginCommand i s) = ran i s := rfl

end Sys2Proof.Laws
end

