-- ==== Sys2Proof/Laws/Command.lean ====
section
/-! SUPPORT. What the frame of a command can do (R220): every outcome once, and the cases the statements use. -/

namespace Sys2Proof.Laws

open Sys2Proof.Machine

/-- While busy a write of `CMD` has no effect (R36, R284). -/
theorem runCommand_busy {i : Instr} {rule : State → Progress} {s : State} (h : s.busy = true) :
    runCommand i rule s = .next s := by
  simp [runCommand, h]

/-- While an error is recorded, every command but NOP, FIN and CLR is ignored (R249). -/
theorem runCommand_ignored {i : Instr} {rule : State → Progress} {s : State} (hb : s.busy = false)
    (he : s.err ≠ .none) (hi : runsUnderError i = false) : runCommand i rule s = .next (ran i s) := by
  simp [runCommand, hb, he, hi, end_begin]

/-- A command that is not ignored runs its rule on the state whose `CMD`, `BUSY` and `DONE` are set (R220). -/
theorem runCommand_runs {i : Instr} {rule : State → Progress} {s : State} (hb : s.busy = false)
    (h : s.err = .none ∨ runsUnderError i = true) : runCommand i rule s = outcomeOf (rule (beginCommand i s)) := by
  rcases h with h | h <;> simp [runCommand, hb, h]

theorem runCommand_done {i : Instr} {rule : State → Progress} {s t : State} (hb : s.busy = false)
    (h : s.err = .none ∨ runsUnderError i = true) (hr : rule (beginCommand i s) = .done t) :
    runCommand i rule s = .next (endCommand t) := by
  rw [runCommand_runs hb h, hr]; rfl

theorem runCommand_raised {i : Instr} {rule : State → Progress} {s t : State} (hb : s.busy = false)
    (h : s.err = .none ∨ runsUnderError i = true) (hr : rule (beginCommand i s) = .raised t) :
    runCommand i rule s = .next (endCommand t) := by
  rw [runCommand_runs hb h, hr]; rfl

/-- Every way a command can answer a next state. -/
theorem runCommand_next {i : Instr} {rule : State → Progress} {s t : State} (h : runCommand i rule s = .next t) :
    (s.busy = true ∧ t = s) ∨
    (s.busy = false ∧ s.err ≠ .none ∧ runsUnderError i = false ∧ t = ran i s) ∨
    (s.busy = false ∧ (s.err = .none ∨ runsUnderError i = true) ∧
      ∃ u, (rule (beginCommand i s) = .done u ∨ rule (beginCommand i s) = .raised u) ∧ t = endCommand u) := by
  rcases hb : s.busy with _ | _
  · by_cases he : s.err ≠ .none ∧ runsUnderError i = false
    · rw [runCommand_ignored hb he.1 he.2] at h
      cases h
      exact .inr (.inl ⟨rfl, he.1, he.2, rfl⟩)
    · have hr : s.err = .none ∨ runsUnderError i = true := by
        rcases hu : runsUnderError i with _ | _
        · exact .inl (by_contra fun hn => he ⟨hn, hu⟩)
        · exact .inr rfl
      rw [runCommand_runs hb hr] at h
      refine .inr (.inr ⟨rfl, hr, ?_⟩)
      cases hp : rule (beginCommand i s) with
      | more u => rw [hp] at h; cases h
      | done u => rw [hp] at h; cases h; exact ⟨u, .inl rfl, rfl⟩
      | raised u => rw [hp] at h; cases h; exact ⟨u, .inr rfl, rfl⟩
  · rw [runCommand_busy hb] at h
    cases h
    exact .inl ⟨rfl, rfl⟩

/-- A command never refuses, and it faults only when its rule does not end. -/
theorem runCommand_ends {i : Instr} {rule : State → Progress} (s : State)
    (h : ∀ t u, rule t ≠ .more u) : ∃ t, runCommand i rule s = .next t := by
  unfold runCommand
  split
  · exact ⟨_, rfl⟩
  · split
    · exact ⟨_, rfl⟩
    · cases hp : rule (beginCommand i s) with
      | more u => exact absurd hp (h _ _)
      | done u => exact ⟨_, rfl⟩
      | raised u => exact ⟨_, rfl⟩

end Sys2Proof.Laws
end

