-- ==== Sys2Proof/Laws/Ports.lean ====
section
/-! SUPPORT. Laws of the ports: what a read, a write and a finish can do (R61 to R65). -/

namespace Sys2Proof.Laws

open Sys2Proof.Machine

theorem read_some {n : Nat} {s : Source} (h : s.pos + n ≤ s.bits.length) :
    s.read n = (some (BitVec.ofNat n (val (s.rest.take n))), { s with pos := s.pos + n }) := by
  simp [Source.read, h]

theorem read_eos {n : Nat} {s : Source} (h : ¬ s.pos + n ≤ s.bits.length) :
    s.read n = (none, { s with pos := s.bits.length }) := by
  simp [Source.read, h]

/-- Every outcome of `readUnit(n)`: the unit, with the cursor moved by `n`, or `EOS`, with the cursor at the end (R61). -/
theorem readUnit_cases (n : Nat) (s : State) :
    (s.src.pos + n ≤ s.src.bits.length ∧
      readUnit n s = (some (BitVec.ofNat n (val (s.src.rest.take n))),
        { s with src := { s.src with pos := s.src.pos + n } })) ∨
    (¬ s.src.pos + n ≤ s.src.bits.length ∧
      readUnit n s = (none, { s with src := { s.src with pos := s.src.bits.length } })) := by
  by_cases h : s.src.pos + n ≤ s.src.bits.length
  · exact .inl ⟨h, by simp [readUnit, read_some h]⟩
  · exact .inr ⟨h, by simp [readUnit, read_eos h]⟩

theorem readUnit_some {n : Nat} {s : State} (h : s.src.pos + n ≤ s.src.bits.length) :
    readUnit n s = (some (BitVec.ofNat n (val (s.src.rest.take n))),
      { s with src := { s.src with pos := s.src.pos + n } }) := by
  simp [readUnit, read_some h]

theorem readUnit_eos {n : Nat} {s : State} (h : ¬ s.src.pos + n ≤ s.src.bits.length) :
    readUnit n s = (none, { s with src := { s.src with pos := s.src.bits.length } }) := by
  simp [readUnit, read_eos h]

/-- A unit that was written as `bitsN(v)` is read as `v` (R61, R66). -/
theorem readUnit_bitsOf {n : Nat} (v : BitVec n) {s : State} {tail : Bits}
    (h : s.src.rest = bitsOf n v.toNat ++ tail) (hp : s.src.pos ≤ s.src.bits.length) :
    readUnit n s = (some v, { s with src := { s.src with pos := s.src.pos + n } }) := by
  have hl := congrArg List.length h
  rw [Source.rest, List.length_drop, List.length_append, length_bitsOf] at hl
  rw [readUnit_some (by omega), h]
  have : (bitsOf n v.toNat ++ tail).take n = bitsOf n v.toNat := by
    rw [List.take_append_of_le_length (by simp), List.take_of_length_le (by simp)]
  rw [this, ofNat_val_bitsOf]

/-- The bits left after `n` bits were read. -/
theorem rest_advance (s : Source) (n : Nat) : { s with pos := s.pos + n : Source }.rest = s.rest.drop n := by
  simp [Source.rest, List.drop_drop]

@[simp] theorem left_eq_length_rest (s : Source) : s.rest.length = s.left := by
  simp [Source.rest, Source.left]

theorem write_open {k : Sink} (n v : Nat) (h : k.finished = false) :
    k.write n v = some { k with bits := k.bits ++ bitsOf n v } := by
  simp [Sink.write, h]

theorem write_finished {k : Sink} (n v : Nat) (h : k.finished = true) : k.write n v = none := by
  simp [Sink.write, h]

theorem writeUnit_open {s : State} (n v : Nat) (h : s.snk.finished = false) :
    writeUnit n v s = some { s with snk := { s.snk with bits := s.snk.bits ++ bitsOf n v } } := by
  simp [writeUnit, write_open n v h]

theorem writeUnit_finished {s : State} (n v : Nat) (h : s.snk.finished = true) : writeUnit n v s = none := by
  simp [writeUnit, write_finished n v h]

theorem length_padToByte (bits : Bits) : (padToByte bits).length % 8 = 0 := by
  simp only [padToByte, List.length_append, List.length_replicate]
  omega

theorem padToByte_of_whole {bits : Bits} (h : bits.length % 8 = 0) : padToByte bits = bits := by
  simp [padToByte, h]

/-- `finish()` leaves a finished sink of what was written and fewer than eight pad bits (R65). -/
theorem finish_open {k : Sink} (h : k.finished = false) :
    k.finish = { bits := padToByte k.bits, finished := true } := by
  simp [Sink.finish, h]

theorem finish_finished {k : Sink} (h : k.finished = true) : k.finish = k := by
  simp [Sink.finish, h]

@[simp] theorem finish_isFinished (k : Sink) : k.finish.finished = true := by
  cases h : k.finished
  · simp [finish_open h]
  · simp [finish_finished h, h]

/-- A second `finish()` does nothing (R65, R70). -/
theorem finish_idem (k : Sink) : k.finish.finish = k.finish := finish_finished (finish_isFinished k)

end Sys2Proof.Laws
end

