-- ==== Sys2Proof/Laws/Errors.lean ====
section
/-! SUPPORT. What the entry actions of an error do, field by field (R247, R248). -/

namespace Sys2Proof.Laws

open Sys2Proof.Machine

/-- Either nothing is spoiled, or the sink's bits become the next free value. -/
theorem spoilOutput_cases (c : Component) (s : State) :
    (spoilOutput c s = s ∧ s.snk.bits = [] ∧ c.writesSink = false) ∨
    (spoilOutput c s = { s with
      snk := { s.snk with
        bits := if s.snk.finished then padToByte (Config.freeBits s.fresh) else Config.freeBits s.fresh }
      fresh := s.fresh + 1 }) := by
  unfold spoilOutput
  split
  · exact .inl ⟨rfl, ‹_›⟩
  · exact .inr rfl

@[simp] theorem spoilOutput_finished (c : Component) (s : State) :
    (spoilOutput c s).snk.finished = s.snk.finished := by
  rcases spoilOutput_cases c s with ⟨h, -⟩ | h <;> simp [h]

/-- A sink that holds nothing keeps holding nothing when the failing line writes no output. -/
theorem spoilOutput_empty {c : Component} {s : State} (h : s.snk.bits = []) (hc : c.writesSink = false) :
    spoilOutput c s = s := by
  simp [spoilOutput, h, hc]

theorem spoilWeights_cases (c : Component) (s : State) :
    (spoilWeights c s = s ∧ c ≠ .cnt ∧ c ≠ .cntLoop) ∨
    (spoilWeights c s = { s with wt := wtFree s.cfg s.fresh, fresh := s.fresh + 1 } ∧ (c = .cnt ∨ c = .cntLoop)) := by
  unfold spoilWeights
  split
  · exact .inr ⟨rfl, ‹_›⟩
  · exact .inl ⟨rfl, by simp_all⟩

@[simp] theorem spoilOutput_wt (c : Component) (s : State) : (spoilOutput c s).wt = s.wt := by
  rcases spoilOutput_cases c s with ⟨h, -⟩ | h <;> rw [h]
@[simp] theorem spoilOutput_tree (c : Component) (s : State) : (spoilOutput c s).tree = s.tree := by
  rcases spoilOutput_cases c s with ⟨h, -⟩ | h <;> rw [h]
@[simp] theorem spoilOutput_ct (c : Component) (s : State) : (spoilOutput c s).ct = s.ct := by
  rcases spoilOutput_cases c s with ⟨h, -⟩ | h <;> rw [h]
@[simp] theorem spoilOutput_ctV (c : Component) (s : State) : (spoilOutput c s).ctV = s.ctV := by
  rcases spoilOutput_cases c s with ⟨h, -⟩ | h <;> rw [h]
@[simp] theorem spoilOutput_dstate (c : Component) (s : State) : (spoilOutput c s).dstate = s.dstate := by
  rcases spoilOutput_cases c s with ⟨h, -⟩ | h <;> rw [h]
@[simp] theorem spoilOutput_cur (c : Component) (s : State) : (spoilOutput c s).cur = s.cur := by
  rcases spoilOutput_cases c s with ⟨h, -⟩ | h <;> rw [h]
@[simp] theorem spoilOutput_err (c : Component) (s : State) : (spoilOutput c s).err = s.err := by
  rcases spoilOutput_cases c s with ⟨h, -⟩ | h <;> rw [h]
@[simp] theorem spoilOutput_busy (c : Component) (s : State) : (spoilOutput c s).busy = s.busy := by
  rcases spoilOutput_cases c s with ⟨h, -⟩ | h <;> rw [h]
@[simp] theorem spoilOutput_done (c : Component) (s : State) : (spoilOutput c s).done = s.done := by
  rcases spoilOutput_cases c s with ⟨h, -⟩ | h <;> rw [h]
@[simp] theorem spoilOutput_cmd (c : Component) (s : State) : (spoilOutput c s).cmd = s.cmd := by
  rcases spoilOutput_cases c s with ⟨h, -⟩ | h <;> rw [h]
@[simp] theorem spoilOutput_src (c : Component) (s : State) : (spoilOutput c s).src = s.src := by
  rcases spoilOutput_cases c s with ⟨h, -⟩ | h <;> rw [h]
@[simp] theorem spoilOutput_pq (c : Component) (s : State) : (spoilOutput c s).pq = s.pq := by
  rcases spoilOutput_cases c s with ⟨h, -⟩ | h <;> rw [h]
@[simp] theorem spoilOutput_stack (c : Component) (s : State) : (spoilOutput c s).stack = s.stack := by
  rcases spoilOutput_cases c s with ⟨h, -⟩ | h <;> rw [h]
@[simp] theorem spoilOutput_nodes (c : Component) (s : State) : (spoilOutput c s).nodes = s.nodes := by
  rcases spoilOutput_cases c s with ⟨h, -⟩ | h <;> rw [h]
@[simp] theorem spoilOutput_seq (c : Component) (s : State) : (spoilOutput c s).seq = s.seq := by
  rcases spoilOutput_cases c s with ⟨h, -⟩ | h <;> rw [h]
@[simp] theorem spoilOutput_cfg (c : Component) (s : State) : (spoilOutput c s).cfg = s.cfg := by
  rcases spoilOutput_cases c s with ⟨h, -⟩ | h <;> rw [h]
@[simp] theorem spoilOutput_host (c : Component) (s : State) : (spoilOutput c s).host = s.host := by
  rcases spoilOutput_cases c s with ⟨h, -⟩ | h <;> rw [h]
@[simp] theorem spoilOutput_hostRead (c : Component) (s : State) : (spoilOutput c s).hostRead = s.hostRead := by
  rcases spoilOutput_cases c s with ⟨h, -⟩ | h <;> rw [h]

@[simp] theorem spoilWeights_tree (c : Component) (s : State) : (spoilWeights c s).tree = s.tree := by
  rcases spoilWeights_cases c s with ⟨h, -⟩ | ⟨h, -⟩ <;> rw [h]
@[simp] theorem spoilWeights_ct (c : Component) (s : State) : (spoilWeights c s).ct = s.ct := by
  rcases spoilWeights_cases c s with ⟨h, -⟩ | ⟨h, -⟩ <;> rw [h]
@[simp] theorem spoilWeights_ctV (c : Component) (s : State) : (spoilWeights c s).ctV = s.ctV := by
  rcases spoilWeights_cases c s with ⟨h, -⟩ | ⟨h, -⟩ <;> rw [h]
@[simp] theorem spoilWeights_dstate (c : Component) (s : State) : (spoilWeights c s).dstate = s.dstate := by
  rcases spoilWeights_cases c s with ⟨h, -⟩ | ⟨h, -⟩ <;> rw [h]
@[simp] theorem spoilWeights_cur (c : Component) (s : State) : (spoilWeights c s).cur = s.cur := by
  rcases spoilWeights_cases c s with ⟨h, -⟩ | ⟨h, -⟩ <;> rw [h]
@[simp] theorem spoilWeights_err (c : Component) (s : State) : (spoilWeights c s).err = s.err := by
  rcases spoilWeights_cases c s with ⟨h, -⟩ | ⟨h, -⟩ <;> rw [h]
@[simp] theorem spoilWeights_busy (c : Component) (s : State) : (spoilWeights c s).busy = s.busy := by
  rcases spoilWeights_cases c s with ⟨h, -⟩ | ⟨h, -⟩ <;> rw [h]
@[simp] theorem spoilWeights_done (c : Component) (s : State) : (spoilWeights c s).done = s.done := by
  rcases spoilWeights_cases c s with ⟨h, -⟩ | ⟨h, -⟩ <;> rw [h]
@[simp] theorem spoilWeights_cmd (c : Component) (s : State) : (spoilWeights c s).cmd = s.cmd := by
  rcases spoilWeights_cases c s with ⟨h, -⟩ | ⟨h, -⟩ <;> rw [h]
@[simp] theorem spoilWeights_src (c : Component) (s : State) : (spoilWeights c s).src = s.src := by
  rcases spoilWeights_cases c s with ⟨h, -⟩ | ⟨h, -⟩ <;> rw [h]
@[simp] theorem spoilWeights_snk (c : Component) (s : State) : (spoilWeights c s).snk = s.snk := by
  rcases spoilWeights_cases c s with ⟨h, -⟩ | ⟨h, -⟩ <;> rw [h]
@[simp] theorem spoilWeights_pq (c : Component) (s : State) : (spoilWeights c s).pq = s.pq := by
  rcases spoilWeights_cases c s with ⟨h, -⟩ | ⟨h, -⟩ <;> rw [h]
@[simp] theorem spoilWeights_stack (c : Component) (s : State) : (spoilWeights c s).stack = s.stack := by
  rcases spoilWeights_cases c s with ⟨h, -⟩ | ⟨h, -⟩ <;> rw [h]
@[simp] theorem spoilWeights_nodes (c : Component) (s : State) : (spoilWeights c s).nodes = s.nodes := by
  rcases spoilWeights_cases c s with ⟨h, -⟩ | ⟨h, -⟩ <;> rw [h]
@[simp] theorem spoilWeights_seq (c : Component) (s : State) : (spoilWeights c s).seq = s.seq := by
  rcases spoilWeights_cases c s with ⟨h, -⟩ | ⟨h, -⟩ <;> rw [h]
@[simp] theorem spoilWeights_cfg (c : Component) (s : State) : (spoilWeights c s).cfg = s.cfg := by
  rcases spoilWeights_cases c s with ⟨h, -⟩ | ⟨h, -⟩ <;> rw [h]
@[simp] theorem spoilWeights_host (c : Component) (s : State) : (spoilWeights c s).host = s.host := by
  rcases spoilWeights_cases c s with ⟨h, -⟩ | ⟨h, -⟩ <;> rw [h]
@[simp] theorem spoilWeights_hostRead (c : Component) (s : State) : (spoilWeights c s).hostRead = s.hostRead := by
  rcases spoilWeights_cases c s with ⟨h, -⟩ | ⟨h, -⟩ <;> rw [h]

@[simp] theorem raise_tree (c : Component) (k : ErrKind) (s : State) :
    (raise c k s).tree = s.tree := by
  rw [raise, spoilOutput_tree, spoilWeights_tree]; rfl
@[simp] theorem raise_ct (c : Component) (k : ErrKind) (s : State) :
    (raise c k s).ct = s.ct := by
  rw [raise, spoilOutput_ct, spoilWeights_ct]; rfl
@[simp] theorem raise_ctV (c : Component) (k : ErrKind) (s : State) :
    (raise c k s).ctV = s.ctV := by
  rw [raise, spoilOutput_ctV, spoilWeights_ctV]; rfl
@[simp] theorem raise_dstate (c : Component) (k : ErrKind) (s : State) :
    (raise c k s).dstate = if c = .dec ∨ c = .decLoop then .error else s.dstate := by
  rw [raise, spoilOutput_dstate, spoilWeights_dstate]; rfl
@[simp] theorem raise_cur (c : Component) (k : ErrKind) (s : State) :
    (raise c k s).cur = none := by
  rw [raise, spoilOutput_cur, spoilWeights_cur]; rfl
@[simp] theorem raise_err (c : Component) (k : ErrKind) (s : State) :
    (raise c k s).err = k := by
  rw [raise, spoilOutput_err, spoilWeights_err]; rfl
@[simp] theorem raise_busy (c : Component) (k : ErrKind) (s : State) :
    (raise c k s).busy = s.busy := by
  rw [raise, spoilOutput_busy, spoilWeights_busy]; rfl
@[simp] theorem raise_done (c : Component) (k : ErrKind) (s : State) :
    (raise c k s).done = s.done := by
  rw [raise, spoilOutput_done, spoilWeights_done]; rfl
@[simp] theorem raise_cmd (c : Component) (k : ErrKind) (s : State) :
    (raise c k s).cmd = s.cmd := by
  rw [raise, spoilOutput_cmd, spoilWeights_cmd]; rfl
@[simp] theorem raise_src (c : Component) (k : ErrKind) (s : State) :
    (raise c k s).src = s.src := by
  rw [raise, spoilOutput_src, spoilWeights_src]; rfl
@[simp] theorem raise_pq (c : Component) (k : ErrKind) (s : State) :
    (raise c k s).pq = [] := by
  rw [raise, spoilOutput_pq, spoilWeights_pq]; rfl
@[simp] theorem raise_stack (c : Component) (k : ErrKind) (s : State) :
    (raise c k s).stack = [] := by
  rw [raise, spoilOutput_stack, spoilWeights_stack]; rfl
@[simp] theorem raise_nodes (c : Component) (k : ErrKind) (s : State) :
    (raise c k s).nodes = 0 := by
  rw [raise, spoilOutput_nodes, spoilWeights_nodes]; rfl
@[simp] theorem raise_seq (c : Component) (k : ErrKind) (s : State) :
    (raise c k s).seq = s.seq := by
  rw [raise, spoilOutput_seq, spoilWeights_seq]; rfl
@[simp] theorem raise_cfg (c : Component) (k : ErrKind) (s : State) :
    (raise c k s).cfg = s.cfg := by
  rw [raise, spoilOutput_cfg, spoilWeights_cfg]; rfl
@[simp] theorem raise_host (c : Component) (k : ErrKind) (s : State) :
    (raise c k s).host = s.host := by
  rw [raise, spoilOutput_host, spoilWeights_host]; rfl
@[simp] theorem raise_hostRead (c : Component) (k : ErrKind) (s : State) :
    (raise c k s).hostRead = s.hostRead := by
  rw [raise, spoilOutput_hostRead, spoilWeights_hostRead]; rfl

@[simp] theorem raise_finished (c : Component) (k : ErrKind) (s : State) :
    (raise c k s).snk.finished = s.snk.finished := by
  rw [raise, spoilOutput_finished, spoilWeights_snk]; rfl

theorem raise_wt {c : Component} (h : c ≠ .cnt) (h' : c ≠ .cntLoop) (k : ErrKind) (s : State) :
    (raise c k s).wt = s.wt := by
  rw [raise, spoilOutput_wt, spoilWeights, if_neg (by simp [h, h'])]; rfl

/-- An Overflow in CNT leaves weights of which nothing is known but that they fit `W_BITS` bits (U2). -/
theorem raise_wt_cntLoop (k : ErrKind) (s : State) : (raise .cntLoop k s).wt = wtFree s.cfg s.fresh := by
  rw [raise, spoilOutput_wt]; rfl

/-- An error in a line that writes no output leaves an empty sink empty (R227, R229). -/
theorem raise_snk_empty {c : Component} {k : ErrKind} {s : State} (h : s.snk.bits = []) (hc : c.writesSink = false) :
    (raise c k s).snk = s.snk := by
  rw [raise, spoilOutput_empty (by simpa [recordError] using h) hc, spoilWeights_snk]; rfl

/-- A finished sink stays a whole number of bytes (R65, R248). -/
theorem raise_whole {c : Component} {k : ErrKind} {s : State}
    (h : s.snk.finished = true → s.snk.bits.length % 8 = 0) :
    (raise c k s).snk.finished = true → (raise c k s).snk.bits.length % 8 = 0 := by
  intro hf
  rw [raise_finished] at hf
  have hs : (spoilWeights c (recordError c k s)).snk = s.snk := by rw [spoilWeights_snk]; rfl
  rw [raise]
  rcases spoilOutput_cases c (spoilWeights c (recordError c k s)) with ⟨e, -⟩ | e
  · rw [e, hs]; exact h hf
  · rw [e, hs]
    simp only [hf, if_true]
    exact length_padToByte _

end Sys2Proof.Laws
end

