-- ==== Sys2Proof/Laws/Loops.lean ====
section
/-! SUPPORT. Laws of loops, and of one turn of each loop: every way a turn can go, once. -/

namespace Sys2Proof.Laws

open Sys2Proof.Machine

/-! ### Loops in general -/

theorem iterate_more {body : State → Progress} {s t : State} (h : body s = .more t) (n : Nat) :
    iterate body (n + 1) s = iterate body n t := by
  rw [iterate, h]

theorem iterate_done {body : State → Progress} {s t : State} (h : body s = .done t) (n : Nat) :
    iterate body (n + 1) s = .done t := by
  rw [iterate, h]

theorem iterate_raised {body : State → Progress} {s t : State} (h : body s = .raised t) (n : Nat) :
    iterate body (n + 1) s = .raised t := by
  rw [iterate, h]

/-- A loop whose turns each lower a measure ends within that many turns. -/
theorem iterate_ends {body : State → Progress} (m : State → Nat) (hm : ∀ s t, body s = .more t → m t < m s) :
    ∀ n s, m s < n → ∀ u, iterate body n s ≠ .more u
  | 0, _, h, _ => absurd h (Nat.not_lt_zero _)
  | n + 1, s, h, u => by
    cases hb : body s with
    | more t => rw [iterate_more hb]; exact iterate_ends m hm n t (by have := hm s t hb; omega) u
    | done t => rw [iterate_done hb]; simp
    | raised t => rw [iterate_raised hb]; simp

/-- Once a loop has ended, more turns change nothing. -/
theorem iterate_mono {body : State → Progress} :
    ∀ {n : Nat} {s : State} {p : Progress}, iterate body n s = p → (∀ u, p ≠ .more u) →
      ∀ k, n ≤ k → iterate body k s = p
  | 0, s, p, h, hp, _, _ => absurd h.symm (hp s)
  | n + 1, s, p, h, hp, 0, hk => absurd hk (by omega)
  | n + 1, s, p, h, hp, k + 1, hk => by
    cases hb : body s with
    | more t =>
      rw [iterate_more hb] at h ⊢
      exact iterate_mono h hp k (by omega)
    | done t => rwa [iterate_done hb] at h ⊢
    | raised t => rwa [iterate_raised hb] at h ⊢

/-- What every turn keeps, the whole loop keeps. `P` is what holds between turns, `Q` and `R` what an end and an error
establish. -/
theorem iterate_keeps {body : State → Progress} {P Q R : State → Prop}
    (hmore : ∀ s t, P s → body s = .more t → P t) (hdone : ∀ s t, P s → body s = .done t → Q t)
    (hraised : ∀ s t, P s → body s = .raised t → R t) :
    ∀ n s, P s → (∀ t, iterate body n s = .done t → Q t) ∧ (∀ t, iterate body n s = .raised t → R t)
  | 0, s, _ => ⟨fun t h => (by cases h), fun t h => (by cases h)⟩
  | n + 1, s, hP => by
    cases hb : body s with
    | more u =>
      rw [iterate_more hb]
      exact iterate_keeps hmore hdone hraised n u (hmore s u hP hb)
    | done u =>
      rw [iterate_done hb]
      exact ⟨fun t h => (by cases h; exact hdone s u hP hb), fun t h => (by cases h)⟩
    | raised u =>
      rw [iterate_raised hb]
      exact ⟨fun t h => (by cases h), fun t h => (by cases h; exact hraised s u hP hb)⟩

/-! ### One turn of each loop -/

/-- `s` with the source's cursor at `p`. -/
abbrev atPos (p : Nat) (s : State) : State := { s with src := { s.src with pos := p } }

/-- A turn of CNT: the input ends; a byte is counted; or its count is full (R121, R122). -/
theorem cntByte_cases (s : State) :
    (¬ s.src.pos + 8 ≤ s.src.bits.length ∧ cntByte s = .done (atPos s.src.bits.length s)) ∨
    (s.src.pos + 8 ≤ s.src.bits.length ∧ ∃ v : Byte, v = BitVec.ofNat 8 (val (s.src.rest.take 8)) ∧
      ((s.wt[v.toNat] = wMax s.cfg ∧ cntByte s = .raised (raise .cntLoop .overflow (atPos (s.src.pos + 8) s))) ∨
       (s.wt[v.toNat] ≠ wMax s.cfg ∧ cntByte s = .more
          { atPos (s.src.pos + 8) s with wt := s.wt.set v.toNat (s.wt[v.toNat] + 1) }))) := by
  rcases readUnit_cases 8 s with ⟨h, hr⟩ | ⟨h, hr⟩
  · refine .inr ⟨h, _, rfl, ?_⟩
    unfold cntByte
    rw [hr]
    dsimp only
    split
    · exact .inl ⟨‹_›, rfl⟩
    · exact .inr ⟨‹_›, rfl⟩
  · exact .inl ⟨h, by unfold cntByte; rw [hr]⟩

/-- A turn of BLD: the queue is empty; one node is left and is the tree; the two least nodes' sum is too large; or they are
joined (R131). -/
theorem bldJoin_cases (s : State) :
    (extractMin s.pq = none ∧ bldJoin s = .done s) ∨
    (∃ a rest, extractMin s.pq = some (a, rest) ∧
      ((extractMin rest = none ∧ bldJoin s = .done { s with tree := some a, pq := [] }) ∨
       (∃ b rest', extractMin rest = some (b, rest') ∧
         ((wMax s.cfg < a.weight + b.weight ∧ bldJoin s = .raised (raise .bldLoop .overflow s)) ∨
          (a.weight + b.weight ≤ wMax s.cfg ∧
            bldJoin s = .more { s with pq := .node (a.weight + b.weight) a b :: rest' }))))) := by
  unfold bldJoin
  cases h1 : extractMin s.pq with
  | none => exact .inl ⟨rfl, rfl⟩
  | some p =>
    obtain ⟨a, rest⟩ := p
    refine .inr ⟨a, rest, rfl, ?_⟩
    cases h2 : extractMin rest with
    | none => exact .inl ⟨rfl, by dsimp only; rw [h2]⟩
    | some q =>
      obtain ⟨b, rest'⟩ := q
      refine .inr ⟨b, rest', rfl, ?_⟩
      dsimp only
      rw [h2]
      dsimp only
      split
      · exact .inl ⟨by omega, rfl⟩
      · exact .inr ⟨by omega, rfl⟩

/-- Fetching a header token: the source ends at the tag; the node is one too many; an internal node; the source ends in the
symbol field; or a leaf (R165, R251). -/
theorem fetchToken_cases (s : State) :
    (¬ s.src.pos + 1 ≤ s.src.bits.length ∧
      fetchToken s = .error (raise .header .corruptHeader (atPos s.src.bits.length s))) ∨
    (s.src.pos + 1 ≤ s.src.bits.length ∧
      ((nodeCap < s.nodes + 1 ∧ fetchToken s = .error (raise .header .overflow (atPos (s.src.pos + 1) s))) ∨
       (s.nodes + 1 ≤ nodeCap ∧
         ((BitVec.ofNat 1 (val (s.src.rest.take 1)) = 0#1 ∧
            fetchToken s = .ok (.hdrI, { atPos (s.src.pos + 1) s with nodes := s.nodes + 1 })) ∨
          (BitVec.ofNat 1 (val (s.src.rest.take 1)) ≠ 0#1 ∧
            ((¬ s.src.pos + 1 + 9 ≤ s.src.bits.length ∧ fetchToken s = .error
                (raise .header .corruptHeader { atPos s.src.bits.length s with nodes := s.nodes + 1 })) ∨
             (s.src.pos + 1 + 9 ≤ s.src.bits.length ∧ fetchToken s =
                .ok (.hdrL (BitVec.ofNat 9 (val ((s.src.rest.drop 1).take 9))),
                  { atPos (s.src.pos + 1 + 9) s with nodes := s.nodes + 1 })))))))) := by
  rcases readUnit_cases 1 s with ⟨h, hr⟩ | ⟨h, hr⟩
  · refine .inr ⟨h, ?_⟩
    unfold fetchToken
    rw [hr]
    dsimp only
    split
    · exact .inl ⟨by omega, rfl⟩
    · refine .inr ⟨by omega, ?_⟩
      split
      · exact .inl ⟨‹_›, rfl⟩
      · refine .inr ⟨‹_›, ?_⟩
        rcases readUnit_cases 9 { atPos (s.src.pos + 1) s with nodes := s.nodes + 1 } with ⟨h9, hr9⟩ | ⟨h9, hr9⟩
        · refine .inr ⟨h9, ?_⟩
          rw [hr9]
          simp [Source.rest, List.drop_drop]
        · refine .inl ⟨h9, ?_⟩
          rw [hr9]
  · exact .inl ⟨h, by unfold fetchToken; rw [hr]⟩

/-- A completed subtree leaves everything but `TREE`, the stack and the node count alone, and is never an error. -/
theorem completeSubtree_cases (t : Tree) (k : List Frame) (s : State) :
    (∃ u, completeSubtree t k s = .done { s with tree := some u, stack := [], nodes := 0 }) ∨
    (∃ k', completeSubtree t k s = .more { s with stack := k' }) := by
  induction k generalizing t with
  | nil => exact .inl ⟨t, rfl⟩
  | cons f k ih =>
    cases f with
    | left => exact .inr ⟨_, rfl⟩
    | right l => exact ih (.node 0 l t)

/-- A leaf token: its field is no symbol, or its leaf is a completed subtree (R168). -/
theorem tokenLeaf_cases (f : BitVec 9) (s : State) :
    (256 < f.toNat ∧ tokenLeaf f s = .raised (raise .header .corruptHeader s)) ∨
    (∃ h : f.toNat < 257, tokenLeaf f s = completeSubtree (.leaf ⟨f.toNat, h⟩ 0) s.stack s) := by
  by_cases h : f.toNat < 257
  · exact .inr ⟨h, by simp [tokenLeaf, h]⟩
  · exact .inl ⟨by omega, by simp [tokenLeaf, h]⟩

/-- The digits of a code are appended to an open sink (R181, R185 (e)). -/
theorem putCode_open : ∀ (code : Bits) (s : State), s.snk.finished = false →
    putCode code s = some { s with snk := { s.snk with bits := s.snk.bits ++ code } }
  | [], s, _ => by simp [putCode]
  | b :: bs, s, h => by
    have hb : bitsOf 1 b.toNat = [b] := by cases b <;> rfl
    rw [putCode, writeUnit_open 1 _ h, hb]
    dsimp only
    rw [putCode_open bs _ (by exact h)]
    simp

theorem putCode_finished {b : Bool} {bs : Bits} {s : State} (h : s.snk.finished = true) :
    putCode (b :: bs) s = none := by
  rw [putCode, writeUnit_finished 1 _ h]

/-- The header appended to an open sink is `ser` of the tree (R161). -/
theorem emit_open (t : Tree) : ∀ s : State, s.snk.finished = false →
    emit t s = some { s with snk := { s.snk with bits := s.snk.bits ++ t.ser } } := by
  induction t with
  | leaf sym w =>
    intro s h
    have : bitsOf 1 1 = [true] := rfl
    rw [emit, writeUnit_open 1 1 h, this]
    dsimp only
    rw [writeUnit_open 9 _ (by exact h)]
    simp [Tree.ser]
  | node w l r ihl ihr =>
    intro s h
    have : bitsOf 1 0 = [false] := rfl
    rw [emit, writeUnit_open 1 0 h, this]
    dsimp only
    rw [ihl _ (by exact h)]
    dsimp only
    rw [ihr _ (by exact h)]
    simp [Tree.ser]

theorem emit_finished (t : Tree) {s : State} (h : s.snk.finished = true) : emit t s = none := by
  cases t with
  | leaf sym w => rw [emit, writeUnit_finished 1 1 h]
  | node w l r => rw [emit, writeUnit_finished 1 0 h]

/-- A symbol put by ENC: it has no code; the sink refuses its code; or its code is appended (R181, R183). -/
theorem putSymbol_cases (sym : Symbol) (s : State) :
    (ctGet sym s.ct = none ∧ putSymbol sym s = .raised (raise .encLoop .badCode s)) ∨
    (∃ code, ctGet sym s.ct = some code ∧
      ((s.snk.finished = true ∧ code ≠ [] ∧ putSymbol sym s = .raised (raise .encLoop .badCommand s)) ∨
       ((s.snk.finished = false ∨ code = []) ∧
          putSymbol sym s = .more { s with snk := { s.snk with bits := s.snk.bits ++ code } }))) := by
  unfold putSymbol
  cases h : ctGet sym s.ct with
  | none => exact .inl ⟨rfl, rfl⟩
  | some code =>
    refine .inr ⟨code, rfl, ?_⟩
    dsimp only
    rcases Bool.eq_false_or_eq_true s.snk.finished with hf | hf
    · cases code with
      | nil => exact .inr ⟨.inr rfl, by simp [putCode]⟩
      | cons b bs => rw [putCode_finished hf]; exact .inl ⟨hf, by simp, rfl⟩
    · rw [putCode_open code s hf]; exact .inr ⟨.inl hf, rfl⟩

/-- A turn of ENC puts the sentinel at the end of the input, or the byte read (R181). -/
theorem encByte_cases (s : State) :
    (¬ s.src.pos + 8 ≤ s.src.bits.length ∧
      ((∃ u, putSymbol eofSym (atPos s.src.bits.length s) = .more u ∧ encByte s = .done u) ∨
       (∃ u, putSymbol eofSym (atPos s.src.bits.length s) = .raised u ∧ encByte s = .raised u))) ∨
    (s.src.pos + 8 ≤ s.src.bits.length ∧
      encByte s = putSymbol (BitVec.ofNat 8 (val (s.src.rest.take 8))).toFin.castSucc (atPos (s.src.pos + 8) s)) := by
  rcases readUnit_cases 8 s with ⟨h, hr⟩ | ⟨h, hr⟩
  · refine .inr ⟨h, ?_⟩
    unfold encByte
    rw [hr]
  · refine .inl ⟨h, ?_⟩
    unfold encByte
    rw [hr]
    dsimp only
    rcases putSymbol_cases eofSym (atPos s.src.bits.length s) with ⟨-, hp⟩ | ⟨c, -, ⟨-, -, hp⟩ | ⟨-, hp⟩⟩
    · rw [hp]; exact .inr ⟨_, rfl, rfl⟩
    · rw [hp]; exact .inr ⟨_, rfl, rfl⟩
    · rw [hp]; exact .inl ⟨_, rfl, rfl⟩

/-- Landing on a node: the sentinel ends the walk; the sink refuses a byte; a byte is written; or the walk goes on (R195). -/
theorem landOn_cases (root n : Tree) (s : State) :
    (∃ w, n = .leaf eofSym w ∧ landOn root n s = .done { s with dstate := .done, cur := none }) ∨
    (∃ sym w, n = .leaf sym w ∧ sym ≠ eofSym ∧
      ((s.snk.finished = true ∧
          landOn root n s = .raised (raise .decLoop .badCommand { s with dstate := .emitted, cur := some n })) ∨
       (s.snk.finished = false ∧ landOn root n s = .more
          { s with
            dstate := .walking, cur := some root
            snk := { s.snk with bits := s.snk.bits ++ bitsOf 8 sym.val } }))) ∨
    (∃ w l r, n = .node w l r ∧ landOn root n s = .more { s with cur := some n }) := by
  cases n with
  | leaf sym w =>
    by_cases h : sym = eofSym
    · exact .inl ⟨w, by rw [h], by simp [landOn, h]⟩
    · refine .inr (.inl ⟨sym, w, rfl, h, ?_⟩)
      rcases Bool.eq_false_or_eq_true s.snk.finished with hf | hf
      · refine .inl ⟨hf, ?_⟩
        simp only [landOn, h, if_false]
        rw [writeUnit_finished 8 _ (by exact hf)]
      · refine .inr ⟨hf, ?_⟩
        simp only [landOn, h, if_false]
        rw [writeUnit_open 8 _ (by exact hf)]
  | node w l r => exact .inr (.inr ⟨w, l, r, rfl, rfl⟩)

/-- A turn of DEC with a tree: the source ends; a root that is a leaf meets a 1; or the walk lands on a node (R191). -/
theorem decBit_cases {s : State} {root : Tree} (ht : s.tree = some root) :
    (¬ s.src.pos + 1 ≤ s.src.bits.length ∧
      decBit s = .raised (raise .decLoop .truncatedBody (atPos s.src.bits.length s))) ∨
    (s.src.pos + 1 ≤ s.src.bits.length ∧ ∃ b : BitVec 1, b = BitVec.ofNat 1 (val (s.src.rest.take 1)) ∧
      ((∃ sym w, root = .leaf sym w ∧
          ((b = 1#1 ∧ decBit s = .raised (raise .decLoop .badCode (atPos (s.src.pos + 1) s))) ∨
           (b ≠ 1#1 ∧ decBit s = landOn root root (atPos (s.src.pos + 1) s)))) ∨
       (∃ w l r, root = .node w l r ∧
          decBit s = landOn root ((s.cur.getD root).child (b == 1#1)) (atPos (s.src.pos + 1) s)))) := by
  rcases readUnit_cases 1 s with ⟨h, hr⟩ | ⟨h, hr⟩
  · refine .inr ⟨h, _, rfl, ?_⟩
    unfold decBit
    rw [ht, hr]
    dsimp only
    cases root with
    | leaf sym w =>
      refine .inl ⟨sym, w, rfl, ?_⟩
      dsimp only
      split
      · exact .inl ⟨‹_›, rfl⟩
      · exact .inr ⟨‹_›, rfl⟩
    | node w l r => exact .inr ⟨w, l, r, rfl, rfl⟩
  · refine .inl ⟨h, ?_⟩
    unfold decBit
    rw [ht, hr]

end Sys2Proof.Laws
end

