-- ==== Sys2Proof/Laws/Trees.lean ====
section
/-! SUPPORT. Laws of trees and of the tree builder's queue. -/

namespace Sys2Proof.Laws

open Sys2Proof.Machine

theorem extractMin_eq_none {ts : List Tree} (h : extractMin ts = none) : ts = [] := by
  cases ts with
  | nil => rfl
  | cons t ts =>
    rw [extractMin] at h
    split at h
    · simp at h
    · split at h <;> simp at h

/-- The node taken out and the nodes left are the nodes that were there (R134). -/
theorem extractMin_perm {ts rest : List Tree} {m : Tree} (h : extractMin ts = some (m, rest)) : (m :: rest).Perm ts := by
  induction ts generalizing m rest with
  | nil => simp [extractMin] at h
  | cons t ts ih =>
    rw [extractMin] at h
    split at h
    · next hn => cases h; rw [extractMin_eq_none hn]
    · next m' rest' hs =>
      split at h <;> cases h
      · exact (List.Perm.swap t m rest').trans ((ih hs).cons t)
      · exact (ih hs).cons _

theorem extractMin_length {ts rest : List Tree} {m : Tree} (h : extractMin ts = some (m, rest)) :
    ts.length = rest.length + 1 := by
  simpa using (extractMin_perm h).length_eq.symm

theorem less_trans {x y z : Tree} (h : less x y = true) (h' : less y z = true) : less x z = true := by
  simp only [less, Bool.or_eq_true, Bool.and_eq_true, decide_eq_true_eq] at *
  omega

theorem less_irrefl (x : Tree) : less x x = false := by simp [less]

/-- Two nodes of different keys are ordered one way or the other (R139). -/
theorem less_total {x y : Tree} (h : x.key ≠ y.key) : less x y = true ∨ less y x = true := by
  simp only [less, Bool.or_eq_true, Bool.and_eq_true, decide_eq_true_eq]
  omega

theorem less_asymm {x y : Tree} (h : less x y = true) : less y x = false := by
  simp only [less, Bool.or_eq_true, Bool.and_eq_true, decide_eq_true_eq, Bool.or_eq_false_iff,
    Bool.and_eq_false_iff, decide_eq_false_iff_not] at *
  omega

/-- The node taken out is never above a node that is left (R131). -/
theorem extractMin_least {ts rest : List Tree} {m : Tree} (h : extractMin ts = some (m, rest)) :
    ∀ x ∈ rest, less x m = false := by
  induction ts generalizing m rest with
  | nil => simp [extractMin] at h
  | cons t ts ih =>
    rw [extractMin] at h
    split at h
    · cases h; simp
    · next m' rest' hs =>
      split at h <;> rename_i hl <;> cases h <;> intro x hx <;> rcases List.mem_cons.mp hx with rfl | hx
      · exact less_asymm hl
      · exact ih hs x hx
      · simpa using hl
      · have h1 := ih hs x hx
        have h2 : less m' t = false := by simpa using hl
        simp only [less, Bool.or_eq_false_iff, Bool.and_eq_false_iff, decide_eq_false_iff_not] at *
        omega

theorem queueSize_perm {a b : List Tree} (h : a.Perm b) : queueSize a = queueSize b := by
  induction h with
  | nil => rfl
  | cons x _ ih => simp [queueSize, ih]
  | swap x y l => simp [queueSize]; omega
  | trans _ _ ih ih' => exact ih.trans ih'

theorem size_pos (t : Tree) : 1 ≤ t.size := by cases t <;> simp [Tree.size]

/-- A tree with `L` leaves has `2L - 1` nodes (R27). -/
theorem size_eq_leaves (t : Tree) : t.size + 1 = 2 * t.leaves.length := by
  induction t with
  | leaf s w => rfl
  | node w l r ihl ihr => simp only [Tree.size, Tree.leaves, List.length_append]; omega

/-- A tree's longest path has half as many edges as the tree has nodes, at most (R27). -/
theorem two_depth_lt_size (t : Tree) : 2 * t.depth + 1 ≤ t.size := by
  induction t with
  | leaf s w => simp [Tree.depth, Tree.size]
  | node w l r ihl ihr =>
    have := size_pos l
    have := size_pos r
    simp only [Tree.depth, Tree.size]
    omega

theorem ser_unweighted (t : Tree) : t.unweighted.ser = t.ser := by
  induction t with
  | leaf s w => rfl
  | node w l r ihl ihr => simp [Tree.unweighted, Tree.ser, ihl, ihr]

theorem size_unweighted (t : Tree) : t.unweighted.size = t.size := by
  induction t with
  | leaf s w => rfl
  | node w l r ihl ihr => simp [Tree.unweighted, Tree.size, ihl, ihr]

@[simp] theorem queueSymbols_nil : queueSymbols [] = [] := rfl

@[simp] theorem queueSymbols_cons (t : Tree) (q : List Tree) : queueSymbols (t :: q) = t.symbols ++ queueSymbols q := rfl

@[simp] theorem symbols_leaf (s : Symbol) (w : Nat) : Tree.symbols (.leaf s w) = [s] := rfl

@[simp] theorem symbols_node (w : Nat) (l r : Tree) : Tree.symbols (.node w l r) = l.symbols ++ r.symbols := by
  simp [Tree.symbols, Tree.leaves]

/-- The queue's symbols do not depend on the order of its nodes. -/
theorem queueSymbols_perm {a b : List Tree} (h : a.Perm b) : (queueSymbols a).Perm (queueSymbols b) :=
  List.Perm.flatMap_right _ h

/-- A node's key is the symbol of one of its leaves (R26). -/
theorem key_mem_symbols (t : Tree) : ∃ s ∈ t.symbols, s.val = t.key := by
  induction t with
  | leaf s w => exact ⟨s, by simp, rfl⟩
  | node w l r ihl ihr =>
    obtain ⟨a, ha, hak⟩ := ihl
    obtain ⟨b, hb, hbk⟩ := ihr
    rcases Nat.le_total l.key r.key with h | h
    · exact ⟨a, by simp [ha], by rw [hak, Tree.key, Nat.min_eq_left h]⟩
    · exact ⟨b, by simp [hb], by rw [hbk, Tree.key, Nat.min_eq_right h]⟩

end Sys2Proof.Laws
end

