-- ==== Sys2Proof/Laws/Termination.lean ====
section
/-! SUPPORT. Every loop ends within its bound (R136, R169, R287), so the fault `stuck` is never raised. -/

namespace Sys2Proof.Laws

open Sys2Proof.Machine

theorem cntLoop_ends (s u : State) : cntLoop s ≠ .more u := by
  refine iterate_ends (fun t => t.src.left) ?_ _ s (Nat.lt_succ_self _) u
  intro s t h
  rcases cntByte_cases s with ⟨-, e⟩ | ⟨hp, v, -, ⟨-, e⟩ | ⟨-, e⟩⟩ <;> rw [e] at h <;> cases h
  simp only [Source.left]
  omega

theorem cntRule_ends (s u : State) : cntRule s ≠ .more u := cntLoop_ends _ u

theorem bldLoop_ends (s u : State) : bldLoop s ≠ .more u := by
  refine iterate_ends (fun t => t.pq.length) ?_ _ s (Nat.lt_succ_self _) u
  intro s t h
  rcases bldJoin_cases s with ⟨-, e⟩ | ⟨a, rest, h1, ⟨-, e⟩ | ⟨b, rest', h2, ⟨-, e⟩ | ⟨-, e⟩⟩⟩ <;> rw [e] at h <;> cases h
  have := extractMin_length h1
  have := extractMin_length h2
  simp only [List.length_cons]
  omega

theorem bldRule_ends (s u : State) : bldRule s ≠ .more u := bldLoop_ends _ u

/-- A turn of the header reader that goes on has counted a node and stays within the capacity (R169). -/
theorem headerToken_more {s t : State} (h : headerToken s = .more t) : t.nodes = s.nodes + 1 ∧ t.nodes ≤ nodeCap := by
  unfold headerToken at h
  rcases fetchToken_cases s with ⟨-, e⟩ | ⟨-, ⟨-, e⟩ | ⟨hn, ⟨-, e⟩ | ⟨-, ⟨-, e⟩ | ⟨-, e⟩⟩⟩⟩ <;> rw [e] at h
  · cases h
  · cases h
  · cases h; exact ⟨rfl, hn⟩
  · cases h
  · dsimp only [tokenEffect] at h
    rcases tokenLeaf_cases (BitVec.ofNat 9 (val ((s.src.rest.drop 1).take 9)))
        { atPos (s.src.pos + 1 + 9) s with nodes := s.nodes + 1 } with ⟨-, e'⟩ | ⟨hlt, e'⟩ <;> rw [e'] at h
    · cases h
    · rcases completeSubtree_cases (.leaf ⟨_, hlt⟩ 0) s.stack
          { atPos (s.src.pos + 1 + 9) s with nodes := s.nodes + 1 } with ⟨u, e''⟩ | ⟨k, e''⟩ <;>
        rw [e''] at h <;> cases h
      exact ⟨rfl, hn⟩

theorem headerLoop_ends (s u : State) : headerLoop s ≠ .more u := by
  refine iterate_ends (fun t => nodeCap - t.nodes) ?_ _ s (by omega) u
  intro s t h
  have := headerToken_more h
  omega

theorem rdhRule_ends (s u : State) : rdhRule s ≠ .more u := headerLoop_ends _ u

theorem encLoop_ends (s u : State) : encLoop s ≠ .more u := by
  refine iterate_ends (fun t => t.src.left) ?_ _ s (Nat.lt_succ_self _) u
  intro s t h
  rcases encByte_cases s with ⟨-, ⟨w, -, e⟩ | ⟨w, -, e⟩⟩ | ⟨hp, e⟩ <;> rw [e] at h
  · cases h
  · cases h
  · rcases putSymbol_cases _ (atPos (s.src.pos + 8) s) with ⟨-, e'⟩ | ⟨c, -, ⟨-, -, e'⟩ | ⟨-, e'⟩⟩ <;> rw [e'] at h <;> cases h
    simp only [Source.left]
    omega

theorem encRule_ends (s u : State) : encRule s ≠ .more u := by
  unfold encRule
  split
  · exact encLoop_ends s u
  · simp

theorem landOn_more {root n : Tree} {s t : State} (h : landOn root n s = .more t) : t.src = s.src := by
  rcases landOn_cases root n s with ⟨w, -, e⟩ | ⟨sym, w, -, -, ⟨-, e⟩ | ⟨-, e⟩⟩ | ⟨w, l, r, -, e⟩ <;>
    rw [e] at h <;> cases h <;> rfl

theorem decLoop_ends (s u : State) : decLoop s ≠ .more u := by
  refine iterate_ends (fun t => t.src.left) ?_ _ s (Nat.lt_succ_self _) u
  intro s t h
  cases ht : s.tree with
  | none => simp [decBit, ht] at h
  | some root =>
    have key : ∀ n, s.src.pos + 1 ≤ s.src.bits.length → landOn root n (atPos (s.src.pos + 1) s) = .more t →
        t.src.left < s.src.left := by
      intro n hp hl
      rw [landOn_more hl]
      simp only [Source.left]
      omega
    rcases decBit_cases ht with ⟨-, e⟩ | ⟨hp, b, -, ⟨sym, w, -, ⟨-, e⟩ | ⟨-, e⟩⟩ | ⟨w, l, r, -, e⟩⟩ <;> rw [e] at h
    · cases h
    · cases h
    · exact key _ hp h
    · exact key _ hp h

theorem decRule_ends (s u : State) : decRule s ≠ .more u := by
  unfold decRule
  split
  · simp
  · exact decLoop_ends _ u

theorem lineRule_ends (c : Component) (s u : State) : lineRule c s ≠ .more u := by
  cases c with
  | resetCall => simp [lineRule]
  | clr => simp [lineRule, clrRule]
  | illegal => simp [lineRule, illegalRule]
  | cnt => exact cntRule_ends s u
  | cntLoop => exact cntLoop_ends s u
  | bld => exact bldRule_ends s u
  | bldLoop => exact bldLoop_ends s u
  | gen => simp only [lineRule, genRule]; split <;> simp
  | wrm => simp only [lineRule, wrmRule]; split <;> simp
  | wrh => simp only [lineRule, wrhRule]; split <;> (try split) <;> simp
  | enc => exact encRule_ends s u
  | encLoop => exact encLoop_ends s u
  | rdm => simp only [lineRule, rdmRule]; split <;> (try split) <;> simp
  | rdh => exact rdhRule_ends s u
  | header => exact headerLoop_ends s u
  | dec => exact decRule_ends s u
  | decLoop => exact decLoop_ends s u
  | rwd => simp [lineRule, rwdRule]
  | fin => simp [lineRule, finRule]

theorem runLines_ends (cs : List Component) (s u : State) : runLines cs s ≠ .more u := by
  induction cs generalizing s with
  | nil => simp [runLines]
  | cons c cs ih =>
    rw [runLines]
    split
    · exact ih s
    · cases h : lineRule c s with
      | more t => exact absurd h (lineRule_ends c s t)
      | done t => exact ih t
      | raised t => exact ih t

end Sys2Proof.Laws
end

