-- ==== Sys2Proof/Laws/Frame.lean ====
section
/-! SUPPORT. What a line of the sequencer leaves unchanged, once for all lines and all ways they end (10_state.md R20). -/

namespace Sys2Proof.Laws

open Sys2Proof.Machine

/-- What the line `c` leaves unchanged between its begin in `s` and an end, an error or a turn in `t`. -/
structure LineFrame (c : Component) (s t : State) : Prop where
  wt : c ∉ [Component.resetCall, .clr, .cnt, .cntLoop] → t.wt = s.wt
  tree : c ∉ [Component.resetCall, .clr, .bld, .bldLoop, .rdh, .header] → t.tree = s.tree
  ct : c ∉ [Component.resetCall, .clr, .bld, .rdh, .gen] → t.ct = s.ct ∧ t.ctV = s.ctV
  dstate : c ∉ [Component.resetCall, .clr, .dec, .decLoop] → t.dstate = s.dstate
  srcBits : t.src.bits = s.src.bits
  src : c ∉ [Component.cnt, .cntLoop, .enc, .encLoop, .rdm, .rdh, .header, .dec, .decLoop, .rwd] → t.src = s.src
  finished : c ≠ .fin → t.snk.finished = s.snk.finished
  busy : t.busy = s.busy
  done : t.done = s.done
  cmd : t.cmd = s.cmd
  seq : t.seq = s.seq
  cfg : t.cfg = s.cfg
  host : t.host = s.host
  hostRead : t.hostRead = s.hostRead

theorem LineFrame.refl (c : Component) (s : State) : LineFrame c s s := by
  constructor <;> intros <;> simp

theorem LineFrame.trans {c : Component} {s t u : State} (h : LineFrame c s t) (h' : LineFrame c t u) :
    LineFrame c s u where
  wt hc := (h'.wt hc).trans (h.wt hc)
  tree hc := (h'.tree hc).trans (h.tree hc)
  ct hc := ⟨(h'.ct hc).1.trans (h.ct hc).1, (h'.ct hc).2.trans (h.ct hc).2⟩
  dstate hc := (h'.dstate hc).trans (h.dstate hc)
  srcBits := h'.srcBits.trans h.srcBits
  src hc := (h'.src hc).trans (h.src hc)
  finished hc := (h'.finished hc).trans (h.finished hc)
  busy := h'.busy.trans h.busy
  done := h'.done.trans h.done
  cmd := h'.cmd.trans h.cmd
  seq := h'.seq.trans h.seq
  cfg := h'.cfg.trans h.cfg
  host := h'.host.trans h.host
  hostRead := h'.hostRead.trans h.hostRead

/-- Raising an error in a line keeps what the line keeps (R247, R248). -/
theorem raise_frame (c : Component) (k : ErrKind) (s : State) : LineFrame c s (raise c k s) where
  wt h := raise_wt (by rintro rfl; simp at h) (by rintro rfl; simp at h) k s
  tree _ := raise_tree c k s
  ct _ := ⟨raise_ct c k s, raise_ctV c k s⟩
  dstate h := by rw [raise_dstate, if_neg]; rintro (rfl | rfl) <;> simp at h
  srcBits := by rw [raise_src]
  src _ := raise_src c k s
  finished _ := raise_finished c k s
  busy := raise_busy c k s
  done := raise_done c k s
  cmd := raise_cmd c k s
  seq := raise_seq c k s
  cfg := raise_cfg c k s
  host := raise_host c k s
  hostRead := raise_hostRead c k s

theorem atPos_frame {c : Component}
    (h : c ∈ [Component.cnt, .cntLoop, .enc, .encLoop, .rdm, .rdh, .header, .dec, .decLoop, .rwd]) (p : Nat) (s : State) : LineFrame c s (atPos p s) := by
  constructor <;> intros <;> simp_all

/-- What a line or a turn can answer, with a property of each answer. -/
def Ends (more done raised : State → Prop) : Progress → Prop
  | .more t => more t
  | .done t => done t
  | .raised t => raised t

/-- A frame of every turn is a frame of the loop. -/
theorem iterate_frame {body : State → Progress} {R : State → State → Prop} (hr : ∀ s, R s s)
    (ht : ∀ s t u, R s t → R t u → R s u) (hb : ∀ s, Ends (R s) (R s) (R s) (body s)) :
    ∀ n s, Ends (R s) (R s) (R s) (iterate body n s)
  | 0, s => hr s
  | n + 1, s => by
    have h := hb s
    cases e : body s with
    | more t =>
      rw [iterate_more e]
      rw [e] at h
      have := iterate_frame hr ht hb n t
      cases e' : iterate body n t <;> rw [e'] at this <;> exact ht _ _ _ h this
    | done t => rw [iterate_done e]; rwa [e] at h
    | raised t => rw [iterate_raised e]; rwa [e] at h

theorem cntByte_frame (s : State) :
    Ends (LineFrame .cntLoop s) (LineFrame .cntLoop s) (LineFrame .cntLoop s) (cntByte s) := by
  rcases cntByte_cases s with ⟨-, e⟩ | ⟨-, v, -, ⟨-, e⟩ | ⟨-, e⟩⟩ <;> rw [e] <;>
    (constructor <;> intros <;> simp_all)

theorem bldJoin_frame (s : State) :
    Ends (LineFrame .bldLoop s) (LineFrame .bldLoop s) (LineFrame .bldLoop s) (bldJoin s) := by
  rcases bldJoin_cases s with ⟨-, e⟩ | ⟨a, rest, -, ⟨-, e⟩ | ⟨b, rest', -, ⟨-, e⟩ | ⟨-, e⟩⟩⟩ <;> rw [e] <;>
    (constructor <;> intros <;> simp_all [raise_wt])

theorem completeSubtree_frame (t : Tree) (k : List Frame) (s : State) :
    Ends (LineFrame .header s) (LineFrame .header s) (LineFrame .header s) (completeSubtree t k s) := by
  rcases completeSubtree_cases t k s with ⟨u, e⟩ | ⟨k', e⟩ <;> rw [e] <;>
    (constructor <;> intros <;> simp_all)

theorem tokenEffect_frame (i : Instr) (s : State) :
    Ends (LineFrame .header s) (LineFrame .header s) (LineFrame .header s) (tokenEffect i s) := by
  cases i
  case hdrL f =>
    rcases tokenLeaf_cases f s with ⟨-, e⟩ | ⟨h, e⟩
    · rw [tokenEffect, e]
      constructor <;> intros <;> simp_all [raise_wt]
    · rw [tokenEffect, e]
      exact completeSubtree_frame _ _ _
  case hdrI => constructor <;> intros <;> simp_all
  all_goals exact LineFrame.refl _ _

theorem fetchToken_frame (s : State) :
    (∀ t, fetchToken s = .error t → LineFrame .header s t) ∧
    (∀ i t, fetchToken s = .ok (i, t) → LineFrame .header s t) := by
  have hp : ∀ p n, LineFrame .header s { atPos p s with nodes := n } := fun p n => by
    constructor <;> intros <;> simp_all
  have hq := fun p => atPos_frame (c := .header) (by simp) p s
  rcases fetchToken_cases s with ⟨-, e⟩ | ⟨-, ⟨-, e⟩ | ⟨-, ⟨-, e⟩ | ⟨-, ⟨-, e⟩ | ⟨-, e⟩⟩⟩⟩ <;> rw [e]
  · exact ⟨fun t h => by cases h; exact (hq _).trans (raise_frame _ _ _), fun i t h => by cases h⟩
  · exact ⟨fun t h => by cases h; exact (hq _).trans (raise_frame _ _ _), fun i t h => by cases h⟩
  · exact ⟨fun t h => (by cases h), fun i t h => by cases h; exact hp _ _⟩
  · exact ⟨fun t h => by cases h; exact (hp _ _).trans (raise_frame _ _ _), fun i t h => by cases h⟩
  · exact ⟨fun t h => (by cases h), fun i t h => by cases h; exact hp _ _⟩

theorem headerToken_frame (s : State) :
    Ends (LineFrame .header s) (LineFrame .header s) (LineFrame .header s) (headerToken s) := by
  unfold headerToken
  have h := fetchToken_frame s
  cases e : fetchToken s with
  | error t => exact h.1 t e
  | ok p =>
    have hf := h.2 p.1 p.2 e
    have := tokenEffect_frame p.1 p.2
    dsimp only
    cases e' : tokenEffect p.1 p.2 <;> rw [e'] at this <;> exact hf.trans this

theorem putSymbol_frame (sym : Symbol) (s : State) :
    Ends (LineFrame .encLoop s) (LineFrame .encLoop s) (LineFrame .encLoop s) (putSymbol sym s) := by
  rcases putSymbol_cases sym s with ⟨-, e⟩ | ⟨c, -, ⟨-, -, e⟩ | ⟨-, e⟩⟩ <;> rw [e] <;>
    (constructor <;> intros <;> simp_all [raise_wt])

theorem encByte_frame (s : State) :
    Ends (LineFrame .encLoop s) (LineFrame .encLoop s) (LineFrame .encLoop s) (encByte s) := by
  have hp := fun p => atPos_frame (c := .encLoop) (by simp) p s
  rcases encByte_cases s with ⟨-, ⟨u, h, e⟩ | ⟨u, h, e⟩⟩ | ⟨-, e⟩ <;> rw [e]
  · have := putSymbol_frame eofSym (atPos s.src.bits.length s)
    rw [h] at this
    exact (hp _).trans this
  · have := putSymbol_frame eofSym (atPos s.src.bits.length s)
    rw [h] at this
    exact (hp _).trans this
  · have := putSymbol_frame (BitVec.ofNat 8 (val (s.src.rest.take 8))).toFin.castSucc (atPos (s.src.pos + 8) s)
    cases h : putSymbol (BitVec.ofNat 8 (val (s.src.rest.take 8))).toFin.castSucc (atPos (s.src.pos + 8) s) <;>
      rw [h] at this <;> exact (hp _).trans this

theorem landOn_frame (root n : Tree) (s : State) :
    Ends (LineFrame .decLoop s) (LineFrame .decLoop s) (LineFrame .decLoop s) (landOn root n s) := by
  rcases landOn_cases root n s with ⟨w, -, e⟩ | ⟨sym, w, -, -, ⟨-, e⟩ | ⟨-, e⟩⟩ | ⟨w, l, r, -, e⟩ <;> rw [e] <;>
    (constructor <;> intros <;> simp_all [raise_wt])

theorem decBit_frame (s : State) :
    Ends (LineFrame .decLoop s) (LineFrame .decLoop s) (LineFrame .decLoop s) (decBit s) := by
  cases ht : s.tree with
  | none =>
    rw [decBit, ht]
    constructor <;> intros <;> simp_all [raise_wt]
  | some root =>
    have hp := fun p => atPos_frame (c := .decLoop) (by simp) p s
    have hl : ∀ n p, Ends (LineFrame .decLoop s) (LineFrame .decLoop s) (LineFrame .decLoop s)
        (landOn root n (atPos p s)) := fun n p => by
      have := landOn_frame root n (atPos p s)
      cases h : landOn root n (atPos p s) <;> rw [h] at this <;> exact (hp p).trans this
    rcases decBit_cases ht with ⟨-, e⟩ | ⟨-, b, -, ⟨sym, w, -, ⟨-, e⟩ | ⟨-, e⟩⟩ | ⟨w, l, r, -, e⟩⟩ <;> rw [e]
    · exact (hp _).trans (raise_frame _ _ _)
    · exact (hp _).trans (raise_frame _ _ _)
    · exact hl _ _
    · exact hl _ _

/-- Turning down a command keeps everything but `ERR` (R246). -/
theorem refuseCommand_frame (c : Component) (s : State) : LineFrame c s (refuseCommand s) := by
  constructor <;> intros <;> first | rfl | exact ⟨rfl, rfl⟩

/-- A line that does something first and then what another line does keeps what the line keeps. -/
theorem line_frame {c d : Component} {s t : State} (hs : LineFrame c s t)
    (hd : ∀ u, LineFrame d t u → LineFrame c t u) {p : Progress}
    (hp : Ends (LineFrame d t) (LineFrame d t) (LineFrame d t) p) :
    Ends (LineFrame c s) (LineFrame c s) (LineFrame c s) p := by
  cases p <;> exact hs.trans (hd _ hp)

/-- The frame of a loop inside its command. -/
theorem loop_frame {c : Component} {body : State → Progress}
    (h : ∀ s, Ends (LineFrame c s) (LineFrame c s) (LineFrame c s) (body s)) (n : Nat) (s : State) :
    Ends (LineFrame c s) (LineFrame c s) (LineFrame c s) (iterate body n s) :=
  iterate_frame (LineFrame.refl _) (fun _ _ _ => LineFrame.trans) h n s

theorem cntRule_frame (s : State) :
    Ends (LineFrame .cnt s) (LineFrame .cnt s) (LineFrame .cnt s) (cntRule s) := by
  refine line_frame (d := .cntLoop) (t := cntStart s) ?_ ?_ (loop_frame cntByte_frame _ _)
  · constructor <;> intros <;> simp_all [cntStart]
  · rintro u ⟨⟩; constructor <;> intros <;> simp_all

theorem bldRule_frame (s : State) :
    Ends (LineFrame .bld s) (LineFrame .bld s) (LineFrame .bld s) (bldRule s) := by
  refine line_frame (d := .bldLoop) (t := bldStart s) ?_ ?_ (loop_frame bldJoin_frame _ _)
  · constructor <;> intros <;> simp_all [bldStart, dropTree]
  · rintro u ⟨⟩; constructor <;> intros <;> simp_all

theorem rdhRule_frame (s : State) :
    Ends (LineFrame .rdh s) (LineFrame .rdh s) (LineFrame .rdh s) (rdhRule s) := by
  refine line_frame (d := .header) (t := rdhStart s) ?_ ?_ (loop_frame headerToken_frame _ _)
  · constructor <;> intros <;> simp_all [rdhStart, dropTree]
  · rintro u ⟨⟩; constructor <;> intros <;> simp_all

theorem genRule_frame (s : State) :
    Ends (LineFrame .gen s) (LineFrame .gen s) (LineFrame .gen s) (genRule s) := by
  rw [genRule]
  split
  · exact refuseCommand_frame _ _
  · constructor <;> intros <;> simp_all

theorem wrmRule_frame (s : State) :
    Ends (LineFrame .wrm s) (LineFrame .wrm s) (LineFrame .wrm s) (wrmRule s) := by
  rw [wrmRule]
  rcases Bool.eq_false_or_eq_true s.snk.finished with h | h
  · rw [writeUnit_finished 32 _ h]; exact raise_frame _ _ _
  · rw [writeUnit_open 32 _ h]; constructor <;> intros <;> simp_all

theorem wrhRule_frame (s : State) :
    Ends (LineFrame .wrh s) (LineFrame .wrh s) (LineFrame .wrh s) (wrhRule s) := by
  rw [wrhRule]
  split
  · exact refuseCommand_frame _ _
  · rename_i t _
    rcases Bool.eq_false_or_eq_true s.snk.finished with h | h
    · rw [emit_finished t h]; exact raise_frame _ _ _
    · rw [emit_open t s h]; constructor <;> intros <;> simp_all

theorem encRule_frame (s : State) :
    Ends (LineFrame .enc s) (LineFrame .enc s) (LineFrame .enc s) (encRule s) := by
  rw [encRule]
  split
  · refine line_frame (d := .encLoop) (t := s) (LineFrame.refl _ _) ?_ (loop_frame encByte_frame _ _)
    rintro u ⟨⟩; constructor <;> intros <;> simp_all
  · exact refuseCommand_frame _ _

theorem rdmRule_frame (s : State) :
    Ends (LineFrame .rdm s) (LineFrame .rdm s) (LineFrame .rdm s) (rdmRule s) := by
  have hp := fun p => atPos_frame (c := .rdm) (by simp) p s
  rw [rdmRule]
  rcases readUnit_cases 32 s with ⟨-, e⟩ | ⟨-, e⟩ <;> rw [e]
  · dsimp only
    split
    · exact hp _
    · exact (hp _).trans (raise_frame _ _ _)
  · exact (hp _).trans (raise_frame _ _ _)

theorem decRule_frame (s : State) :
    Ends (LineFrame .dec s) (LineFrame .dec s) (LineFrame .dec s) (decRule s) := by
  rw [decRule]
  split
  · exact refuseCommand_frame _ _
  · rename_i root _
    refine line_frame (d := .decLoop) (t := decStart root s) ?_ ?_ (loop_frame decBit_frame _ _)
    · constructor <;> intros <;> simp_all [decStart]
    · rintro u ⟨⟩; constructor <;> intros <;> simp_all

theorem finishSink_frame (s : State) : LineFrame .fin s (finishSink s) := by
  constructor <;> intros <;> first | rfl | exact ⟨rfl, rfl⟩ | contradiction

/-- What a line of the sequencer leaves unchanged, however it ends. -/
theorem lineRule_frame (c : Component) (s : State) :
    Ends (LineFrame c s) (LineFrame c s) (LineFrame c s) (lineRule c s) := by
  cases c with
  | resetCall => constructor <;> intros <;> simp_all [resetCall, dropTree]
  | clr => constructor <;> intros <;> simp_all [clearError, resetCall, dropTree]
  | illegal => exact refuseCommand_frame _ _
  | cnt => exact cntRule_frame s
  | cntLoop => exact loop_frame cntByte_frame _ _
  | bld => exact bldRule_frame s
  | bldLoop => exact loop_frame bldJoin_frame _ _
  | gen => exact genRule_frame s
  | wrm => exact wrmRule_frame s
  | wrh => exact wrhRule_frame s
  | enc => exact encRule_frame s
  | encLoop => exact loop_frame encByte_frame _ _
  | rdm => exact rdmRule_frame s
  | rdh => exact rdhRule_frame s
  | header => exact loop_frame headerToken_frame _ _
  | dec => exact decRule_frame s
  | decLoop => exact loop_frame decBit_frame _ _
  | rwd => constructor <;> intros <;> simp_all [rewindSource, Source.rewind]
  | fin => exact finishSink_frame s

end Sys2Proof.Laws
end

