-- ==== Sys2Proof/Laws/HostActions.lean ====
section
/-! SUPPORT. What the host's accesses to registers and tables can do, once each (20_memory.md R71, R72). -/

namespace Sys2Proof.Laws

open Sys2Proof.Machine

/-- A weight of `W_BITS` bits is at most `W_MAX` (R5, R21). -/
theorem mod_le_wMax (v : Nat) (c : Config) : v % 2 ^ c.wBits ≤ wMax c := by
  have := Nat.mod_lt v (Nat.two_pow_pos c.wBits)
  unfold wMax
  omega

/-- The symbols other than the sentinel are the byte values. -/
theorem ne_eofSym_iff (s : Symbol) : s ≠ eofSym ↔ s.val < 256 := by
  have h : eofSym.val = 256 := rfl
  rw [ne_eq, Fin.ext_iff, h]
  omega

/-- A write of an entry, read back through any entry (R21, R22). -/
theorem wtRead_wtWrite (sym y : Symbol) (v : Nat) (s : State) :
    wtRead y (wtWrite sym v s) = if y = sym ∧ y ≠ eofSym then v else wtRead y s := by
  by_cases hs : sym.val < 256 <;> by_cases hy : y.val < 256
  · by_cases h : y = sym
    · subst h
      simp [wtWrite, wtRead, hs, ne_eofSym_iff]
    · have : sym.val ≠ y.val := fun e => h (Fin.ext e.symm)
      simp [wtWrite, wtRead, hs, hy, this, h]
  · have h : ¬ (y = sym ∧ y ≠ eofSym) := fun h => hy ((ne_eofSym_iff y).mp h.2)
    simp [wtRead, hy, h]
  · have : y ≠ sym := by rintro rfl; contradiction
    simp [wtWrite, hs, this]
  · have h : ¬ (y = sym ∧ y ≠ eofSym) := fun h => hy ((ne_eofSym_iff y).mp h.2)
    simp [wtWrite, hs, h]

/-- Every outcome of a host's write of a weight: dropped while busy; written; or, above `W_MAX`, some weight of `W_BITS` bits
written (R71, log entry 15). -/
theorem hostWriteWt_cases (sym : Symbol) (v : Nat) (s : State) :
    (s.busy = true ∧ hostWriteWt sym v s = s) ∨
    (s.busy = false ∧ v ≤ wMax s.cfg ∧ hostWriteWt sym v s = wtWrite sym v s) ∨
    (s.busy = false ∧ wMax s.cfg < v ∧ ∃ free, free ≤ wMax s.cfg ∧
      hostWriteWt sym v s = { wtWrite sym free s with fresh := s.fresh + 1 }) := by
  unfold hostWriteWt
  split
  · exact .inl ⟨‹_›, rfl⟩
  · have hb : s.busy = false := by simpa using ‹¬ s.busy = true›
    split
    · exact .inr (.inl ⟨hb, ‹_›, rfl⟩)
    · exact .inr (.inr ⟨hb, by omega, _, mod_le_wMax _ _, rfl⟩)

@[simp] theorem hostReadReg_cmd (s : State) : hostReadReg 0 s = { s with hostRead := some (.cmd 0#8) } := rfl

@[simp] theorem hostReadReg_status (s : State) :
    hostReadReg 1 s = { s with hostRead := some (.status (statusWord s)) } := rfl

/-- A command word written to register 0 starts its command (R36). -/
@[simp] theorem hostWriteReg_cmd (w : Byte) (s : State) : hostWriteReg 0 (w.setWidth 16) s = startCommand w s := by
  have : (w.setWidth 16).extractLsb' 0 8 = w := by
    apply BitVec.eq_of_toNat_eq
    have := w.isLt
    simp; omega
  simp [hostWriteReg, regCmd, this]

@[simp] theorem hostWriteReg_status (v : BitVec 16) (s : State) : hostWriteReg 1 v s = s := rfl

/-- Every outcome of taking the output: the bytes of a finished sink of an idle machine, or any bytes (R279, log entry 16). -/
theorem hostTakeOutput_cases (s : State) :
    (s.busy = false ∧ s.snk.finished = true ∧
      hostTakeOutput s = { s with hostRead := some (.output (bytesOfBits s.snk.bits)) }) ∨
    ((s.busy = true ∨ s.snk.finished = false) ∧ ∃ bytes,
      hostTakeOutput s = { s with hostRead := some (.output bytes), fresh := s.fresh + 1 }) := by
  unfold hostTakeOutput Sink.output
  rcases hb : s.busy with _ | _ <;> rcases hf : s.snk.finished with _ | _
  · exact .inr ⟨.inr rfl, _, rfl⟩
  · exact .inl ⟨rfl, rfl, rfl⟩
  · exact .inr ⟨.inl rfl, _, rfl⟩
  · exact .inr ⟨.inl rfl, _, rfl⟩

end Sys2Proof.Laws
end

