-- ==== Sys2Proof/Laws/PerInstr.lean ====
section
/-! SUPPORT. Per instruction: the number of bits of its encoding and the format they are written in (30_encoding.md R90, R91,
R94, R95). -/

namespace Sys2Proof.Laws.Shape

/-- A command word has 8 bits (R91), a token HDR-I one (R94), a token HDR-L ten of which the first is 1 (R95). -/
def Statement (i : Instr) : Prop :=
  match i.format with
  | .cmd => (encode i).length = 8
  | .hdr => encode i = [false] ∨ (encode i).length = 10 ∧ (encode i).head? = some true

theorem nop : Statement .nop := length_bitsOf 8 _

theorem cnt : Statement .cnt := length_bitsOf 8 _

theorem bld : Statement .bld := length_bitsOf 8 _

theorem gen : Statement .gen := length_bitsOf 8 _

theorem wrm : Statement .wrm := length_bitsOf 8 _

theorem wrh : Statement .wrh := length_bitsOf 8 _

theorem enc : Statement .enc := length_bitsOf 8 _

theorem rdm : Statement .rdm := length_bitsOf 8 _

theorem rdh : Statement .rdh := length_bitsOf 8 _

theorem dec : Statement .dec := length_bitsOf 8 _

theorem rwd : Statement .rwd := length_bitsOf 8 _

theorem fin : Statement .fin := length_bitsOf 8 _

theorem cmp : Statement .cmp := length_bitsOf 8 _

theorem dcm : Statement .dcm := length_bitsOf 8 _

theorem clr : Statement .clr := length_bitsOf 8 _

theorem illegal0F : Statement .illegal0F := length_bitsOf 8 _

theorem illegalHi (w : Byte) : Statement (.illegalHi w) := length_bitsOf 8 _

theorem hdrI : Statement .hdrI := .inl rfl

theorem hdrL (f : BitVec 9) : Statement (.hdrL f) := .inr ⟨by simp [encode], rfl⟩

end Sys2Proof.Laws.Shape
end

