-- ==== Sys2Proof/Tests/Slice0.lean ====
section
/-! SUPPORT. The model's own tests: well-formedness, words written out from the spec's encodings, one step of each instruction
on small states with results from 95_test_vectors.md, and a witness of the hypotheses of every statement. -/

namespace Sys2Proof.Tests

open Sys2Proof.Machine

set_option Elab.async false

/-! ### Well-formedness -/

theorem test_illegalHi_low_word_is_ill_formed : (Instr.illegalHi 0x05#8).wf = false := by decide
theorem test_illegalHi_0F_is_ill_formed : (Instr.illegalHi 0x0F#8).wf = false := by decide
theorem test_illegalHi_10_is_well_formed : (Instr.illegalHi 0x10#8).wf = true := by decide
theorem test_leaf_257_is_never_written : (Instr.hdrL 257#9).writable = false := by decide
theorem test_leaf_256_may_be_written : (Instr.hdrL 256#9).writable = true := by decide
theorem test_command_is_no_token : Instr.nop.writable = false := by decide

/-! ### Decoding, bit by bit from 30_encoding.md R91 to R95 -/

theorem test_decode_nop : decodeCommand 0b00000000#8 = .nop := by decide
theorem test_decode_cnt : decodeCommand 0b00000001#8 = .cnt := by decide
theorem test_decode_bld : decodeCommand 0b00000010#8 = .bld := by decide
theorem test_decode_gen : decodeCommand 0b00000011#8 = .gen := by decide
theorem test_decode_wrm : decodeCommand 0b00000100#8 = .wrm := by decide
theorem test_decode_wrh : decodeCommand 0b00000101#8 = .wrh := by decide
theorem test_decode_enc : decodeCommand 0b00000110#8 = .enc := by decide
theorem test_decode_rdm : decodeCommand 0b00000111#8 = .rdm := by decide
theorem test_decode_rdh : decodeCommand 0b00001000#8 = .rdh := by decide
theorem test_decode_dec : decodeCommand 0b00001001#8 = .dec := by decide
theorem test_decode_rwd : decodeCommand 0b00001010#8 = .rwd := by decide
theorem test_decode_fin : decodeCommand 0b00001011#8 = .fin := by decide
theorem test_decode_cmp : decodeCommand 0b00001100#8 = .cmp := by decide
theorem test_decode_dcm : decodeCommand 0b00001101#8 = .dcm := by decide
theorem test_decode_clr : decodeCommand 0b00001110#8 = .clr := by decide
theorem test_decode_illegal0F : decodeCommand 0b00001111#8 = .illegal0F := by decide
theorem test_decode_illegal10 : decodeCommand 0b00010000#8 = .illegalHi 0x10#8 := by decide
theorem test_decode_illegal80 : decodeCommand 0b10000000#8 = .illegalHi 0x80#8 := by decide
theorem test_decode_hdrI : decodeTableWord 1 0b0 = some .hdrI := by decide
/-- The leaf token of symbol 98, `1001100010` (R96). -/
theorem test_decode_hdrL : decodeTableWord 16 0b1001100010 = some (.hdrL 98#9) := by decide
/-- The leaf token of the sentinel, `1100000000` (R96). -/
theorem test_decode_hdrL_sentinel : decodeTableWord 10 0b1100000000 = some (.hdrL 256#9) := by decide
theorem test_encode_hdrL : encode (.hdrL 98#9) =
    [true, false, false, true, true, false, false, false, true, false] := by decide
theorem test_short_command : decode .cmd [false, false, true] = .error .shortCommand := rfl
theorem test_no_tag : decode .hdr [] = .error .noTag := rfl
theorem test_short_field : decode .hdr [true, false, false] = .error .shortField := rfl

/-! ### Small states -/

/-- The state an instruction that completes answers. -/
def after : Outcome → State
  | .next s => s
  | .fault _ => State.reset
  | .refused _ => State.reset

/-- The outcome is a next state. -/
def completes : Outcome → Bool
  | .next _ => true
  | .fault _ => false
  | .refused _ => false

theorem next_after {o : Outcome} (h : completes o = true) : o = .next (after o) := by
  cases o with
  | next s => rfl
  | fault f => cases h
  | refused r => cases h

/-- Reset, with a source of these bytes. -/
def withBytes (bytes : List Byte) : State := { State.reset with src := { bits := bitsOfBytes bytes, pos := 0 } }

/-- Reset, with a source of these bits. -/
def withBits (bits : Bits) : State := { State.reset with src := { bits := bits, pos := 0 } }

/-- The same, with an error recorded. -/
def failed (s : State) : State := { s with err := .badMagic }

/-- The same, with the sink finished. -/
def closed (s : State) : State := { s with snk := { s.snk with finished := true } }

/-- The input of V1, "aaab". -/
def aaab : List Byte := [0x61#8, 0x61#8, 0x61#8, 0x62#8]

/-- The file of V1. -/
def aaabFile : List Byte := [0xFA#8, 0xCE#8, 0x82#8, 0x01#8, 0x26#8, 0x2C#8, 0x02#8, 0x61#8, 0xE2#8]

/-- The tree of V1. -/
def aaabTree : Tree := .node 5 (.node 2 (.leaf 98 1) (.leaf 256 1)) (.leaf 97 3)

/-- The weights of V1. -/
def aaabWeights (s : State) : State := wtWrite 97 3 (wtWrite 98 1 s)

/-- The tree of V1 and its code table. -/
def aaabTable (s : State) : State := { s with tree := some aaabTree, ct := codesOf aaabTree, ctV := true }

/-- RDH at work, before its next token, with this stack. -/
def reading (stack : List Frame) (s : State) : State := { s with busy := true, seq := [.header], stack := stack }

/-- A tree of `2n + 1` nodes. -/
def comb : Nat → Tree
  | 0 => .leaf 256 0
  | n + 1 => .node 0 (comb n) (.leaf 7 0)

/-! ### One step of each instruction; results from 95_test_vectors.md, the vector's number in the comment -/

/-- V57. -/
theorem test_nop_status : statusWord (after (exec .nop (failed State.reset))) = 0x0006#16 := by decide +kernel
/-- V6. -/
theorem test_cnt_counts : wtRead 97 (after (exec .cnt (withBytes aaab))) = 3 ∧
    wtRead 98 (after (exec .cnt (withBytes aaab))) = 1 ∧ (after (exec .cnt (withBytes aaab))).src.pos = 32 := by
  decide +kernel
/-- V9, with `W_BITS` = 2. -/
theorem test_cnt_overflow : (after (exec .cnt
    { withBytes [0x61#8, 0x61#8, 0x61#8, 0x61#8] with cfg := { magic := 0#32, wBits := 2 } })).err = .overflow := by
  decide +kernel
/-- V1. -/
theorem test_bld_aaab : (after (exec .bld (aaabWeights State.reset))).tree = some aaabTree := by decide +kernel
/-- V14: equal weights, the internal node of key 97 after the sentinel's leaf by weight, the leaves by symbol. -/
theorem test_bld_tie : (after (exec .bld (wtWrite 97 1 (wtWrite 98 1 State.reset)))).tree =
    some (.node 3 (.leaf 256 1) (.node 2 (.leaf 97 1) (.leaf 98 1))) := by decide +kernel
/-- V1. -/
theorem test_gen_aaab : ctGet 98 (codesOf aaabTree) = some [false, false] ∧ ctGet 97 (codesOf aaabTree) = some [true] ∧
    ctGet 256 (codesOf aaabTree) = some [false, true] ∧ ctGet 99 (codesOf aaabTree) = none := by decide +kernel
/-- V25. -/
theorem test_gen_without_tree : statusWord (after (exec .gen State.reset)) = 0x001A#16 := by decide +kernel
/-- R212. -/
theorem test_wrm_bytes : bytesOfBits (after (exec .wrm State.reset)).snk.bits = [0xFA#8, 0xCE#8, 0x82#8, 0x01#8] := by
  decide +kernel
/-- V28. -/
theorem test_wrh_bytes : bytesOfBits (after (exec .wrh (aaabTable State.reset))).snk.bits =
    [0x26#8, 0x2C#8, 0x02#8, 0x61#8] := by decide +kernel
/-- V1: the body `1110001`. -/
theorem test_enc_body : (after (exec .enc (aaabTable (withBytes aaab)))).snk.bits =
    [true, true, true, false, false, false, true] := by decide +kernel
/-- V38. -/
theorem test_enc_no_code : (after (exec .enc (aaabTable (withBytes [0x61#8, 0x61#8, 0x63#8])))).err = .badCode ∧
    (after (exec .enc (aaabTable (withBytes [0x61#8, 0x61#8, 0x63#8])))).src.pos = 24 := by decide +kernel
/-- R214. -/
theorem test_rdm_right : statusWord (after (exec .rdm (withBytes aaabFile))) = 0x0002#16 ∧
    (after (exec .rdm (withBytes aaabFile))).src.pos = 32 := by decide +kernel
/-- V51. -/
theorem test_rdm_short : statusWord (after (exec .rdm (withBytes [0xFA#8, 0xCE#8, 0x82#8]))) = 0x0006#16 ∧
    (after (exec .rdm (withBytes [0xFA#8, 0xCE#8, 0x82#8]))).src.pos = 24 := by decide +kernel
/-- V29. -/
theorem test_rdh_tree : (after (exec .rdh (withBytes [0x26#8, 0x2C#8, 0x02#8, 0x61#8]))).tree =
    some (.node 0 (.node 0 (.leaf 98 0) (.leaf 256 0)) (.leaf 97 0)) ∧
    (after (exec .rdh (withBytes [0x26#8, 0x2C#8, 0x02#8, 0x61#8]))).src.pos = 32 := by decide +kernel
/-- V34. -/
theorem test_rdh_no_symbol : statusWord (after (exec .rdh (withBytes [0xC0#8, 0x40#8]))) = 0x000A#16 ∧
    (after (exec .rdh (withBytes [0xC0#8, 0x40#8]))).src.pos = 10 := by decide +kernel
/-- V45: the bits after the sentinel's code are not read. -/
theorem test_dec_aaab : bytesOfBits (after (exec .dec (aaabTable (withBytes [0xE3#8])))).snk.bits = aaab ∧
    (after (exec .dec (aaabTable (withBytes [0xE3#8])))).src.pos = 7 := by decide +kernel
/-- V41: the sentinel is missing. -/
theorem test_dec_truncated : (after (exec .dec (aaabTable (withBytes [0xE0#8])))).err = .truncatedBody ∧
    (after (exec .dec (aaabTable (withBytes [0xE0#8])))).dstate = .error := by decide +kernel
/-- R216. -/
theorem test_rwd_cursor :
    (after (exec .rwd { State.reset with src := { bits := bitsOfBytes aaab, pos := 32 } })).src.pos = 0 := by decide +kernel
/-- R218: three bits are padded to eight, under an error too. -/
theorem test_fin_pads : (after (exec .fin (failed { State.reset with snk := { bits := [true, false, true], finished := false } }))).snk =
    { bits := [true, false, true, false, false, false, false, false], finished := true } := by decide +kernel
/-- V1. -/
theorem test_cmp_aaab : (after (exec .cmp (withBytes aaab))).snk.output = some aaabFile ∧
    statusWord (after (exec .cmp (withBytes aaab))) = 0x0182#16 := by decide +kernel
/-- V60. -/
theorem test_cmp_finished_sink : statusWord (after (exec .cmp (closed (withBytes [0x61#8])))) = 0x019A#16 := by
  decide +kernel
/-- R226. -/
theorem test_dcm_aaab : (after (exec .dcm (withBytes aaabFile))).snk.output = some aaab ∧
    statusWord (after (exec .dcm (withBytes aaabFile))) = 0x00C2#16 ∧
    (after (exec .dcm (withBytes aaabFile))).src.pos = 71 := by decide +kernel
/-- V53. -/
theorem test_dcm_magic_only : statusWord (after (exec .dcm (withBytes [0xFA#8, 0xCE#8, 0x82#8, 0x01#8]))) = 0x000A#16 := by
  decide +kernel
/-- V57. -/
theorem test_clr_status : statusWord (after (exec .clr (failed (aaabTable State.reset)))) = 0x0002#16 := by decide +kernel
/-- V58. -/
theorem test_illegal0F_status : statusWord (after (exec .illegal0F State.reset)) = 0x001A#16 := by decide +kernel
/-- V58. -/
theorem test_illegalHi_status : statusWord (after (exec (.illegalHi 0x80#8) State.reset)) = 0x001A#16 := by decide +kernel
/-- R165: an internal node expects its left child. -/
theorem test_hdrI_stack : (after (exec .hdrI (reading [] State.reset))).stack = [.left] := by decide +kernel
/-- R165: a leaf that is a right child completes the root. -/
theorem test_hdrL_completes : (after (exec (.hdrL 97#9) (reading [.right (.leaf 98 0)] State.reset))).tree =
    some (.node 0 (.leaf 98 0) (.leaf 97 0)) := by decide +kernel

/-! ### The host and the step -/

/-- V10. -/
theorem test_sentinel_weight_is_hardwired :
    (after (step { State.reset with host := [.writeWt 256 7] })).wt = State.reset.wt := by decide +kernel
/-- R79. -/
theorem test_attach : (after (step { closed State.reset with host := [.attach aaab] })).src.bits.length = 32 ∧
    (after (step { closed State.reset with host := [.attach aaab] })).snk.finished = false := by decide +kernel
/-- R71: a value above `W_MAX` is written as well, and no flag changes. -/
theorem test_write_above_wMax : completes (step (aaabTable { State.reset with host := [.writeWt 97 4294967296] })) = true ∧
    (after (step (aaabTable { State.reset with host := [.writeWt 97 4294967296] }))).tree = some aaabTree := by decide +kernel
/-- R36, R72: register 0 reads 0. -/
theorem test_read_cmd : (after (step { State.reset with host := [.readReg 0] })).hostRead = some (.cmd 0#8) := by
  decide +kernel
/-- R37, R72: register 1 is `STATUS`; V25's error shows in it. -/
theorem test_read_status : (after (step { after (exec .gen State.reset) with host := [.readReg 1] })).hostRead =
    some (.status 0x001A#16) := by decide +kernel
theorem test_step_runs_a_placed_command : (after (step (State.reset.withFetchWord 8 0x0C))).cmd = 0x0C#8 ∧
    statusWord (after (step (State.reset.withFetchWord 8 0x0C))) = 0x0182#16 := by decide +kernel
theorem test_step_runs_a_placed_token : (after (step (State.reset.withFetchWord 16 0b1001100010))).tree =
    some (.leaf 98 0) := by decide +kernel
theorem test_step_runs_a_placed_internal_token : (after (step (State.reset.withFetchWord 1 0))).stack = [.left] := by
  decide +kernel

/-! ### Witnesses: states and operands that meet the hypotheses of a statement together -/

/-- Reset with these host actions to come. -/
def hostDoes (as : List HostAction) : State := { State.reset with host := as }

/-- The same, while a command is in progress. -/
def busyHostDoes (as : List HostAction) : State := { State.reset with host := as, busy := true, seq := [.cntLoop] }

theorem witness_IllegalWordsRaiseBadCommand :
    (0x0E#8).toNat < 0x0F ∧ 0x0F ≤ (0x0F#8).toNat ∧ 0x0F ≤ (0x10#8).toNat ∧ 0x0F ≤ (0xFF#8).toNat ∧
    Idle State.reset ∧ NoError State.reset := by decide

theorem witness_DecodeOfEncodeIsTheInstruction :
    (Instr.illegalHi 0x10#8).wf = true ∧ (Instr.illegalHi 0xFF#8).wf = true ∧ (Instr.hdrL 511#9).wf = true ∧
    Instr.dcm.wf = true := by decide

theorem witness_DecodedBitsAreTheEncoding :
    decode .cmd [false, false, false, true, false, false, false, false, true] = .ok (.illegalHi 0x10#8, [true]) ∧
    decode .hdr (true :: List.replicate 9 true) = .ok (.hdrL 511#9, []) := ⟨rfl, rfl⟩

theorem witness_StatusShowsItsFieldsAndIsReadOnly :
    (hostDoes [.writeReg 1 0xFFFF#16]).host = .writeReg 1 0xFFFF#16 :: [] ∧
    (busyHostDoes [.readReg 1]).host = .readReg 1 :: [] := by decide

theorem witness_ResetGivesTheResetValues :
    (hostDoes [.reset]).host = .reset :: [] ∧ Idle (hostDoes [.reset]) ∧
    (busyHostDoes [.reset]).host = .reset :: [] ∧ (busyHostDoes [.reset]).busy = true := by decide

theorem witness_StepRunsTheHostsNextCommand :
    (hostDoes [.cmd 0x0C#8]).host = .cmd 0x0C#8 :: [] ∧ Idle State.reset ∧ State.reset.host = [] := by decide

/-- RDH at work on these bits, with this many nodes counted. -/
def readingBits (bits : Bits) (n : Nat) : State := { reading [] (withBits bits) with nodes := n }

theorem witness_StepRunsTheNextHeaderToken :
    (readingBits [false, true] 512).host = [] ∧ readingHeader (readingBits [false, true] 512) = true ∧
    NoError (readingBits [false, true] 512) ∧ (readingBits [false, true] 512).nodes < nodeCap ∧
    decodeToken (readingBits [false, true] 512).src.rest = .ok (.hdrI, [true]) ∧
    decodeToken (readingBits (encode (.hdrL 97#9)) 0).src.rest = .ok (.hdrL 97#9, []) :=
  ⟨rfl, rfl, rfl, by decide, rfl, rfl⟩

theorem witness_StepRunsTheNextHeaderToken_by_the_host :
    { readingBits [false] 0 with host := [.engine] }.host = .engine :: [] := rfl

theorem witness_HostAccessWhileBusy :
    (busyHostDoes []).busy = true ∧ (busyHostDoes [.cmd 0x0E#8]).host = .cmd 0x0E#8 :: [] ∧
    (busyHostDoes [.writeReg 0 0x0001#16]).host = .writeReg 0 0x0001#16 :: [] ∧
    (busyHostDoes [.writeWt 0 1]).host = .writeWt 0 1 :: [] ∧ (busyHostDoes [.readWt 256]).host = .readWt 256 :: [] ∧
    (busyHostDoes [.readCt 256]).host = .readCt 256 :: [] ∧ (busyHostDoes [.attach aaab]).host = .attach aaab :: [] ∧
    (busyHostDoes [.readReg 1]).host = .readReg 1 :: [] := by decide

theorem witness_HostReadsAndWritesWeights :
    Idle (hostDoes [.readWt 256]) ∧ (hostDoes [.readWt 256]).host = .readWt 256 :: [] ∧
    (4294967295 ≤ wMax State.reset.cfg) ∧ (hostDoes [.writeWt 255 4294967295]).host = .writeWt 255 4294967295 :: [] ∧
    (hostDoes [.writeWt 256 7]).host = .writeWt 256 7 :: [] ∧ (255 : Symbol) ≠ eofSym ∧
    (hostDoes [.writeWt 255 4294967296]).host = .writeWt 255 4294967296 :: [] ∧ ¬ 4294967296 ≤ wMax State.reset.cfg := by
  decide

theorem witness_HostReadsCodeEntries :
    Idle (aaabTable (hostDoes [.readCt 97])) ∧ (aaabTable (hostDoes [.readCt 97])).host = .readCt 97 :: [] ∧
    ctGet 97 (aaabTable (hostDoes [.readCt 97])).ct = some [true] ∧
    ctGet 99 (aaabTable (hostDoes [.readCt 97])).ct = none ∧
    ctGet 256 (codesOf (comb 256)) = some (List.replicate 256 false) := by decide +kernel

theorem witness_AttachConnectsThePorts :
    Idle (hostDoes [.attach aaab]) ∧ (hostDoes [.attach aaab]).host = .attach aaab :: [] ∧
    aaab[31 / 8]? = some 0x62#8 := by decide

theorem witness_CmdStartsACommandAndReadsZero :
    Idle (hostDoes [.writeReg 0 0x000C#16]) ∧
    (hostDoes [.writeReg 0 0x000C#16]).host = .writeReg 0 ((0x0C#8 : Byte).setWidth 16) :: [] ∧
    (failed (hostDoes [.writeReg 0 0x000C#16])).err ≠ .none ∧ runsUnderError (decodeCommand 0x0C#8) = false ∧
    (busyHostDoes [.writeReg 0 0x00FF#16]).busy = true ∧
    (busyHostDoes [.writeReg 0 0x00FF#16]).host = .writeReg 0 ((0xFF#8 : Byte).setWidth 16) :: [] ∧
    (hostDoes [.readReg 0]).host = .readReg 0 :: [] := by decide

theorem witness_ReadUnitTakesTheNextBits :
    (withBytes aaab).src.pos + 32 ≤ (withBytes aaab).src.bits.length ∧
    ¬ State.reset.src.pos + 1 ≤ State.reset.src.bits.length := by decide

theorem witness_WriteUnitAppendsAndReadsBack :
    State.reset.snk.finished = false ∧ (closed State.reset).snk.finished = true ∧ 1 ≤ 32 ∧ 32 ≤ 32 := by decide

theorem witness_NopChangesNothing : Idle State.reset ∧ Idle (failed State.reset) := by decide

theorem witness_ClrEndsTheCallAndClearsTheError : Idle (aaabTable State.reset) ∧ Idle (failed State.reset) := by decide

theorem witness_RwdRewindsTheSource : Idle (withBytes aaab) ∧ NoError (withBytes aaab) := by decide

theorem witness_FinFinishesTheSink :
    Idle (closed State.reset) ∧ (closed State.reset).snk.finished = true ∧ Idle (failed State.reset) ∧
    (failed State.reset).snk.finished = false := by decide

theorem witness_MacroEqualsItsExpansion : Idle (withBytes aaab) ∧ NoError (withBytes aaab) := by decide

theorem witness_WrmWritesTheMagic :
    Idle (closed State.reset) ∧ NoError (closed State.reset) ∧ (closed State.reset).snk.finished = true ∧
    State.reset.snk.finished = false := by decide

theorem witness_RdmChecksTheMagic :
    Idle (withBytes aaabFile) ∧ NoError (withBytes aaabFile) ∧
    (withBytes aaabFile).src.rest = bitsOf 32 (withBytes aaabFile).cfg.magic.toNat ++ bitsOfBytes (aaabFile.drop 4) ∧
    (withBytes aaab).src.rest.take 32 ≠ bitsOf 32 (withBytes aaab).cfg.magic.toNat ∧
    State.reset.src.rest.take 32 ≠ bitsOf 32 State.reset.cfg.magic.toNat := by decide

theorem witness_CntCountsTheBytes :
    Idle (withBytes aaab) ∧ NoError (withBytes aaab) ∧
    ∀ v, occurrences (bytesOfBits (withBytes aaab).src.rest) v ≤ wMax (withBytes aaab).cfg := by decide +kernel

/-- Weights of one bit. -/
def oneBit (s : State) : State := { s with cfg := { magic := 0#32, wBits := 1 } }

theorem witness_CntRaisesOverflow :
    Idle (oneBit (withBytes [0x61#8, 0x61#8])) ∧ NoError (oneBit (withBytes [0x61#8, 0x61#8])) ∧
    (oneBit (withBytes [0x61#8, 0x61#8])).src.rest = bitsOfBytes ([0x61#8] ++ [0x61#8]) ++ [] ∧
    (∀ v, occurrences [0x61#8] v ≤ wMax (oneBit State.reset).cfg) ∧
    occurrences [0x61#8] (0x61#8 : Byte).toFin = wMax (oneBit State.reset).cfg := by decide +kernel

theorem witness_BldBuildsTheGreedyTree :
    Idle (aaabWeights State.reset) ∧ NoError (aaabWeights State.reset) ∧
    totalWeight (aaabWeights State.reset).wt ≤ wMax (aaabWeights State.reset).cfg ∧
    totalWeight (wtWrite 5 4294967294 State.reset).wt = wMax State.reset.cfg := by decide +kernel

theorem aaab_initialLeaves : initialLeaves (aaabWeights State.reset).wt = [.leaf 97 3, .leaf 98 1, .leaf 256 1] := by
  decide +kernel

/-- BLD at work on the leaves of V1, a queue of more than one node, and another listing of the leaves. -/
theorem witness_LessOrdersTheQueueAtEveryStep :
    EngineClean { bldStart (aaabWeights State.reset) with busy := true, seq := [.bldLoop] } ∧
    QueueDisjoint { bldStart (aaabWeights State.reset) with busy := true, seq := [.bldLoop] } ∧
    (∃ t, step { bldStart (aaabWeights State.reset) with busy := true, seq := [.bldLoop] } = .next t) ∧
    (queueSymbols [.leaf 97 3, .leaf 98 1, .leaf 256 1]).Nodup ∧
    [.leaf 98 1, .leaf 256 1, .leaf 97 3].Perm (initialLeaves (aaabWeights State.reset).wt) := by
  refine ⟨?_, ?_, ⟨_, next_after (by decide +kernel)⟩, by decide, by rw [aaab_initialLeaves]; decide⟩
  · simp [EngineClean, bldStart, dropTree, aaabWeights, wtWrite, State.reset]
  · intro _
    show (queueSymbols (initialLeaves (aaabWeights State.reset).wt)).Nodup
    rw [aaab_initialLeaves]
    decide

theorem witness_BuiltTreeHasItsLeavesAndSums : Idle (aaabWeights State.reset) ∧ NoError (aaabWeights State.reset) ∧
    ∃ u, exec .bld (aaabWeights State.reset) = .next u ∧ NoError u :=
  ⟨by decide +kernel, by decide +kernel, _, next_after (by decide +kernel), by decide +kernel⟩

theorem witness_BldRaisesOverflow :
    Idle (wtWrite 0 4294967295 State.reset) ∧ NoError (wtWrite 0 4294967295 State.reset) ∧
    1 ≤ (wtWrite 0 4294967295 State.reset).cfg.wBits ∧
    wMax State.reset.cfg < totalWeight (wtWrite 0 4294967295 State.reset).wt := by decide +kernel

theorem witness_HeavierSymbolHasNoLongerCode :
    ∃ u v, exec .bld (aaabWeights State.reset) = .next u ∧ NoError u ∧ exec .gen u = .next v ∧
      ctGet 97 v.ct = some [true] ∧ ctGet 98 v.ct = some [false, false] ∧
      wtRead 98 (aaabWeights State.reset) < wtRead 97 (aaabWeights State.reset) :=
  ⟨_, _, next_after (by decide +kernel), by decide +kernel, next_after (by decide +kernel), by decide +kernel,
    by decide +kernel, by decide +kernel⟩

/-- The tree of V26: one symbol on two leaves. -/
def doubled : Tree := .node 0 (.leaf 97 0) (.node 0 (.leaf 97 0) (.leaf 256 0))

theorem witness_GenTabulatesThePaths :
    Idle { State.reset with tree := some doubled } ∧ NoError { State.reset with tree := some doubled } ∧
    doubled.IsCode 97 [true, false] ∧ doubled.IsCode 97 [false] ∧ Tree.IsCode (.leaf 97 0) 97 [false] :=
  ⟨rfl, rfl, ⟨0, rfl⟩, ⟨0, rfl⟩, rfl, rfl⟩

theorem witness_CodesArePrefixFreeAndBounded :
    ∃ u, exec .gen { State.reset with tree := some (comb 256) } = .next u ∧
      ctGet 256 u.ct = some (List.replicate 256 false) ∧ ctGet 7 u.ct = some [true] ∧ (comb 256).size = nodeCap :=
  ⟨_, next_after (by decide +kernel), by decide +kernel, by decide +kernel, by decide +kernel⟩

theorem witness_WrhWritesTheHeader :
    Idle (aaabTable State.reset) ∧ NoError (aaabTable State.reset) ∧ (aaabTable State.reset).tree = some aaabTree ∧
    (aaabTable State.reset).snk.finished = false ∧ (closed (aaabTable State.reset)).snk.finished = true := by decide +kernel

/-- The largest tree the node store holds. -/
theorem witness_RdhReadsTheHeaderBack :
    Idle (withBits ((comb 256).ser ++ [true])) ∧ NoError (withBits ((comb 256).ser ++ [true])) ∧
    (comb 256).size ≤ nodeCap ∧ (withBits ((comb 256).ser ++ [true])).src.rest = (comb 256).ser ++ [true] :=
  ⟨rfl, rfl, by decide +kernel, rfl⟩

/-- At the first tag; in a field that begins with seven ones, the byte FF; at the tag of node 514; inside the symbol field of
node 513; 38 zero bytes, 304 tags of a header that no
tree of at most 513 nodes begins with. -/
theorem witness_RdhRejectsAShortHeader :
    Idle State.reset ∧ NoError State.reset ∧
    (aaabTree.tokens = [] ++ aaabTree.tokens.head (by decide) :: aaabTree.tokens.tail ∧ State.reset.src.rest = [] ++ []) ∧
    (withBytes [0xFF#8]).src.rest = [].flatMap encode ++ true :: List.replicate 7 true ∧ (List.replicate 7 true).length < 9 ∧
    ((comb 513).tokens = List.replicate 513 .hdrI ++ .hdrL 256#9 :: List.replicate 513 (.hdrL 7#9) ∧
      (List.replicate 513 Instr.hdrI).length ≤ nodeCap) ∧
    ((comb 512).tokens = List.replicate 512 .hdrI ++ .hdrL 256#9 :: List.replicate 512 (.hdrL 7#9) ∧
      (List.replicate 512 Instr.hdrI).length < nodeCap ∧ (List.replicate 8 true).length < 9) ∧
    ((comb 304).tokens = List.replicate 304 .hdrI ++ .hdrL 256#9 :: List.replicate 304 (.hdrL 7#9) ∧
      (withBytes (List.replicate 38 0#8)).src.rest = (List.replicate 304 Instr.hdrI).flatMap encode ++ []) := by
  decide +kernel

theorem witness_RdhRejectsAFieldThatIsNoSymbol :
    Idle (withBits (encode .hdrI ++ encode (.hdrL 257#9) ++ [true])) ∧
    NoError (withBits (encode .hdrI ++ encode (.hdrL 257#9) ++ [true])) ∧
    Tree.tokens (.node 0 (.leaf 97 0) (.leaf 256 0)) = [.hdrI] ++ .hdrL 97#9 :: [.hdrL 256#9] ∧ 256 < (257#9).toNat ∧
    (withBits (encode .hdrI ++ encode (.hdrL 257#9) ++ [true])).src.rest =
      [Instr.hdrI].flatMap encode ++ encode (.hdrL 257#9) ++ [true] ∧
    (comb 512).tokens = List.replicate 512 .hdrI ++ .hdrL 256#9 :: List.replicate 512 (.hdrL 7#9) ∧
    (List.replicate 512 Instr.hdrI).length < nodeCap ∧ 256 < (511#9).toNat := by decide +kernel

/-- The bits of V35: 514 tag bits `0`. -/
theorem witness_RdhRejectsTooManyNodes :
    nodeCap < (comb 514).size ∧
    (withBits (((comb 514).tokens.take nodeCap).flatMap encode ++ false :: [])).src.rest =
      ((comb 514).tokens.take nodeCap).flatMap encode ++ false :: [] ∧
    ((comb 514).tokens.take nodeCap).flatMap encode = List.replicate 513 false := by decide +kernel

theorem witness_WrhWritesBackWhatRdhRead :
    Idle (withBits aaabTree.ser) ∧ NoError (withBits aaabTree.ser) ∧ (withBits aaabTree.ser).snk.finished = false ∧
    ∃ u, exec .rdh (withBits aaabTree.ser) = .next u ∧ NoError u :=
  ⟨rfl, rfl, rfl, _, next_after (by decide +kernel), by decide +kernel⟩

theorem witness_HeaderTokensDriveTheReader :
    readingHeader (reading [.right (.leaf 98 0), .left] State.reset) = true ∧
    (reading [.right (.leaf 98 0), .left] State.reset).stack = [Tree.leaf 98 0].map .right ++ .left :: [] ∧
    (reading [.right (.leaf 98 0)] State.reset).stack = [Tree.leaf 98 0].map .right ∧
    (reading [] State.reset).stack = ([] : List Tree).map .right ∧ 256 < (511#9).toNat ∧
    readingHeader State.reset = false := by decide +kernel

theorem witness_EncWritesTheBody :
    Idle (aaabTable (withBytes aaab)) ∧ NoError (aaabTable (withBytes aaab)) ∧ (aaabTable (withBytes aaab)).ctV = true ∧
    (aaabTable (withBytes aaab)).snk.finished = false ∧
    (∀ b ∈ bytesOfBits (aaabTable (withBytes aaab)).src.rest,
      (ctGet b.toFin.castSucc (aaabTable (withBytes aaab)).ct).isSome = true) ∧
    (ctGet eofSym (aaabTable (withBytes aaab)).ct).isSome = true := by decide +kernel

/-- The code table of a tree without a sentinel's leaf. -/
def noSentinel (s : State) : State := { s with ct := codesOf (.leaf 97 0), ctV := true }

theorem witness_EncRaisesBadCodeAndBadCommand :
    Idle (noSentinel (withBytes aaab)) ∧ NoError (noSentinel (withBytes aaab)) ∧ (noSentinel (withBytes aaab)).ctV = true ∧
    (noSentinel (withBytes aaab)).snk.finished = false ∧
    (noSentinel (withBytes aaab)).src.rest = bitsOfBytes ([0x61#8, 0x61#8, 0x61#8] ++ [0x62#8]) ++ [] ∧
    (∀ c ∈ [0x61#8, 0x61#8, 0x61#8], (ctGet (c : Byte).toFin.castSucc (noSentinel (withBytes aaab)).ct).isSome = true) ∧
    ctGet (0x62#8 : Byte).toFin.castSucc (noSentinel (withBytes aaab)).ct = none ∧
    (∀ c ∈ bytesOfBits (noSentinel (withBytes [0x61#8])).src.rest,
      (ctGet c.toFin.castSucc (noSentinel (withBytes [0x61#8])).ct).isSome = true) ∧
    ctGet eofSym (noSentinel (withBytes [0x61#8])).ct = none := by decide +kernel

/-- The clauses of the finished sink: a byte left, and none. -/
theorem witness_EncRaisesBadCommand :
    Idle (closed (aaabTable (withBytes aaab))) ∧ NoError (closed (aaabTable (withBytes aaab))) ∧
    (closed (aaabTable (withBytes aaab))).ctV = true ∧ (closed (aaabTable (withBytes aaab))).snk.finished = true ∧
    (closed (aaabTable (withBytes aaab))).src.rest =
      bitsOf 8 (0x61#8 : Byte).toNat ++ bitsOfBytes [0x61#8, 0x61#8, 0x62#8] ∧
    ctGet (0x61#8 : Byte).toFin.castSucc (closed (aaabTable (withBytes aaab))).ct = some [true] ∧
    (closed (aaabTable State.reset)).src.rest.length < 8 ∧
    ctGet eofSym (closed (aaabTable State.reset)).ct = some [false, true] := by decide +kernel

/-- BadCode on a finished sink: a first byte without a code, and no byte left and a sentinel without one. -/
theorem witness_EncRaisesBadCode_on_a_finished_sink :
    Idle (closed (noSentinel (withBytes [0x62#8]))) ∧ NoError (closed (noSentinel (withBytes [0x62#8]))) ∧
    (closed (noSentinel (withBytes [0x62#8]))).ctV = true ∧
    (closed (noSentinel (withBytes [0x62#8]))).snk.finished = true ∧
    (closed (noSentinel (withBytes [0x62#8]))).src.rest = bitsOfBytes ([] ++ [0x62#8]) ++ [] ∧
    ctGet (0x62#8 : Byte).toFin.castSucc (closed (noSentinel (withBytes [0x62#8]))).ct = none ∧
    (closed (noSentinel State.reset)).src.rest.length < 8 ∧
    bytesOfBits (closed (noSentinel State.reset)).src.rest = [] ∧
    ctGet eofSym (closed (noSentinel State.reset)).ct = none := by decide +kernel

/-- Codes of the tree of V1 for "ab", and the sentinel's. -/
theorem aaab_codes : (∀ c ∈ [((97 : Symbol), [true]), (98, [false, false])], c.1 ≠ eofSym ∧ aaabTree.IsCode c.1 c.2) ∧
    aaabTree.IsCode eofSym [false, true] := by
  refine ⟨?_, 1, rfl⟩
  intro c hc
  simp only [List.mem_cons, List.not_mem_nil, or_false] at hc
  rcases hc with rfl | rfl
  · exact ⟨by decide, 3, rfl⟩
  · exact ⟨by decide, 1, rfl⟩

/-- The body of "ab" and pad bits, under the tree of V1. -/
def abBody (part : Bits) : State :=
  aaabTable (withBits ([((97 : Symbol), [true]), (98, [false, false])].flatMap Prod.snd ++ part))

theorem witness_DecDecodesTheBody :
    Idle (abBody ([false, true] ++ [true])) ∧ NoError (abBody ([false, true] ++ [true])) ∧
    (abBody ([false, true] ++ [true])).tree = some aaabTree ∧ (abBody ([false, true] ++ [true])).snk.finished = false ∧
    (abBody ([false, true] ++ [true])).src.rest =
      [((97 : Symbol), [true]), (98, [false, false])].flatMap Prod.snd ++ [false, true] ++ [true] ∧
    (∀ c ∈ [((97 : Symbol), [true]), (98, [false, false])], c.1 ≠ eofSym ∧ aaabTree.IsCode c.1 c.2) ∧
    aaabTree.IsCode eofSym [false, true] :=
  ⟨rfl, rfl, rfl, rfl, rfl, aaab_codes⟩

/-- A tree of one leaf. -/
def oneLeaf (sym : Symbol) (s : State) : State := { s with tree := some (.leaf sym 0) }

/-- A finished sink and no byte to be written: the sentinel's code first; the source ends before any leaf; a 1 at a root that is
a leaf. -/
theorem witness_Dec_on_a_finished_sink :
    (closed (aaabTable (withBits [false, true]))).snk.finished = true ∧
    Idle (closed (aaabTable (withBits [false, true]))) ∧ NoError (closed (aaabTable (withBits [false, true]))) ∧
    (closed (aaabTable (withBits [false, true]))).src.rest =
      ([] : List (Symbol × Bits)).flatMap Prod.snd ++ [false, true] ++ [] ∧
    aaabTree.IsCode eofSym [false, true] ∧
    (closed (aaabTable (withBits [false]))).src.rest = ([] : List (Symbol × Bits)).flatMap Prod.snd ++ [false] ∧
    aaabTree.atPath [false] = some (.node 2 (.leaf 98 1) (.leaf 256 1)) ∧
    (closed (oneLeaf 97 (withBits [true]))).src.rest = List.replicate 0 false ++ true :: [] :=
  ⟨rfl, rfl, rfl, rfl, aaab_codes.2, rfl, rfl, rfl⟩

theorem witness_DecRaisesTruncatedBody :
    NoError (abBody [false]) ∧ (abBody [false]).tree = some aaabTree ∧ (abBody [false]).snk.finished = false ∧
    aaabTree.atPath [false] = some (.node 2 (.leaf 98 1) (.leaf 256 1)) ∧
    (abBody [false]).src.rest = [((97 : Symbol), [true]), (98, [false, false])].flatMap Prod.snd ++ [false] ∧
    (abBody []).src.rest = [((97 : Symbol), [true]), (98, [false, false])].flatMap Prod.snd ++ [] :=
  ⟨rfl, rfl, rfl, rfl, rfl, rfl⟩

theorem witness_DecRaisesBadCodeAndBadCommand :
    Idle (oneLeaf 256 (withBits [true])) ∧ NoError (oneLeaf 256 (withBits [true])) ∧
    (oneLeaf 256 (withBits [true])).src.rest = List.replicate 0 false ++ true :: [] ∧
    (oneLeaf 97 (withBits [false, false, true])).src.rest = List.replicate 2 false ++ true :: [] ∧
    (closed (abBody [])).snk.finished = true ∧ (97 : Symbol) ≠ eofSym ∧ aaabTree.IsCode 97 [true] ∧
    (closed (abBody [])).src.rest = [true] ++ [false, false] :=
  ⟨rfl, rfl, rfl, rfl, rfl, by decide, ⟨3, rfl⟩, rfl⟩

theorem witness_CmpWritesTheFile :
    Idle (withBytes aaab) ∧ NoError (withBytes aaab) ∧ FreshPorts aaab (withBytes aaab) ∧ InRange aaab (withBytes aaab) :=
  ⟨rfl, rfl, ⟨rfl, rfl⟩, by decide⟩

theorem witness_DcmRejectsAWrongMagic :
    Idle (withBytes aaab) ∧ NoError (withBytes aaab) ∧ FreshPorts aaab (withBytes aaab) ∧
    (bitsOfBytes aaab).take 32 ≠ bitsOf 32 (withBytes aaab).cfg.magic.toNat ∧
    FreshPorts [] State.reset ∧ (bitsOfBytes []).take 32 ≠ bitsOf 32 State.reset.cfg.magic.toNat :=
  ⟨rfl, rfl, ⟨rfl, rfl⟩, by decide, ⟨rfl, rfl⟩, by decide⟩

/-- A file of "ab" under the tree of V1, with bits after it. -/
def abFile : State :=
  withBits (bitsOf 32 Config.default.magic.toNat ++ aaabTree.ser ++
    [((97 : Symbol), [true]), (98, [false, false])].flatMap Prod.snd ++ [false, true] ++ [true])

theorem witness_DcmDecodesTheFile :
    Idle abFile ∧ NoError abFile ∧ abFile.snk.finished = false ∧ aaabTree.size ≤ nodeCap ∧
    (∀ c ∈ [((97 : Symbol), [true]), (98, [false, false])], c.1 ≠ eofSym ∧ aaabTree.IsCode c.1 c.2) ∧
    aaabTree.IsCode eofSym [false, true] ∧
    abFile.src.rest = bitsOf 32 abFile.cfg.magic.toNat ++ aaabTree.ser ++
      [((97 : Symbol), [true]), (98, [false, false])].flatMap Prod.snd ++ [false, true] ++ [true] :=
  ⟨rfl, rfl, rfl, by decide, aaab_codes.1, aaab_codes.2, rfl⟩

/-- A file of no bytes and a finished sink. -/
theorem witness_DcmDecodesTheFile_on_a_finished_sink :
    Idle (closed (withBytes [0xFA#8, 0xCE#8, 0x82#8, 0x01#8, 0xC0#8, 0x00#8])) ∧
    NoError (closed (withBytes [0xFA#8, 0xCE#8, 0x82#8, 0x01#8, 0xC0#8, 0x00#8])) ∧
    Tree.IsCode (.leaf 256 0) eofSym [false] ∧
    (closed (withBytes [0xFA#8, 0xCE#8, 0x82#8, 0x01#8, 0xC0#8, 0x00#8])).src.rest =
      bitsOf 32 Config.default.magic.toNat ++ Tree.ser (.leaf 256 0) ++
        ([] : List (Symbol × Bits)).flatMap Prod.snd ++ [false] ++ List.replicate 5 false :=
  ⟨rfl, rfl, ⟨rfl, rfl⟩, rfl⟩

theorem witness_RoundTripGivesTheInputBack :
    aaab.length < wMax Config.default ∧ ([] : List Byte).length < wMax { magic := 0#32, wBits := 1 } := by decide

theorem witness_CommandsRaiseOnlyTheirErrors :
    NoError State.reset ∧ ∃ t, exec .gen State.reset = .next t ∧ t.err = .badCommand :=
  ⟨rfl, _, next_after (by decide +kernel), by decide +kernel⟩

theorem witness_ErrorIsStickyUntilClr :
    Idle (failed State.reset) ∧ (failed State.reset).err ≠ .none ∧ Instr.cmp.format = .cmd ∧
    ∃ t, exec .clr (failed State.reset) = .next t :=
  ⟨rfl, by decide, rfl, _, next_after (by decide +kernel)⟩

theorem witness_FailedPreconditionChangesOnlyErr :
    Idle State.reset ∧ NoError State.reset ∧ State.reset.tree = none ∧ State.reset.ctV = false := by decide

theorem witness_StateIsWrittenOnlyByItsWriters :
    ∃ t, exec .rwd (withBytes aaab) = .next t ∧ t.err = (withBytes aaab).err ∧ NoError (withBytes aaab) :=
  ⟨_, next_after (by decide +kernel), by decide +kernel, rfl⟩

theorem witness_EveryStepKeepsTheParameters : ∃ t, step (hostDoes [.writeReg 0 0x0001#16]) = .next t :=
  ⟨_, next_after (by decide +kernel)⟩

theorem witness_EveryStepKeepsThePortsOk : PortsOk (closed (withBytes aaab)) ∧
    ∃ t, step { closed (withBytes aaab) with host := [.cmd 0x0A#8] } = .next t :=
  ⟨by decide +kernel, _, next_after (by decide +kernel)⟩

theorem witness_EveryStepKeepsTheWeightsFit : WeightsFit (aaabWeights State.reset) ∧
    ∃ t, step { aaabWeights State.reset with host := [.cmd 0x02#8] } = .next t :=
  ⟨by decide +kernel, _, next_after (by decide +kernel)⟩

/-- BLD at work. -/
theorem witness_EveryStepKeepsTheEngineClean : EngineClean { bldStart State.reset with busy := true, seq := [.bldLoop] } ∧
    ∃ t, step { bldStart State.reset with busy := true, seq := [.bldLoop] } = .next t :=
  ⟨by simp [EngineClean, bldStart, dropTree, State.reset], _, next_after (by decide +kernel)⟩

theorem witness_EveryStepKeepsTableAndTree :
    EngineClean (aaabTable State.reset) ∧ TableOfTree (aaabTable State.reset) ∧ NodesFit (aaabTable State.reset) ∧
    ∃ t, step (aaabTable State.reset) = .next t := by
  refine ⟨?_, ?_, ?_, _, rfl⟩
  · simp [EngineClean, aaabTable, State.reset]
  · simp [TableOfTree, aaabTable, State.reset]
  · simp [NodesFit, aaabTable, State.reset, aaabTree, Tree.size, nodeCap]

theorem witness_AtomicCommandIsTheRunOfItsSteps :
    Idle (withBytes aaab) ∧ EngineClean (withBytes aaab) ∧ ∃ t, exec (decodeCommand 0x0C#8) (withBytes aaab) = .next t :=
  ⟨rfl, by simp [EngineClean, withBytes, State.reset], _, next_after (by decide +kernel)⟩

end Sys2Proof.Tests
end

section
/-! SUPPORT. A step of the machine (R8, R272), and a command as the run of the engine's small steps (R35, R220). The atomic
command leaves the sequencer's list alone and the small steps consume it, so the proof turns on one fact: no line reads that
list, so every line and every turn of a loop commutes with replacing it (`onSeq`). -/

namespace Sys2Proof.Proofs

open Sys2Proof.Machine Sys2Proof.Laws

/-! ### One step of the machine -/

theorem step_cons {s : State} {a : HostAction} {rest : List HostAction} (h : s.host = a :: rest) :
    step s = hostAct a { s with host := rest } := by
  rw [step, h]

theorem step_nil {s : State} (h : s.host = []) : step s = engineStep s := by
  rw [step, h]

theorem engineStep_idle {s : State} (h : Idle s) : engineStep s = .next s := by
  simp [engineStep, h]

/-- Settles O8: the step takes the host's action, whose meaning is `exec`, and an idle engine does nothing. -/
theorem stepRunsTheHostsNextCommand : Obligations.StepRunsTheHostsNextCommand :=
  ⟨fun _ _ _ h => step_cons h, fun _ hidle h => (step_nil h).trans (engineStep_idle hidle)⟩

/-! ### The answers of a line, and the sequencer's list -/

/-- The state of an answer, however far the line got. -/
def stateOf : Progress → State
  | .more s | .done s | .raised s => s

/-- An answer with its state changed. -/
def mapState (f : State → State) : Progress → Progress
  | .more s => .more (f s)
  | .done s => .done (f s)
  | .raised s => .raised (f s)

/-- The state with another list for the sequencer. -/
def onSeq (q : List Component) (s : State) : State := { s with seq := q }

@[simp] theorem onSeq_tree (q : List Component) (s : State) : (onSeq q s).tree = s.tree := rfl
@[simp] theorem onSeq_ct (q : List Component) (s : State) : (onSeq q s).ct = s.ct := rfl
@[simp] theorem onSeq_ctV (q : List Component) (s : State) : (onSeq q s).ctV = s.ctV := rfl
@[simp] theorem onSeq_cfg (q : List Component) (s : State) : (onSeq q s).cfg = s.cfg := rfl
@[simp] theorem onSeq_wt (q : List Component) (s : State) : (onSeq q s).wt = s.wt := rfl
@[simp] theorem onSeq_pq (q : List Component) (s : State) : (onSeq q s).pq = s.pq := rfl
@[simp] theorem onSeq_stack (q : List Component) (s : State) : (onSeq q s).stack = s.stack := rfl
@[simp] theorem onSeq_nodes (q : List Component) (s : State) : (onSeq q s).nodes = s.nodes := rfl

theorem onSeq_self {q : List Component} {s : State} (h : s.seq = q) : onSeq q s = s := by
  subst h; rfl

theorem outcomeOf_ended {p : Progress} (h : ∀ u, p ≠ .more u) : outcomeOf p = .next (endCommand (stateOf p)) := by
  cases p with
  | more u => exact absurd rfl (h u)
  | done u => rfl
  | raised u => rfl

/-- A line that has ended is taken off the list. -/
theorem settle_ended {p : Progress} (h : ∀ u, p ≠ .more u) (c : Component) (cs : List Component) :
    settle (mapState (onSeq (c :: cs)) p) = onSeq cs (stateOf p) := by
  cases p with
  | more u => exact absurd rfl (h u)
  | done u => rfl
  | raised u => rfl

/-- What a frame says of every answer, it says of the answer's state. -/
theorem stateOf_of_ends {P : State → Prop} {p : Progress} (h : Ends P P P p) : P (stateOf p) := by
  cases p <;> exact h

/-! ### The operations do not read the sequencer's list -/

theorem readUnit_onSeq (n : Nat) (q : List Component) (s : State) :
    readUnit n (onSeq q s) = ((readUnit n s).1, onSeq q (readUnit n s).2) := rfl

theorem writeUnit_onSeq (n v : Nat) (q : List Component) (s : State) :
    writeUnit n v (onSeq q s) = (writeUnit n v s).map (onSeq q) := by
  simp only [writeUnit, onSeq]
  cases s.snk.write n v <;> rfl

theorem spoilOutput_onSeq (c : Component) (q : List Component) (s : State) :
    spoilOutput c (onSeq q s) = onSeq q (spoilOutput c s) := by
  by_cases h : s.snk.bits = [] ∧ c.writesSink = false
  · rw [spoilOutput, spoilOutput, if_pos h, if_pos (by exact h)]
  · rw [spoilOutput, spoilOutput, if_neg h, if_neg (by exact h)]; rfl

theorem spoilWeights_onSeq (c : Component) (q : List Component) (s : State) :
    spoilWeights c (onSeq q s) = onSeq q (spoilWeights c s) := by
  unfold spoilWeights
  split <;> rfl

theorem raise_onSeq (c : Component) (k : ErrKind) (q : List Component) (s : State) :
    raise c k (onSeq q s) = onSeq q (raise c k s) := by
  rw [raise, show recordError c k (onSeq q s) = onSeq q (recordError c k s) from rfl, spoilWeights_onSeq,
    spoilOutput_onSeq, raise]

theorem emit_onSeq (t : Tree) (q : List Component) (s : State) : emit t (onSeq q s) = (emit t s).map (onSeq q) := by
  rcases Bool.eq_false_or_eq_true s.snk.finished with h | h
  · rw [emit_finished t h, emit_finished t (by exact h)]; rfl
  · rw [emit_open t s h, emit_open t _ (by exact h)]; rfl

theorem putCode_onSeq (code : Bits) (q : List Component) (s : State) :
    putCode code (onSeq q s) = (putCode code s).map (onSeq q) := by
  induction code generalizing s with
  | nil => rfl
  | cons b bs ih =>
    rw [putCode, putCode, writeUnit_onSeq]
    cases writeUnit 1 b.toNat s with
    | none => rfl
    | some t => exact ih t

/-! ### The turns of the loops do not read the sequencer's list -/

theorem cntByte_onSeq (q : List Component) (s : State) : cntByte (onSeq q s) = mapState (onSeq q) (cntByte s) := by
  rw [cntByte, cntByte, readUnit_onSeq]
  rcases readUnit 8 s with ⟨_ | v, t⟩
  · rfl
  · dsimp only
    rw [onSeq_wt, onSeq_cfg, raise_onSeq]
    split <;> rfl

theorem bldJoin_onSeq (q : List Component) (s : State) : bldJoin (onSeq q s) = mapState (onSeq q) (bldJoin s) := by
  rw [bldJoin, bldJoin, onSeq_pq, onSeq_cfg]
  rcases extractMin s.pq with _ | ⟨a, rest⟩
  · rfl
  · dsimp only
    rcases extractMin rest with _ | ⟨b, rest'⟩
    · rfl
    · dsimp only
      split
      · rw [raise_onSeq]; rfl
      · rfl

theorem putSymbol_onSeq (sym : Symbol) (q : List Component) (s : State) :
    putSymbol sym (onSeq q s) = mapState (onSeq q) (putSymbol sym s) := by
  rw [putSymbol, putSymbol, onSeq_ct]
  rcases ctGet sym s.ct with _ | code
  · rw [raise_onSeq]; rfl
  · dsimp only
    rw [putCode_onSeq, raise_onSeq]
    cases putCode code s <;> rfl

theorem encByte_onSeq (q : List Component) (s : State) : encByte (onSeq q s) = mapState (onSeq q) (encByte s) := by
  rw [encByte, encByte, readUnit_onSeq]
  rcases readUnit 8 s with ⟨_ | v, t⟩
  · dsimp only
    rw [putSymbol_onSeq]
    cases putSymbol eofSym t <;> rfl
  · exact putSymbol_onSeq _ q t

theorem landOn_onSeq (root n : Tree) (q : List Component) (s : State) :
    landOn root n (onSeq q s) = mapState (onSeq q) (landOn root n s) := by
  cases n with
  | leaf sym w =>
    by_cases h : sym = eofSym
    · rw [landOn, landOn, if_pos h, if_pos h]; rfl
    · rw [landOn, landOn, if_neg h, if_neg h]
      have hs : { onSeq q s with dstate := .emitted, cur := some (.leaf sym w) } =
          onSeq q { s with dstate := .emitted, cur := some (.leaf sym w) } := rfl
      rw [hs, writeUnit_onSeq, raise_onSeq]
      cases writeUnit 8 sym.val { s with dstate := .emitted, cur := some (.leaf sym w) } <;> rfl
  | node w l r => rfl

theorem decBit_onSeq (q : List Component) (s : State) : decBit (onSeq q s) = mapState (onSeq q) (decBit s) := by
  rw [decBit, decBit, onSeq_tree, readUnit_onSeq, raise_onSeq]
  rcases s.tree with _ | root
  · rfl
  · dsimp only
    rcases readUnit 1 s with ⟨_ | b, t⟩
    · exact congrArg Progress.raised (raise_onSeq _ _ q t)
    · cases root with
      | leaf sym w =>
        dsimp only
        split
        · exact congrArg Progress.raised (raise_onSeq _ _ q t)
        · exact landOn_onSeq _ _ q t
      | node w l r => exact landOn_onSeq _ _ q t

theorem completeSubtree_onSeq (t : Tree) (k : List Frame) (q : List Component) (s : State) :
    completeSubtree t k (onSeq q s) = mapState (onSeq q) (completeSubtree t k s) := by
  induction k generalizing t with
  | nil => rfl
  | cons f k ih =>
    cases f with
    | left => rfl
    | right l => exact ih (.node 0 l t)

theorem tokenLeaf_onSeq (field : BitVec 9) (q : List Component) (s : State) :
    tokenLeaf field (onSeq q s) = mapState (onSeq q) (tokenLeaf field s) := by
  by_cases h : field.toNat < 257
  · rw [tokenLeaf, tokenLeaf, dif_pos h, dif_pos h, onSeq_stack, completeSubtree_onSeq]
  · rw [tokenLeaf, tokenLeaf, dif_neg h, dif_neg h, raise_onSeq]; rfl

theorem tokenEffect_onSeq (i : Instr) (q : List Component) (s : State) :
    tokenEffect i (onSeq q s) = mapState (onSeq q) (tokenEffect i s) := by
  cases i
  case hdrL field => exact tokenLeaf_onSeq field q s
  all_goals rfl

theorem fetchToken_onSeq (q : List Component) (s : State) :
    fetchToken (onSeq q s) = ((fetchToken s).map (Prod.map id (onSeq q))).mapError (onSeq q) := by
  rw [fetchToken, fetchToken, readUnit_onSeq]
  rcases readUnit 1 s with ⟨_ | tag, t⟩
  · exact congrArg Except.error (raise_onSeq _ _ q t)
  · dsimp only
    rw [onSeq_nodes, raise_onSeq]
    split
    · rfl
    · split
      · rfl
      · have ht : { onSeq q t with nodes := t.nodes + 1 } = onSeq q { t with nodes := t.nodes + 1 } := rfl
        rw [ht, readUnit_onSeq]
        rcases readUnit 9 { t with nodes := t.nodes + 1 } with ⟨_ | field, u⟩
        · exact congrArg Except.error (raise_onSeq _ _ q u)
        · rfl

theorem headerToken_onSeq (q : List Component) (s : State) :
    headerToken (onSeq q s) = mapState (onSeq q) (headerToken s) := by
  rw [headerToken, headerToken, fetchToken_onSeq]
  rcases fetchToken s with t | ⟨i, t⟩
  · rfl
  · exact tokenEffect_onSeq i q t

/-! ### A turn that goes on raises no error -/

theorem cntByte_more_err {s t : State} (h : cntByte s = .more t) : t.err = s.err := by
  rcases cntByte_cases s with ⟨-, e⟩ | ⟨-, v, -, ⟨-, e⟩ | ⟨-, e⟩⟩ <;> rw [e] at h <;> cases h
  rfl

theorem bldJoin_more_err {s t : State} (h : bldJoin s = .more t) : t.err = s.err := by
  rcases bldJoin_cases s with ⟨-, e⟩ | ⟨a, rest, -, ⟨-, e⟩ | ⟨b, rest', -, ⟨-, e⟩ | ⟨-, e⟩⟩⟩ <;> rw [e] at h <;> cases h
  rfl

theorem encByte_more_err {s t : State} (h : encByte s = .more t) : t.err = s.err := by
  rcases encByte_cases s with ⟨-, ⟨u, -, e⟩ | ⟨u, -, e⟩⟩ | ⟨-, e⟩ <;> rw [e] at h
  · cases h
  · cases h
  · rcases putSymbol_cases _ (atPos (s.src.pos + 8) s) with ⟨-, e'⟩ | ⟨c, -, ⟨-, -, e'⟩ | ⟨-, e'⟩⟩ <;>
      rw [e'] at h <;> cases h
    rfl

theorem landOn_more_err {root n : Tree} {s t : State} (h : landOn root n s = .more t) : t.err = s.err := by
  rcases landOn_cases root n s with ⟨w, -, e⟩ | ⟨sym, w, -, -, ⟨-, e⟩ | ⟨-, e⟩⟩ | ⟨w, l, r, -, e⟩ <;>
    rw [e] at h <;> cases h <;> rfl

theorem decBit_more_err {s t : State} (h : decBit s = .more t) : t.err = s.err := by
  cases ht : s.tree with
  | none => simp [decBit, ht] at h
  | some root =>
    rcases decBit_cases ht with ⟨-, e⟩ | ⟨-, b, -, ⟨sym, w, -, ⟨-, e⟩ | ⟨-, e⟩⟩ | ⟨w, l, r, -, e⟩⟩ <;> rw [e] at h
    · cases h
    · cases h
    · exact (landOn_more_err h :)
    · exact (landOn_more_err h :)

theorem tokenEffect_more_err {i : Instr} {s t : State} (h : tokenEffect i s = .more t) : t.err = s.err := by
  cases i
  case hdrL field =>
    rcases tokenLeaf_cases field s with ⟨-, e⟩ | ⟨hlt, e⟩ <;> rw [tokenEffect, e] at h
    · cases h
    · rcases completeSubtree_cases (.leaf ⟨_, hlt⟩ 0) s.stack s with ⟨u, e'⟩ | ⟨k, e'⟩ <;> rw [e'] at h <;> cases h
      rfl
  all_goals cases h; rfl

/-- A token that is fetched is HDR-I or HDR-L, and fetching it raises no error (R94, R95). -/
theorem fetchToken_ok {s t : State} {i : Instr} (h : fetchToken s = .ok (i, t)) :
    (i = .hdrI ∨ ∃ field, i = .hdrL field) ∧ t.err = s.err := by
  rcases fetchToken_cases s with ⟨-, e⟩ | ⟨-, ⟨-, e⟩ | ⟨-, ⟨-, e⟩ | ⟨-, ⟨-, e⟩ | ⟨-, e⟩⟩⟩⟩ <;> rw [e] at h <;> cases h
  · exact ⟨.inl rfl, rfl⟩
  · exact ⟨.inr ⟨_, rfl⟩, rfl⟩

theorem headerToken_more_err {s t : State} (h : headerToken s = .more t) : t.err = s.err := by
  cases e : fetchToken s with
  | error u => rw [headerToken, e] at h; cases h
  | ok p =>
    rw [headerToken, e] at h
    exact (tokenEffect_more_err h).trans (fetchToken_ok e).2

/-! ### Runs of small steps -/

/-- Some number of the engine's small steps leads from `s` to `t`. -/
def Reaches (s t : State) : Prop := ∃ k, engineRun k s = .next t

theorem Reaches.refl (s : State) : Reaches s s := ⟨0, rfl⟩

theorem Reaches.head {s t u : State} (h : engineStep s = .next t) (ht : Reaches t u) : Reaches s u := by
  obtain ⟨k, hk⟩ := ht
  exact ⟨k + 1, by rw [engineRun, h]; exact hk⟩

theorem Reaches.single {s t : State} (h : engineStep s = .next t) : Reaches s t := .head h (.refl t)

theorem Reaches.trans {s t u : State} (h : Reaches s t) (ht : Reaches t u) : Reaches s u := by
  obtain ⟨k, hk⟩ := h
  induction k generalizing s with
  | zero => cases hk; exact ht
  | succ k ih =>
    rw [engineRun] at hk
    cases hs : engineStep s with
    | next v => rw [hs] at hk; exact .head hs (ih hk)
    | fault f => rw [hs] at hk; cases hk
    | refused r => rw [hs] at hk; cases hk

/-- The small step of a busy engine whose line on top is not skipped (R220). -/
theorem engineStep_line {c : Component} {cs : List Component} {s : State} (hb : s.busy = true)
    (hr : s.err = .none ∨ c.runsUnderError = true) :
    engineStep (onSeq (c :: cs) s) = lineStep c (onSeq (c :: cs) s) := by
  rcases hr with h | h <;> simp [engineStep, onSeq, hb, h]

/-- A line after an error is skipped (R222, R226). -/
theorem engineStep_skip {c : Component} {cs : List Component} {s : State} (hb : s.busy = true)
    (h : s.err ≠ .none ∧ c.runsUnderError = false) : engineStep (onSeq (c :: cs) s) = .next (onSeq cs s) := by
  simp [engineStep, onSeq, hb, h]

/-- With no line left the command ends (R220). -/
theorem engineStep_end {s : State} (hb : s.busy = true) : engineStep (onSeq [] s) = .next (endCommand (onSeq [] s)) := by
  simp [engineStep, onSeq, hb]

/-- The token that RDH's small step fetches has, as an instruction, the effect it has inside RDH (log entry 4). -/
theorem lineStep_header {s : State} (hb : s.busy = true) (hq : s.seq.head? = some .header) :
    lineStep .header s = .next (settle (headerToken s)) := by
  rw [lineStep, headerToken]
  cases e : fetchToken s with
  | error t => rfl
  | ok p =>
    obtain ⟨i, t⟩ := p
    have hf := (fetchToken_frame s).2 i t e
    have hrd : readingHeader t = true := by simp [readingHeader, hf.busy, hf.seq, hb, hq]
    rcases (fetchToken_ok e).1 with rfl | ⟨field, rfl⟩
    · simp [exec, execHdrI, hrd, tokenEffect]
    · simp [exec, execHdrL, hrd, tokenEffect]

/-! ### The loops -/

/-- The line `c` of the sequencer's list takes its small steps by turns of the loop `body`; a turn does not read the list,
leaves unchanged what the line does, and raises no error when it goes on. -/
structure IsLoopOf (c : Component) (body : State → Progress) : Prop where
  step : ∀ cs s, s.busy = true → lineStep c (onSeq (c :: cs) s) = .next (settle (body (onSeq (c :: cs) s)))
  commutes : ∀ q s, body (onSeq q s) = mapState (onSeq q) (body s)
  frame : ∀ s, Ends (LineFrame c s) (LineFrame c s) (LineFrame c s) (body s)
  err : ∀ s t, body s = .more t → t.err = s.err

theorem cntByte_isLoop : IsLoopOf .cntLoop cntByte :=
  ⟨fun _ _ _ => rfl, cntByte_onSeq, cntByte_frame, fun _ _ => cntByte_more_err⟩

theorem bldJoin_isLoop : IsLoopOf .bldLoop bldJoin :=
  ⟨fun _ _ _ => rfl, bldJoin_onSeq, bldJoin_frame, fun _ _ => bldJoin_more_err⟩

theorem encByte_isLoop : IsLoopOf .encLoop encByte :=
  ⟨fun _ _ _ => rfl, encByte_onSeq, encByte_frame, fun _ _ => encByte_more_err⟩

theorem decBit_isLoop : IsLoopOf .decLoop decBit :=
  ⟨fun _ _ _ => rfl, decBit_onSeq, decBit_frame, fun _ _ => decBit_more_err⟩

theorem headerToken_isLoop : IsLoopOf .header headerToken :=
  ⟨fun _ _ hb => lineStep_header hb rfl, headerToken_onSeq, headerToken_frame, fun _ _ => headerToken_more_err⟩

/-- The turns of a loop that ends, taken as small steps, lead to the loop's end with its line off the list. -/
theorem loop_reaches {c : Component} {body : State → Progress} (hloop : IsLoopOf c body) (cs : List Component) :
    ∀ n s, s.busy = true → s.err = .none → (∀ u, iterate body n s ≠ .more u) →
      Reaches (onSeq (c :: cs) s) (onSeq cs (stateOf (iterate body n s)))
  | 0, s, _, _, hends => absurd rfl (hends s)
  | n + 1, s, hb, he, hends => by
    have hstep : engineStep (onSeq (c :: cs) s) = .next (settle (mapState (onSeq (c :: cs)) (body s))) := by
      rw [engineStep_line hb (.inl he), hloop.step cs s hb, hloop.commutes]
    cases hbody : body s with
    | more t =>
      rw [iterate_more hbody] at hends ⊢
      rw [hbody] at hstep
      have hf := hloop.frame s
      rw [hbody] at hf
      exact .head hstep
        (loop_reaches hloop cs n t (hf.busy.trans hb) ((hloop.err s t hbody).trans he) hends)
    | done t =>
      rw [iterate_done hbody]
      rw [hbody] at hstep
      exact .single hstep
    | raised t =>
      rw [iterate_raised hbody]
      rw [hbody] at hstep
      exact .single hstep

/-! ### The lines without a loop do not read the sequencer's list -/

theorem genRule_onSeq (q : List Component) (s : State) : genRule (onSeq q s) = mapState (onSeq q) (genRule s) := by
  rw [genRule, genRule, onSeq_tree]
  cases s.tree <;> rfl

theorem wrmRule_onSeq (q : List Component) (s : State) : wrmRule (onSeq q s) = mapState (onSeq q) (wrmRule s) := by
  rw [wrmRule, wrmRule, onSeq_cfg, writeUnit_onSeq, raise_onSeq]
  cases writeUnit 32 s.cfg.magic.toNat s <;> rfl

theorem wrhRule_onSeq (q : List Component) (s : State) : wrhRule (onSeq q s) = mapState (onSeq q) (wrhRule s) := by
  rw [wrhRule, wrhRule, onSeq_tree, raise_onSeq]
  rcases s.tree with _ | t
  · rfl
  · dsimp only
    rw [emit_onSeq]
    cases emit t s <;> rfl

theorem rdmRule_onSeq (q : List Component) (s : State) : rdmRule (onSeq q s) = mapState (onSeq q) (rdmRule s) := by
  rw [rdmRule, rdmRule, readUnit_onSeq]
  rcases readUnit 32 s with ⟨_ | m, t⟩
  · exact congrArg Progress.raised (raise_onSeq _ _ q t)
  · dsimp only
    rw [onSeq_cfg, raise_onSeq]
    split <;> rfl

/-! ### A line -/

/-- A line that runs whole in one small step. -/
theorem line_reaches_of_step {c : Component} {cs : List Component} {s : State} (hb : s.busy = true)
    (hr : s.err = .none ∨ c.runsUnderError = true)
    (hstep : lineStep c (onSeq (c :: cs) s) = .next (settle (mapState (onSeq (c :: cs)) (lineRule c s)))) :
    Reaches (onSeq (c :: cs) s) (onSeq cs (stateOf (lineRule c s))) := by
  rw [← settle_ended (lineRule_ends c s)]
  exact .single ((engineStep_line hb hr).trans hstep)

/-- A line that goes on as the loop `d` after its first small step. -/
theorem line_reaches_of_loop {c d : Component} {body : State → Progress} (hloop : IsLoopOf d body)
    {cs : List Component} {s t : State} {n : Nat} (hb : s.busy = true) (he : s.err = .none)
    (hstep : lineStep c (onSeq (c :: cs) s) = .next (onSeq (d :: cs) t)) (htb : t.busy = s.busy) (hte : t.err = s.err)
    (hrule : lineRule c s = iterate body n t) :
    Reaches (onSeq (c :: cs) s) (onSeq cs (stateOf (lineRule c s))) := by
  have hends := lineRule_ends c s
  rw [hrule] at hends ⊢
  exact .head ((engineStep_line hb (.inl he)).trans hstep)
    (loop_reaches hloop cs n t (htb.trans hb) (hte.trans he) hends)

/-- The small steps of a line that is not skipped lead to where the line, run to its end, leads. -/
theorem line_reaches {c : Component} {cs : List Component} {s : State} (hb : s.busy = true)
    (hr : s.err = .none ∨ c.runsUnderError = true) :
    Reaches (onSeq (c :: cs) s) (onSeq cs (stateOf (lineRule c s))) := by
  have he : c.runsUnderError = false → s.err = .none := fun h => hr.resolve_right (by simp [h])
  cases c with
  | resetCall => exact line_reaches_of_step hb hr rfl
  | clr => exact line_reaches_of_step hb hr rfl
  | illegal => exact line_reaches_of_step hb hr rfl
  | gen => exact line_reaches_of_step hb hr (by rw [lineStep, genRule_onSeq, lineRule])
  | wrm => exact line_reaches_of_step hb hr (by rw [lineStep, wrmRule_onSeq, lineRule])
  | wrh => exact line_reaches_of_step hb hr (by rw [lineStep, wrhRule_onSeq, lineRule])
  | rdm => exact line_reaches_of_step hb hr (by rw [lineStep, rdmRule_onSeq, lineRule])
  | rwd => exact line_reaches_of_step hb hr rfl
  | fin => exact line_reaches_of_step hb hr rfl
  | cntLoop => exact loop_reaches cntByte_isLoop cs _ s hb (he rfl) (cntLoop_ends s)
  | bldLoop => exact loop_reaches bldJoin_isLoop cs _ s hb (he rfl) (bldLoop_ends s)
  | encLoop => exact loop_reaches encByte_isLoop cs _ s hb (he rfl) (encLoop_ends s)
  | header => exact loop_reaches headerToken_isLoop cs _ s hb (he rfl) (headerLoop_ends s)
  | decLoop => exact loop_reaches decBit_isLoop cs _ s hb (he rfl) (decLoop_ends s)
  | cnt => exact line_reaches_of_loop cntByte_isLoop (t := cntStart s) hb (he rfl) rfl rfl rfl rfl
  | bld => exact line_reaches_of_loop bldJoin_isLoop (t := bldStart s) hb (he rfl) rfl rfl rfl rfl
  | rdh => exact line_reaches_of_loop headerToken_isLoop (t := rdhStart s) hb (he rfl) rfl rfl rfl rfl
  | enc =>
    rcases hv : s.ctV with _ | _
    · exact line_reaches_of_step hb hr (by rw [lineStep, lineRule, encRule, onSeq_ctV, hv]; rfl)
    · exact line_reaches_of_loop encByte_isLoop (t := s) hb (he rfl) (by rw [lineStep, onSeq_ctV, hv]; rfl) rfl rfl
        (by rw [lineRule, encRule, if_pos hv, encLoop])
  | dec =>
    rcases ht : s.tree with _ | root
    · exact line_reaches_of_step hb hr (by rw [lineStep, lineRule, decRule, onSeq_tree, ht]; rfl)
    · exact line_reaches_of_loop decBit_isLoop (t := decStart root s) hb (he rfl) (by rw [lineStep, onSeq_tree, ht]; rfl)
        rfl rfl (by rw [lineRule, decRule, ht]; rfl)

/-! ### The lines of a command -/

/-- The first line of a list is skipped after an error, or run; the others follow, however it ended (R222, R226). -/
theorem runLines_cons (c : Component) (cs : List Component) (s : State) :
    ((s.err ≠ .none ∧ c.runsUnderError = false) ∧ runLines (c :: cs) s = runLines cs s) ∨
    ((s.err = .none ∨ c.runsUnderError = true) ∧ runLines (c :: cs) s = runLines cs (stateOf (lineRule c s))) := by
  by_cases h : s.err ≠ .none ∧ c.runsUnderError = false
  · exact .inl ⟨h, by rw [runLines, if_pos h]⟩
  · refine .inr ⟨by cases hc : c.runsUnderError <;> simp_all, ?_⟩
    rw [runLines, if_neg h]
    cases hl : lineRule c s with
    | more t => exact absurd hl (lineRule_ends c s t)
    | done t => rfl
    | raised t => rfl

theorem stateOf_lineRule_frame (c : Component) (s : State) : LineFrame c s (stateOf (lineRule c s)) :=
  stateOf_of_ends (lineRule_frame c s)

/-- The atomic run of a command's lines leaves the sequencer's list alone. -/
theorem runLines_seq (cs : List Component) (s : State) : (stateOf (runLines cs s)).seq = s.seq := by
  induction cs generalizing s with
  | nil => rfl
  | cons c cs ih =>
    rcases runLines_cons c cs s with ⟨-, e⟩ | ⟨-, e⟩ <;> rw [e, ih]
    exact (stateOf_lineRule_frame c s).seq

/-- The small steps of a list of lines lead to where the lines lead, and end the command (R220). -/
theorem runLines_reaches (cs : List Component) (s : State) (hb : s.busy = true) :
    Reaches (onSeq cs s) (endCommand (onSeq [] (stateOf (runLines cs s)))) := by
  induction cs generalizing s with
  | nil => exact .single (engineStep_end hb)
  | cons c cs ih =>
    rcases runLines_cons c cs s with ⟨h, e⟩ | ⟨h, e⟩ <;> rw [e]
    · exact .head (engineStep_skip hb h) (ih s hb)
    · exact (line_reaches hb h).trans (ih _ ((stateOf_lineRule_frame c s).busy.trans hb))

/-! ### A command -/

/-- A command of one line runs the list of that line. -/
theorem runCommand_line {i : Instr} {c : Component} (h : runsUnderError i = c.runsUnderError) (s : State) :
    runCommand i (lineRule c) s = runCommand i (runLines [c]) s := by
  rcases hb : s.busy with _ | _
  · by_cases hi : s.err ≠ .none ∧ runsUnderError i = false
    · rw [runCommand_ignored hb hi.1 hi.2, runCommand_ignored hb hi.1 hi.2]
    · have hr : s.err = .none ∨ runsUnderError i = true := by cases hc : runsUnderError i <;> simp_all
      rw [runCommand_runs hb hr, runCommand_runs hb hr, outcomeOf_ended (lineRule_ends c _)]
      rcases runLines_cons c [] (beginCommand i s) with ⟨⟨he, hc⟩, -⟩ | ⟨-, e⟩
      · exact absurd ⟨he, h.trans hc⟩ hi
      · rw [e]; rfl
  · rw [runCommand_busy hb, runCommand_busy hb]

/-- Every command runs the lines that the sequencer's list would hold for it, in the frame of R220. -/
theorem exec_eq_runLines {i : Instr} (h : i.format = .cmd) (s : State) :
    exec i s = runCommand i (runLines (linesOf i)) s := by
  cases i with
  | nop => rfl
  | cmp => rfl
  | dcm => rfl
  | hdrI => cases h
  | hdrL field => cases h
  | cnt => exact runCommand_line (c := .cnt) rfl s
  | bld => exact runCommand_line (c := .bld) rfl s
  | gen => exact runCommand_line (c := .gen) rfl s
  | wrm => exact runCommand_line (c := .wrm) rfl s
  | wrh => exact runCommand_line (c := .wrh) rfl s
  | enc => exact runCommand_line (c := .enc) rfl s
  | rdm => exact runCommand_line (c := .rdm) rfl s
  | rdh => exact runCommand_line (c := .rdh) rfl s
  | dec => exact runCommand_line (c := .dec) rfl s
  | rwd => exact runCommand_line (c := .rwd) rfl s
  | fin => exact runCommand_line (c := .fin) rfl s
  | clr => exact runCommand_line (c := .clr) rfl s
  | illegal0F => exact runCommand_line (c := .illegal) rfl s
  | illegalHi word => exact runCommand_line (c := .illegal) rfl s

/-- A command word is never a header token (R93). -/
theorem decodeCommand_format (w : Byte) : (decodeCommand w).format = .cmd := by
  have htable : ∀ p ∈ commandTable, p.2.format = .cmd := by decide
  cases h : commandTable.lookup w.toNat with
  | none => rw [decodeCommand, h]; rfl
  | some i =>
    obtain ⟨l₁, l₂, hl, -⟩ := List.lookup_eq_some_iff.mp h
    rw [decodeCommand, h]
    exact htable (w.toNat, i) (by simp [hl])

/-- A command that is started and ignored after an error has no line to run (R249). -/
theorem startCommand_ignored {w : Byte} {s : State} (hb : s.busy = false)
    (h : s.err ≠ .none ∧ runsUnderError (decodeCommand w) = false) :
    startCommand w s = onSeq [] (beginCommand (decodeCommand w) s) := by
  simp [startCommand, hb, h, onSeq]

/-- A command that is started and not ignored has its lines to run (R220). -/
theorem startCommand_runs {w : Byte} {s : State} (hb : s.busy = false)
    (h : s.err = .none ∨ runsUnderError (decodeCommand w) = true) :
    startCommand w s = onSeq (linesOf (decodeCommand w)) (beginCommand (decodeCommand w) s) := by
  rcases h with h | h <;> simp [startCommand, hb, h, onSeq]

/-- Settles O60: the small steps of the command's lines, followed to `DONE`, lead to where the atomic run of the same lines
leads; a clean idle engine has an empty list, which is what the steps leave. -/
theorem atomicCommandIsTheRunOfItsSteps : Obligations.AtomicCommandIsTheRunOfItsSteps := by
  intro s t w hidle hclean hexec
  have hseq : s.seq = [] := hclean.1 hidle
  rw [exec_eq_runLines (decodeCommand_format w)] at hexec
  rcases runCommand_next hexec with ⟨hbusy, -⟩ | ⟨-, he, hi, rfl⟩ | ⟨-, hr, u, hu, rfl⟩
  · exact absurd (hidle.symm.trans hbusy) (by decide)
  · rw [startCommand_ignored hidle ⟨he, hi⟩, ← end_begin, ← onSeq_self (s := beginCommand _ s) hseq]
    exact Reaches.single (engineStep_end rfl)
  · have hrun := runLines_reaches (linesOf (decodeCommand w)) (beginCommand (decodeCommand w) s) rfl
    have hlist : (stateOf (runLines (linesOf (decodeCommand w)) (beginCommand (decodeCommand w) s))).seq = [] :=
      (runLines_seq _ _).trans hseq
    rw [onSeq_self hlist] at hrun
    rw [startCommand_runs hidle hr]
    rcases hu with hu | hu <;> rw [hu] at hrun <;> exact hrun

end Sys2Proof.Proofs
end

section
/-! SUPPORT. What one step of the machine can do, once (R8, R105, R220). The engine's small steps and the atomic
commands are made of the same pieces: a line opens its loop (`opens`), and takes turns (`turnOf`); `Turn` says every way a
turn can go. -/

namespace Sys2Proof.Proofs

open Sys2Proof.Machine Sys2Proof.Laws

/-! ### The pieces of a line -/

/-- The first part of a line with a loop: the line inside the command that it goes on as, and the state before the loop. -/
def opens : Component → State → Option (Component × State)
  | .cnt, s => some (.cntLoop, cntStart s)
  | .bld, s => some (.bldLoop, bldStart s)
  | .rdh, s => some (.header, rdhStart s)
  | .enc, s => if s.ctV then some (.encLoop, s) else none
  | .dec, s => s.tree.map fun root => (.decLoop, decStart root s)
  | _, _ => none

/-- One turn of a line inside its command; any other line, which takes a single turn, runs to its end. -/
def turnOf : Component → State → Progress
  | .cntLoop, s => cntByte s
  | .bldLoop, s => bldJoin s
  | .encLoop, s => encByte s
  | .header, s => headerToken s
  | .decLoop, s => decBit s
  | c, s => lineRule c s

theorem opens_cases {c d : Component} {s t : State} (h : opens c s = some (d, t)) :
    (c = .cnt ∧ d = .cntLoop ∧ t = cntStart s) ∨ (c = .bld ∧ d = .bldLoop ∧ t = bldStart s) ∨
    (c = .rdh ∧ d = .header ∧ t = rdhStart s) ∨ (c = .enc ∧ d = .encLoop ∧ s.ctV = true ∧ t = s) ∨
    (c = .dec ∧ d = .decLoop ∧ ∃ root, s.tree = some root ∧ t = decStart root s) := by
  cases c with
  | cnt => cases h; exact .inl ⟨rfl, rfl, rfl⟩
  | bld => cases h; exact .inr (.inl ⟨rfl, rfl, rfl⟩)
  | rdh => cases h; exact .inr (.inr (.inl ⟨rfl, rfl, rfl⟩))
  | enc =>
    rw [opens] at h
    split at h <;> cases h
    exact .inr (.inr (.inr (.inl ⟨rfl, rfl, ‹_›, rfl⟩)))
  | dec =>
    obtain ⟨root, hroot, e⟩ := Option.map_eq_some_iff.mp h
    cases e
    exact .inr (.inr (.inr (.inr ⟨rfl, rfl, root, hroot, rfl⟩)))
  | _ => cases h

/-- Opening a loop keeps what the small step of the line keeps, and records no error. -/
theorem opens_frame {c d : Component} {s t : State} (h : opens c s = some (d, t)) :
    c.inside = false ∧ d.inside = true ∧ c.runsUnderError = false ∧
    t.busy = s.busy ∧ t.err = s.err ∧ t.seq = s.seq ∧ t.cfg = s.cfg := by
  rcases opens_cases h with ⟨rfl, rfl, rfl⟩ | ⟨rfl, rfl, rfl⟩ | ⟨rfl, rfl, rfl⟩ | ⟨rfl, rfl, -, rfl⟩ |
    ⟨rfl, rfl, root, -, rfl⟩ <;> exact ⟨rfl, rfl, rfl, rfl, rfl, rfl, rfl⟩

/-- A line inside its command has opened its loop already. -/
theorem opens_inside {c : Component} (h : c.inside = true) (s : State) : opens c s = none := by
  cases c <;> simp [Component.inside] at h <;> rfl

/-- A line runs to its end as its loop, if it opens one. -/
theorem lineRule_of_opens {c d : Component} {s t : State} (h : opens c s = some (d, t)) :
    ∃ n, lineRule c s = iterate (turnOf d) n t := by
  rcases opens_cases h with ⟨rfl, rfl, rfl⟩ | ⟨rfl, rfl, rfl⟩ | ⟨rfl, rfl, rfl⟩ | ⟨rfl, rfl, hv, rfl⟩ |
    ⟨rfl, rfl, root, ht, rfl⟩
  · exact ⟨_, rfl⟩
  · exact ⟨_, rfl⟩
  · exact ⟨_, rfl⟩
  · exact ⟨_, by rw [lineRule, encRule, if_pos hv]; rfl⟩
  · exact ⟨_, by rw [lineRule, decRule, ht]; rfl⟩

/-- A line that is not inside its command takes a single turn, if it opens no loop. -/
theorem turnOf_outside {c : Component} (h : c.inside = false) (s : State) : turnOf c s = lineRule c s := by
  cases c <;> simp [Component.inside] at h <;> rfl

/-- The small step of a line opens its loop. -/
theorem lineStep_of_opens {c d : Component} {s t : State} (h : opens c s = some (d, t)) :
    lineStep c s = .next (proceedAs d t) := by
  rcases opens_cases h with ⟨rfl, rfl, rfl⟩ | ⟨rfl, rfl, rfl⟩ | ⟨rfl, rfl, rfl⟩ | ⟨rfl, rfl, hv, rfl⟩ |
    ⟨rfl, rfl, root, ht, rfl⟩
  · rfl
  · rfl
  · rfl
  · rw [lineStep, if_pos hv]
  · rw [lineStep, ht]

/-- ENC that opens no loop has no code table (R181, R246). -/
theorem turnOf_enc_refused {s : State} (h : opens .enc s = none) : turnOf .enc s = .raised (refuseCommand s) := by
  have hv : ¬ s.ctV = true := fun hv => by simp [opens, hv] at h
  rw [turnOf_outside rfl, lineRule, encRule, if_neg hv]

/-- DEC that opens no loop has no tree (R191, R246). -/
theorem turnOf_dec_refused {s : State} (h : opens .dec s = none) : turnOf .dec s = .raised (refuseCommand s) := by
  have ht : s.tree = none := Option.map_eq_none_iff.mp h
  rw [turnOf_outside rfl, lineRule, decRule, ht]

/-- The small step of a line that opens no loop is a turn. -/
theorem lineStep_of_not_opens {c : Component} {s : State} (hb : s.busy = true) (hq : s.seq.head? = some c)
    (h : opens c s = none) : lineStep c s = .next (settle (turnOf c s)) := by
  cases c with
  | header => exact lineStep_header hb hq
  | cnt => cases h
  | bld => cases h
  | rdh => cases h
  | enc =>
    have hv : ¬ s.ctV = true := fun hv => by simp [opens, hv] at h
    rw [turnOf_enc_refused h, lineStep, if_neg hv]
  | dec =>
    have ht : s.tree = none := Option.map_eq_none_iff.mp h
    rw [turnOf_dec_refused h, lineStep, ht]
  | _ => rfl

/-- What a turn leaves unchanged, however it ends. -/
theorem turnOf_frame (c : Component) (s : State) :
    Ends (LineFrame c s) (LineFrame c s) (LineFrame c s) (turnOf c s) := by
  cases c with
  | cntLoop => exact cntByte_frame s
  | bldLoop => exact bldJoin_frame s
  | encLoop => exact encByte_frame s
  | header => exact headerToken_frame s
  | decLoop => exact decBit_frame s
  | _ => exact lineRule_frame _ s

/-- A turn that goes on is that of a loop, and raises no error. -/
theorem turnOf_more {c : Component} {s t : State} (h : turnOf c s = .more t) : c.inside = true ∧ t.err = s.err := by
  cases c with
  | cntLoop => exact ⟨rfl, cntByte_more_err h⟩
  | bldLoop => exact ⟨rfl, bldJoin_more_err h⟩
  | encLoop => exact ⟨rfl, encByte_more_err h⟩
  | header => exact ⟨rfl, headerToken_more_err h⟩
  | decLoop => exact ⟨rfl, decBit_more_err h⟩
  | _ =>
    rw [turnOf_outside rfl] at h
    exact absurd h (lineRule_ends _ s t)

/-! ### Every way a step can go -/

/-- Every way a small step of the engine can go: idle; the command ends; a line is skipped; a loop is opened; a turn. -/
theorem engineStep_next {s t : State} (h : engineStep s = .next t) :
    (s.busy = false ∧ t = s) ∨
    (s.busy = true ∧ s.seq = [] ∧ t = endCommand s) ∨
    (s.busy = true ∧ ∃ c cs, s.seq = c :: cs ∧
      ((s.err ≠ .none ∧ t = onSeq cs s) ∨
       ((s.err = .none ∨ c.runsUnderError = true) ∧
         ((∃ d u, opens c s = some (d, u) ∧ t = proceedAs d u) ∨
          (opens c s = none ∧ t = settle (turnOf c s)))))) := by
  rcases hb : s.busy with _ | _
  · rw [engineStep_idle hb] at h
    cases h
    exact .inl ⟨rfl, rfl⟩
  · refine .inr ?_
    rw [engineStep, if_pos hb] at h
    cases hq : s.seq with
    | nil =>
      rw [hq] at h
      cases h
      exact .inl ⟨rfl, rfl, rfl⟩
    | cons c cs =>
      rw [hq] at h
      dsimp only at h
      refine .inr ⟨rfl, c, cs, rfl, ?_⟩
      split at h
      · cases h
        exact .inl ⟨‹s.err ≠ _ ∧ _›.1, rfl⟩
      · next hr =>
        refine .inr ⟨by cases hc : c.runsUnderError <;> simp_all, ?_⟩
        cases ho : opens c s with
        | none =>
          rw [lineStep_of_not_opens hb (by rw [hq]; rfl) ho] at h
          cases h
          exact .inr ⟨rfl, rfl⟩
        | some p =>
          rw [lineStep_of_opens (d := p.1) (t := p.2) ho] at h
          cases h
          exact .inl ⟨_, _, rfl, rfl⟩

/-- What a step does once it has taken the host's next action, if there is one, off the list: the engine advances; a command
runs; a command is started; or the host accesses a port, a weight, the reset, or reads. -/
inductive StepKind (s t : State) : Prop where
  | engine (h : engineStep s = .next t)
  | command (w : Byte) (h : exec (decodeCommand w) s = .next t)
  | start (w : Byte) (h : t = startCommand w s)
  | attach (bytes : List Byte) (idle : s.busy = false)
      (h : t = { s with src := { bits := bitsOfBytes bytes, pos := 0 }, snk := { bits := [], finished := false } })
  | weight (sym : Symbol) (v : Nat) (h : t = hostWriteWt sym v s)
  | reset (h : t = hostReset s)
  | read (r : Option HostValue) (n : Nat) (h : t = { s with hostRead := r, fresh := n })

/-- Every way a step can go. -/
theorem step_next {s t : State} (h : step s = .next t) : ∃ rest, StepKind { s with host := rest } t := by
  cases hh : s.host with
  | nil =>
    rw [step_nil hh, show s = { s with host := [] } by rw [← hh]] at h
    exact ⟨[], .engine h⟩
  | cons a rest =>
    rw [step_cons hh] at h
    refine ⟨rest, ?_⟩
    cases a with
    | cmd w => exact .command w h
    | writeReg n v =>
      cases h
      unfold hostWriteReg
      split
      · exact .start _ rfl
      · exact .read _ _ rfl
    | readReg n => cases h; exact .read _ _ rfl
    | engine => exact .engine h
    | attach bytes =>
      rw [hostAct, attachPorts] at h
      split at h
      · cases h
      · next hb => cases h; exact .attach bytes (Bool.eq_false_iff.mpr hb) rfl
    | writeWt sym v => cases h; exact .weight sym v rfl
    | readWt sym =>
      cases h
      unfold hostReadWt
      split <;> exact .read _ _ rfl
    | readCt sym =>
      cases h
      unfold hostReadCt
      split <;> exact .read _ _ rfl
    | takeOutput =>
      cases h
      rcases hostTakeOutput_cases { s with host := rest } with ⟨-, -, e⟩ | ⟨-, bytes, e⟩ <;> rw [e]
      · exact .read _ _ rfl
      · exact .read _ _ rfl
    | reset => cases h; exact .reset rfl

/-! ### Every way a turn can go -/

/-- A cursor that has stayed, or was moved to within the source (R40, R61). -/
def Within (s : State) (p : Nat) : Prop := p = s.src.pos ∨ p ≤ s.src.bits.length

/-- Every way a turn of a line that opens no loop can go. -/
inductive Turn (s : State) : Component → Progress → Prop where
  /-- A line that ends the call (R39). -/
  | resetCall : Turn s .resetCall (.done (resetCall s))
  /-- CLR (R211). -/
  | clr : Turn s .clr (.done (clearError s))
  /-- An illegal word or a failed precondition (R93, R246). -/
  | refused {c : Component} (hc : c.inside = false) : Turn s c (.raised (refuseCommand s))
  /-- An error raised by the line after what it has read (R247). -/
  | failed {c : Component} {k : ErrKind} {p n : Nat} {d : DState} {cur : Option Tree} (hk : k ≠ .none) (hp : Within s p)
      (hd : d = s.dstate ∨ c = .decLoop) :
      Turn s c (.raised (raise c k { atPos p s with nodes := n, dstate := d, cur := cur }))
  /-- The end of CNT's input, the magic of RDM, or the rewound source (R121, R214, R216). -/
  | moved {c : Component} {p : Nat} (hc : c ∈ [Component.cntLoop, .rdm, .rwd]) (hp : Within s p) :
      Turn s c (.done (atPos p s))
  /-- A byte counted (R121). -/
  | counted {p : Nat} (v : Byte) (hp : Within s p) (hv : s.wt[v.toNat] ≠ wMax s.cfg) :
      Turn s .cntLoop (.more { atPos p s with wt := s.wt.set v.toNat (s.wt[v.toNat] + 1) })
  /-- BLD without a node, which never arises (log entry 20). -/
  | noNode (hq : s.pq = []) : Turn s .bldLoop (.done s)
  /-- The one node left is the tree (R131). -/
  | root {a : Tree} (hq : s.pq = [a]) : Turn s .bldLoop (.done { s with tree := some a, pq := [] })
  /-- Two nodes joined (R131). -/
  | joined {a b : Tree} {rest : List Tree} (w : Nat) (hq : (a :: b :: rest).Perm s.pq) :
      Turn s .bldLoop (.more { s with pq := .node w a b :: rest })
  /-- The code table made (R151). -/
  | coded {t : Tree} (ht : s.tree = some t) : Turn s .gen (.done { s with ct := codesOf t, ctV := true })
  /-- Bits written to an open sink, or none at all, at the end of a line (R181, R161, R212). -/
  | wrote {c : Component} {p : Nat} {bits : Bits} (hc : c ∈ [Component.wrm, .wrh, .encLoop]) (hp : Within s p)
      (hs : s.snk.finished = false ∨ bits = []) :
      Turn s c (.done { atPos p s with snk := { s.snk with bits := s.snk.bits ++ bits } })
  /-- The code of a byte written (R181). -/
  | encoded {p : Nat} {bits : Bits} (hp : Within s p) (hs : s.snk.finished = false ∨ bits = []) :
      Turn s .encLoop (.more { atPos p s with snk := { s.snk with bits := s.snk.bits ++ bits } })
  /-- A token HDR-I read (R94, R165). -/
  | node {p : Nat} (hp : Within s p) (hn : s.nodes + 1 ≤ nodeCap) :
      Turn s .header (.more { atPos p s with nodes := s.nodes + 1, stack := .left :: s.stack })
  /-- A token HDR-L of a symbol read (R95, R165). -/
  | leaf {p : Nat} (sym : Symbol) (hp : Within s p) (hn : s.nodes + 1 ≤ nodeCap) :
      Turn s .header (completeSubtree (.leaf sym 0) s.stack { atPos p s with nodes := s.nodes + 1 })
  /-- A body bit that leads to an internal node (R193). -/
  | walked {p : Nat} (n : Tree) (hp : Within s p) : Turn s .decLoop (.more { atPos p s with cur := some n })
  /-- A byte decoded (R195). -/
  | emitted {p : Nat} {bits : Bits} (root : Tree) (hp : Within s p) (hs : s.snk.finished = false) :
      Turn s .decLoop (.more
        { atPos p s with
          dstate := .walking, cur := some root, snk := { s.snk with bits := s.snk.bits ++ bits } })
  /-- The sentinel decoded (R195). -/
  | stopped {p : Nat} (hp : Within s p) : Turn s .decLoop (.done { atPos p s with dstate := .done, cur := none })
  /-- The sink finished (R65). -/
  | finished : Turn s .fin (.done (finishSink s))

theorem cntByte_turn (s : State) : Turn s .cntLoop (cntByte s) := by
  rcases cntByte_cases s with ⟨-, e⟩ | ⟨hp, v, -, ⟨-, e⟩ | ⟨hv, e⟩⟩ <;> rw [e]
  · exact .moved (by simp) (.inr le_rfl)
  · exact .failed (by decide) (.inr hp) (.inl rfl)
  · exact .counted v (.inr hp) hv

theorem bldJoin_turn (s : State) : Turn s .bldLoop (bldJoin s) := by
  rcases bldJoin_cases s with ⟨hq, e⟩ | ⟨a, rest, ha, ⟨hr, e⟩ | ⟨b, rest', hb, ⟨-, e⟩ | ⟨-, e⟩⟩⟩ <;> rw [e]
  · exact .noNode (extractMin_eq_none hq)
  · have hperm := extractMin_perm ha
    rw [extractMin_eq_none hr] at hperm
    exact .root (List.singleton_perm.mp hperm).symm
  · exact .failed (by decide) (.inl rfl) (.inl rfl)
  · exact .joined _ (((extractMin_perm hb).cons a).trans (extractMin_perm ha))

theorem encByte_turn (s : State) : Turn s .encLoop (encByte s) := by
  rcases encByte_cases s with ⟨-, h⟩ | ⟨hp, e⟩
  · rcases putSymbol_cases eofSym (atPos s.src.bits.length s) with ⟨-, e⟩ | ⟨code, -, ⟨-, -, e⟩ | ⟨hs, e⟩⟩ <;>
      rcases h with ⟨u, hu, e'⟩ | ⟨u, hu, e'⟩ <;> rw [e] at hu <;> cases hu <;> rw [e']
    · exact .failed (by decide) (.inr le_rfl) (.inl rfl)
    · exact .failed (by decide) (.inr le_rfl) (.inl rfl)
    · exact .wrote (by simp) (.inr le_rfl) hs
  · rw [e]
    rcases putSymbol_cases (BitVec.ofNat 8 (val (s.src.rest.take 8))).toFin.castSucc (atPos (s.src.pos + 8) s) with
      ⟨-, e⟩ | ⟨code, -, ⟨-, -, e⟩ | ⟨hs, e⟩⟩ <;> rw [e]
    · exact .failed (by decide) (.inr hp) (.inl rfl)
    · exact .failed (by decide) (.inr hp) (.inl rfl)
    · exact .encoded (.inr hp) hs

theorem headerToken_turn (s : State) : Turn s .header (headerToken s) := by
  rw [headerToken]
  rcases fetchToken_cases s with ⟨-, e⟩ | ⟨hp, ⟨-, e⟩ | ⟨hn, ⟨-, e⟩ | ⟨-, ⟨-, e⟩ | ⟨hp9, e⟩⟩⟩⟩ <;> rw [e]
  · exact .failed (by decide) (.inr le_rfl) (.inl rfl)
  · exact .failed (by decide) (.inr hp) (.inl rfl)
  · exact .node (.inr hp) hn
  · exact .failed (by decide) (.inr le_rfl) (.inl rfl)
  · dsimp only [tokenEffect]
    rcases tokenLeaf_cases (BitVec.ofNat 9 (val ((s.src.rest.drop 1).take 9)))
      { atPos (s.src.pos + 1 + 9) s with nodes := s.nodes + 1 } with ⟨-, e⟩ | ⟨hlt, e⟩ <;> rw [e]
    · exact .failed (by decide) (.inr hp9) (.inl rfl)
    · exact .leaf _ (.inr hp9) hn

theorem landOn_turn (root n : Tree) {p : Nat} {s : State} (hp : Within s p) :
    Turn s .decLoop (landOn root n (atPos p s)) := by
  rcases landOn_cases root n (atPos p s) with ⟨w, -, e⟩ | ⟨sym, w, -, -, ⟨-, e⟩ | ⟨hs, e⟩⟩ | ⟨w, l, r, -, e⟩ <;> rw [e]
  · exact .stopped hp
  · exact .failed (by decide) hp (.inr rfl)
  · exact .emitted root hp hs
  · exact .walked n hp

theorem decBit_turn (s : State) : Turn s .decLoop (decBit s) := by
  cases ht : s.tree with
  | none =>
    rw [decBit, ht]
    exact .failed (by decide) (.inl rfl) (.inl rfl)
  | some root =>
    rcases decBit_cases ht with ⟨-, e⟩ | ⟨hp, b, -, ⟨sym, w, -, ⟨-, e⟩ | ⟨-, e⟩⟩ | ⟨w, l, r, -, e⟩⟩ <;> rw [e]
    · exact .failed (by decide) (.inr le_rfl) (.inl rfl)
    · exact .failed (by decide) (.inr hp) (.inl rfl)
    · exact landOn_turn root root (.inr hp)
    · exact landOn_turn root _ (.inr hp)

theorem genRule_turn (s : State) : Turn s .gen (genRule s) := by
  unfold genRule
  split
  · exact .refused rfl
  · exact .coded ‹_›

theorem wrmRule_turn (s : State) : Turn s .wrm (wrmRule s) := by
  rw [wrmRule]
  rcases Bool.eq_false_or_eq_true s.snk.finished with h | h
  · rw [writeUnit_finished 32 _ h]; exact .failed (by decide) (.inl rfl) (.inl rfl)
  · rw [writeUnit_open 32 _ h]; exact .wrote (by simp) (.inl rfl) (.inl h)

theorem wrhRule_turn (s : State) : Turn s .wrh (wrhRule s) := by
  cases ht : s.tree with
  | none => rw [wrhRule, ht]; exact .refused rfl
  | some t =>
    rw [wrhRule, ht]
    dsimp only
    rcases Bool.eq_false_or_eq_true s.snk.finished with h | h
    · rw [emit_finished t h]; exact .failed (by decide) (.inl rfl) (.inl rfl)
    · rw [emit_open t s h]; exact .wrote (by simp) (.inl rfl) (.inl h)

theorem rdmRule_turn (s : State) : Turn s .rdm (rdmRule s) := by
  rw [rdmRule]
  rcases readUnit_cases 32 s with ⟨hp, e⟩ | ⟨-, e⟩ <;> rw [e]
  · dsimp only
    split
    · exact .moved (by simp) (.inr hp)
    · exact .failed (by decide) (.inr hp) (.inl rfl)
  · exact .failed (by decide) (.inr le_rfl) (.inl rfl)

/-- Every way a turn of a line that opens no loop can go. -/
theorem turnOf_turn {c : Component} {s : State} (h : opens c s = none) : Turn s c (turnOf c s) := by
  cases c with
  | cnt => cases h
  | bld => cases h
  | rdh => cases h
  | resetCall => exact .resetCall
  | clr => exact .clr
  | illegal => exact .refused rfl
  | cntLoop => exact cntByte_turn s
  | bldLoop => exact bldJoin_turn s
  | encLoop => exact encByte_turn s
  | header => exact headerToken_turn s
  | decLoop => exact decBit_turn s
  | gen => exact genRule_turn s
  | wrm => exact wrmRule_turn s
  | wrh => exact wrhRule_turn s
  | rdm => exact rdmRule_turn s
  | rwd => exact .moved (by simp) (.inr (Nat.zero_le _))
  | fin => exact .finished
  | enc => rw [turnOf_enc_refused h]; exact .refused rfl
  | dec => rw [turnOf_dec_refused h]; exact .refused rfl

end Sys2Proof.Proofs
end

section
/-! SUPPORT. What every step keeps. A property of the block's data that the pieces of a line and the host's accesses keep is
kept by every step (`StepInvariant`); the invariants of the model are shown to be such properties. -/

namespace Sys2Proof.Proofs

open Sys2Proof.Machine Sys2Proof.Laws

/-! ### Properties of the block's data -/

@[simp] theorem onSeq_seq (q : List Component) (s : State) : (onSeq q s).seq = q := rfl

/-- The state with everything reset that the pieces of a line do not work on: the flags, the sequencer's list, and the host's
side. -/
def dataOf (s : State) : State :=
  { State.reset with
    wt := s.wt, tree := s.tree, ct := s.ct, ctV := s.ctV, dstate := s.dstate, cur := s.cur, src := s.src, snk := s.snk
    pq := s.pq, stack := s.stack, nodes := s.nodes, cfg := s.cfg }

theorem ends_imp {M D R M' D' R' : State → Prop} {p : Progress} (h : Ends M D R p) (hm : ∀ t, M t → M' t)
    (hd : ∀ t, D t → D' t) (hr : ∀ t, R t → R' t) : Ends M' D' R' p := by
  cases p with
  | more t => exact hm t h
  | done t => exact hd t h
  | raised t => exact hr t h

/-- Once a line or a loop has ended, what its ends have in common holds of its state. -/
theorem stateOf_of_ended {M P : State → Prop} {p : Progress} (h : Ends M P P p) (hp : ∀ u, p ≠ .more u) :
    P (stateOf p) := by
  cases p with
  | more u => exact absurd rfl (hp u)
  | done u => exact h
  | raised u => exact h

/-- A turn goes on, or its line is taken off the sequencer's list. -/
theorem settle_cases (p : Progress) :
    (∃ u, p = .more u ∧ settle p = u) ∨
    ((∀ u, p ≠ .more u) ∧ settle p = onSeq (stateOf p).seq.tail (stateOf p)) := by
  cases p with
  | more u => exact .inl ⟨u, rfl, rfl⟩
  | done u => exact .inr ⟨by simp, rfl⟩
  | raised u => exact .inr ⟨by simp, rfl⟩

/-- A property of the block's data, which may ask for more or less according to the line on top of the sequencer's list, and
which every piece of a step keeps. -/
structure StepInvariant (I : Option Component → State → Prop) : Prop where
  /-- It speaks of the data only. -/
  data : ∀ o s, I o s ↔ I o (dataOf s)
  /-- It makes a difference only between the lines inside a command. -/
  outside : ∀ c s, c.inside = false → (I (some c) s ↔ I none s)
  opened : ∀ {c d s t}, opens c s = some (d, t) → I none s → I (some d) t
  turn : ∀ {c s}, opens c s = none → I (some c) s → Ends (I (some c)) (I none) (I none) (turnOf c s)
  attach : ∀ {bytes s}, I none s →
    I none { s with src := { bits := bitsOfBytes bytes, pos := 0 }, snk := { bits := [], finished := false } }
  weight : ∀ {o sym v s}, v ≤ wMax s.cfg → I o s → I o (wtWrite sym v s)
  reset : ∀ {o s}, I o s → I none (hostReset s)

/-- The line on top of the list, if any, asks nothing that an empty list does not. -/
def Plain (I : Option Component → State → Prop) (o : Option Component) : Prop := ∀ s, I o s ↔ I none s

/-- The sequencer's list asks for more than an empty list does only where a line is inside its command: the line on top, of a
command in progress, with no error recorded. -/
structure PlainList (I : Option Component → State → Prop) (s : State) : Prop where
  idle : s.busy = false → Plain I s.seq.head?
  rest : ∀ c ∈ s.seq.tail, Plain I (some c)
  err : s.err ≠ .none → Plain I s.seq.head?

/-- The line next on top, once the line on top is done, asks nothing that an empty list does not. -/
theorem PlainList.next {I : Option Component → State → Prop} {s : State} (h : PlainList I s) :
    Plain I s.seq.tail.head? := by
  cases hq : s.seq.tail with
  | nil => exact fun _ => Iff.rfl
  | cons c cs => exact h.rest c (by simp [hq])

namespace StepInvariant

variable {I : Option Component → State → Prop} (hI : StepInvariant I)
include hI

/-- A state of the same data satisfies it too. -/
theorem same {o : Option Component} {s t : State} (hs : I o s) (h : dataOf t = dataOf s) : I o t := by
  rwa [hI.data, h, ← hI.data]

/-- The turns of a loop keep the invariant. -/
theorem loop {c : Component} (hc : c.inside = true) : ∀ n s, I (some c) s →
    Ends (I (some c)) (I none) (I none) (iterate (turnOf c) n s)
  | 0, _, h => h
  | n + 1, s, h => by
    have ht := hI.turn (opens_inside hc s) h
    cases e : turnOf c s with
    | more t => rw [iterate_more e]; rw [e] at ht; exact loop hc n t ht
    | done t => rw [iterate_done e]; rwa [e] at ht
    | raised t => rw [iterate_raised e]; rwa [e] at ht

/-- A line run to its end keeps the invariant. -/
theorem line {c : Component} {s : State} (hc : c.inside = false) (hs : I none s) : I none (stateOf (lineRule c s)) := by
  refine stateOf_of_ended (M := fun _ => True) ?_ (lineRule_ends c s)
  cases ho : opens c s with
  | none =>
    rw [← turnOf_outside hc]
    exact ends_imp (hI.turn ho ((hI.outside c s hc).mpr hs)) (fun _ _ => trivial) (fun _ => id) fun _ => id
  | some p =>
    obtain ⟨n, e⟩ := lineRule_of_opens (d := p.1) (t := p.2) ho
    obtain ⟨-, hinside, -⟩ := opens_frame ho
    rw [e]
    exact ends_imp (hI.loop hinside n _ (hI.opened ho hs)) (fun _ _ => trivial) (fun _ => id) fun _ => id

/-- The lines of a list, run in order, keep the invariant. -/
theorem lines {cs : List Component} (hcs : ∀ c ∈ cs, c.inside = false) {s : State} (hs : I none s) :
    I none (stateOf (runLines cs s)) := by
  induction cs generalizing s with
  | nil => exact hs
  | cons c cs ih =>
    have ih := @ih fun d hd => hcs d (.tail c hd)
    rcases runLines_cons c cs s with ⟨-, e⟩ | ⟨-, e⟩ <;> rw [e]
    · exact ih hs
    · exact ih (hI.line (hcs c (.head cs)) hs)

end StepInvariant

/-- No line of a command stands inside one before it is run. -/
theorem linesOf_outside (i : Instr) : ∀ c ∈ linesOf i, c.inside = false := by
  cases i <;> simp [linesOf, cmpLines, dcmLines, Component.inside]

/-- A command taken as one step leaves the state alone while busy; else it leaves its word and the end of its lines, with the
sequencer's list as it was (R220). -/
theorem exec_next {i : Instr} (hi : i.format = .cmd) {s t : State} (h : exec i s = .next t) :
    (s.busy = true ∧ t = s) ∨
    (s.busy = false ∧ ((s.err ≠ .none ∧ runsUnderError i = false ∧ t = ran i s) ∨
      ((s.err = .none ∨ runsUnderError i = true) ∧
        t = endCommand (stateOf (runLines (linesOf i) (beginCommand i s)))))) := by
  rw [exec_eq_runLines hi] at h
  rcases runCommand_next h with ⟨hb, e⟩ | ⟨hb, he, hr, e⟩ | ⟨hb, hr, u, hu, e⟩
  · exact .inl ⟨hb, e⟩
  · exact .inr ⟨hb, .inl ⟨he, hr, e⟩⟩
  · refine .inr ⟨hb, .inr ⟨hr, ?_⟩⟩
    rcases hu with hu | hu <;> rw [e, hu] <;> rfl

/-- A command that is started has its lines to run, none of them where an error is recorded and it is ignored (R35, R249). -/
theorem startCommand_idle {w : Byte} {s : State} (hb : s.busy = false) : startCommand w s =
    onSeq (if s.err ≠ .none ∧ runsUnderError (decodeCommand w) = false then [] else linesOf (decodeCommand w))
      (beginCommand (decodeCommand w) s) := by
  rw [startCommand, if_neg (by simp [hb])]
  dsimp only
  rw [beginCommand_err]
  split <;> rfl

theorem startCommand_busy {w : Byte} {s : State} (hb : s.busy = true) : startCommand w s = s := by
  rw [startCommand, if_pos hb]

/-- Starting a command touches no data; while busy it does nothing, and it puts lines on the list that are not yet inside
their commands (R35, R36). -/
theorem startCommand_cases (w : Byte) (s : State) :
    (s.busy = true ∧ startCommand w s = s) ∨
    (s.busy = false ∧ ∃ cs, (∀ c ∈ cs, c.inside = false) ∧
      startCommand w s = onSeq cs (beginCommand (decodeCommand w) s)) := by
  cases hb : s.busy with
  | true => exact .inl ⟨rfl, startCommand_busy hb⟩
  | false =>
    refine .inr ⟨rfl, _, ?_, startCommand_idle hb⟩
    split
    · exact nofun
    · exact linesOf_outside _

/-- A busy machine drops a host's write of a weight; an idle one writes a weight that fits, whatever the value (R71,
log entry 15). -/
theorem hostWriteWt_writes (sym : Symbol) (v : Nat) (s : State) :
    (s.busy = true ∧ hostWriteWt sym v s = s) ∨
    (s.busy = false ∧ ∃ w n, w ≤ wMax s.cfg ∧ hostWriteWt sym v s = { wtWrite sym w s with fresh := n }) := by
  rcases hostWriteWt_cases sym v s with ⟨hb, e⟩ | ⟨hb, hv, e⟩ | ⟨hb, -, w, hw, e⟩
  · exact .inl ⟨hb, e⟩
  · exact .inr ⟨hb, v, (wtWrite sym v s).fresh, hv, e⟩
  · exact .inr ⟨hb, w, s.fresh + 1, hw, e⟩

theorem wtWrite_eq (sym : Symbol) (v : Nat) (s : State) : wtWrite sym v s = { s with wt := (wtWrite sym v s).wt } := by
  unfold wtWrite
  split <;> rfl

/-- A reset of the block's own state, after the ports were spoilt if a command was in progress (R270, R271). -/
theorem hostReset_cases (s : State) :
    (s.busy = false ∧ hostReset s = resetInternal s) ∨ (s.busy = true ∧ hostReset s = resetInternal (spoilPorts s)) := by
  unfold hostReset
  cases hb : s.busy with
  | false => exact .inl ⟨rfl, rfl⟩
  | true => exact .inr ⟨rfl, rfl⟩

theorem hostReset_seq (s : State) : (hostReset s).seq = [] := by
  rcases hostReset_cases s with ⟨-, e⟩ | ⟨-, e⟩ <;> rw [e] <;> rfl

namespace StepInvariant

variable {I : Option Component → State → Prop} (hI : StepInvariant I)
include hI

/-- A command taken as one step keeps the invariant. -/
theorem command {i : Instr} (hi : i.format = .cmd) {s t : State} (hq : PlainList I s) (hs : I s.seq.head? s)
    (h : exec i s = .next t) : I t.seq.head? t := by
  rcases exec_next hi h with ⟨-, rfl⟩ | ⟨hb, ⟨-, -, rfl⟩ | ⟨-, rfl⟩⟩
  · exact hs
  · exact hI.same hs rfl
  · have hend := hI.lines (linesOf_outside i) (s := beginCommand i s) (hI.same ((hq.idle hb s).mp hs) rfl)
    rw [endCommand_seq, runLines_seq, beginCommand_seq]
    exact (hq.idle hb _).mpr (hI.same hend rfl)

/-- A small step of the engine keeps the invariant. -/
theorem engine {s t : State} (hq : PlainList I s) (hs : I s.seq.head? s) (h : engineStep s = .next t) :
    I t.seq.head? t := by
  rcases engineStep_next h with ⟨-, rfl⟩ | ⟨-, -, rfl⟩ | ⟨-, c, cs, hseq, ⟨he, rfl⟩ | ⟨-, ⟨d, u, ho, rfl⟩ | ⟨ho, rfl⟩⟩⟩
  · exact hs
  · exact hI.same hs rfl
  · have hnext := hq.next
    rw [hseq] at hnext
    exact (hnext _).mpr (hI.same ((hq.err he s).mp hs) rfl)
  · rw [hseq] at hs
    exact hI.same (hI.opened ho ((hI.outside c s (opens_frame ho).1).mp hs)) rfl
  · have hnext := hq.next
    rw [hseq] at hs
    have hturn := hI.turn ho hs
    have hframe := turnOf_frame c s
    rcases settle_cases (turnOf c s) with ⟨u, e, hu⟩ | ⟨hends, hu⟩ <;> rw [hu]
    · rw [e] at hturn hframe
      rw [hframe.seq, hseq]
      exact hturn
    · rw [onSeq_seq, (stateOf_of_ends hframe).seq]
      exact (hnext _).mpr (hI.same (stateOf_of_ended hturn hends) rfl)

/-- Every step keeps the invariant. -/
theorem step {s t : State} (hq : PlainList I s) (hs : I s.seq.head? s) (h : Machine.step s = .next t) :
    I t.seq.head? t := by
  obtain ⟨rest, hk⟩ := step_next h
  have hq' : PlainList I { s with host := rest } := ⟨hq.idle, hq.rest, hq.err⟩
  have hs' : I s.seq.head? { s with host := rest } := hI.same hs rfl
  cases hk with
  | engine h => exact hI.engine hq' hs' h
  | command w h => exact hI.command (decodeCommand_format w) hq' hs' h
  | start w h =>
    rcases startCommand_cases w { s with host := rest } with ⟨-, e⟩ | ⟨hb, cs, hcs, e⟩ <;> rw [h, e]
    · exact hs'
    · have hnone : I none (onSeq cs (beginCommand (decodeCommand w) { s with host := rest })) :=
        hI.same ((hq'.idle hb _).mp hs') rfl
      cases cs with
      | nil => exact hnone
      | cons c cs => exact (hI.outside c _ (hcs c (.head cs))).mpr hnone
  | attach bytes hb h =>
    rw [h]
    exact (hq'.idle hb _).mpr (hI.attach ((hq'.idle hb _).mp hs'))
  | weight sym v h =>
    rcases hostWriteWt_writes sym v { s with host := rest } with ⟨-, e⟩ | ⟨-, w, n, hw, e⟩ <;> rw [h, e]
    · exact hs'
    · have : (wtWrite sym w { s with host := rest }).seq = s.seq := by rw [wtWrite_eq]
      dsimp only
      rw [this]
      exact hI.same (hI.weight hw hs') rfl
  | reset h =>
    rw [h, hostReset_seq]
    exact hI.reset hs'
  | read r n h =>
    rw [h]
    exact hI.same hs' rfl

end StepInvariant

/-- An invariant that does not depend on the line on top is kept by every step, whatever the sequencer's list. -/
theorem StepInvariant.step_const {P : State → Prop} (hP : StepInvariant fun _ => P) {s t : State} (hs : P s)
    (h : Machine.step s = .next t) : P t :=
  hP.step ⟨fun _ _ => Iff.rfl, fun _ _ _ => Iff.rfl, fun _ _ => Iff.rfl⟩ hs h

/-! ### The sequencer's list -/

/-- The sequencer's list is empty when idle; a line inside its command stands only on top, and only without an error
(R38). -/
structure ListClean (s : State) : Prop where
  idle : s.busy = false → s.seq = []
  rest : ∀ c ∈ s.seq.tail, c.inside = false
  err : s.err ≠ .none → ∀ c, s.seq.head? = some c → c.inside = false

theorem ListClean.plainList {I : Option Component → State → Prop} (hI : StepInvariant I) {s : State}
    (h : ListClean s) : PlainList I s where
  idle hb := by rw [h.idle hb]; exact fun _ => Iff.rfl
  rest c hc t := hI.outside c t (h.rest c hc)
  err he := by
    cases hq : s.seq with
    | nil => exact fun _ => Iff.rfl
    | cons c cs => exact fun t => hI.outside c t (h.err he c (by rw [hq]; rfl))

/-- A list whose lines are all not yet inside their commands is clean. -/
theorem ListClean.of_outside {s : State} (hidle : s.busy = false → s.seq = []) (h : ∀ c ∈ s.seq, c.inside = false) :
    ListClean s :=
  ⟨hidle, fun c hc => h c (List.mem_of_mem_tail hc), fun _ c hc => h c (List.mem_of_head? hc)⟩

/-- The list stays clean with the line on top taken off. -/
theorem ListClean.tail {s t : State} (h : ListClean s) (hseq : t.seq = s.seq.tail) (hb : t.busy = true) :
    ListClean t :=
  .of_outside (fun h => absurd (hb.symm.trans h) (by decide)) (by rw [hseq]; exact h.rest)

theorem ListClean.engine {s t : State} (hs : ListClean s) (h : engineStep s = .next t) : ListClean t := by
  rcases engineStep_next h with ⟨-, rfl⟩ | ⟨-, hq, rfl⟩ | ⟨hb, c, cs, hseq, ⟨he, rfl⟩ | ⟨hr, ⟨d, u, ho, rfl⟩ | ⟨ho, rfl⟩⟩⟩
  · exact hs
  · exact .of_outside (fun _ => hq) (by rw [endCommand_seq, hq]; simp)
  · exact hs.tail (by rw [hseq]; rfl) hb
  · obtain ⟨-, -, hc, hub, hue, huq, -⟩ := opens_frame ho
    have he : u.err = .none := hue.trans (hr.resolve_right (by simp [hc]))
    refine ⟨fun h => absurd ((hub.trans hb).symm.trans h) (by decide), ?_, fun h => absurd he h⟩
    rw [proceedAs, huq]
    exact hs.rest
  · have hframe := turnOf_frame c s
    rcases settle_cases (turnOf c s) with ⟨u, e, hu⟩ | ⟨hends, hu⟩ <;> rw [hu]
    · rw [e] at hframe
      refine ⟨fun h => absurd ((hframe.busy.trans hb).symm.trans h) (by decide), ?_, ?_⟩
      · rw [hframe.seq]
        exact hs.rest
      · rw [hframe.seq, (turnOf_more e).2]
        exact hs.err
    · exact hs.tail (congrArg List.tail (stateOf_of_ends hframe).seq) ((stateOf_of_ends hframe).busy.trans hb)

/-- Every step keeps the sequencer's list clean. -/
theorem ListClean.step {s t : State} (hs : ListClean s) (h : Machine.step s = .next t) : ListClean t := by
  obtain ⟨rest, hk⟩ := step_next h
  have hs' : ListClean { s with host := rest } := ⟨hs.idle, hs.rest, hs.err⟩
  cases hk with
  | engine h => exact hs'.engine h
  | command w h =>
    rcases exec_next (decodeCommand_format w) h with ⟨-, rfl⟩ | ⟨hb, ⟨-, -, rfl⟩ | ⟨-, rfl⟩⟩
    · exact hs'
    · have : s.seq = [] := hs.idle hb
      exact .of_outside (fun _ => this) (by simp [this])
    · have : (stateOf (runLines (linesOf (decodeCommand w))
          (beginCommand (decodeCommand w) { s with host := rest }))).seq = [] := (runLines_seq _ _).trans (hs.idle hb)
      exact .of_outside (fun _ => this) (by simp [this])
  | start w h =>
    rcases startCommand_cases w { s with host := rest } with ⟨-, e⟩ | ⟨hb, cs, hcs, e⟩ <;> rw [h, e]
    · exact hs'
    · exact .of_outside (fun h => by cases h) hcs
  | attach bytes hb h => rw [h]; exact ⟨hs.idle, hs.rest, hs.err⟩
  | weight sym v h =>
    rcases hostWriteWt_writes sym v { s with host := rest } with ⟨-, e⟩ | ⟨-, w, n, hw, e⟩ <;> rw [h, e]
    · exact hs'
    · rw [wtWrite_eq]; exact ⟨hs.idle, hs.rest, hs.err⟩
  | reset h => rw [h]; exact .of_outside (fun _ => hostReset_seq _) (by simp [hostReset_seq])
  | read r n h => rw [h]; exact ⟨hs.idle, hs.rest, hs.err⟩

end Sys2Proof.Proofs
end

section
/-! SUPPORT. The engine stays clean: the sequencer's list (`ListClean`) and what the lines hold (`WorkClean`) (R31 to R33,
R38, R42). -/

namespace Sys2Proof.Proofs

open Sys2Proof.Machine Sys2Proof.Laws

/-- The queue, the traversal stack, the node count and the cursor are empty but for the line that uses them, and DSTATE is
not EMITTED (R31, R32, R33, R42). -/
structure WorkClean (o : Option Component) (s : State) : Prop where
  pq : o ≠ some .bldLoop → s.pq = []
  stack : o ≠ some .header → s.stack = [] ∧ s.nodes = 0
  cur : o ≠ some .decLoop → s.cur = none
  dstate : s.dstate ≠ .emitted

theorem engineClean_iff (s : State) : EngineClean s ↔ ListClean s ∧ WorkClean s.seq.head? s :=
  ⟨fun ⟨h1, h2, h3, h4, h5, h6, h7⟩ => ⟨⟨h1, h2, h3⟩, ⟨h4, h5, h6, h7⟩⟩,
    fun ⟨⟨h1, h2, h3⟩, ⟨h4, h5, h6, h7⟩⟩ => ⟨h1, h2, h3, h4, h5, h6, h7⟩⟩

theorem outside_notMem_holders {c : Component} (h : c.inside = false) : c ∉ [Component.bldLoop, .header, .decLoop] := by
  cases c <;> simp [Component.inside] at h ⊢

/-- Only the lines of BLD's, RDH's and DEC's loops hold anything, so that with any other line on top all is empty, and what
leaves it empty keeps it so for every line. -/
theorem WorkClean.keep {o : Option Component} {c : Component} {s t : State} (hs : WorkClean (some c) s)
    (hc : c ∉ [Component.bldLoop, .header, .decLoop])
    (h : (t.pq, t.stack, t.nodes, t.cur) = (s.pq, s.stack, s.nodes, s.cur)) (hd : t.dstate ≠ .emitted) :
    WorkClean o t := by
  simp only [List.mem_cons, List.not_mem_nil, or_false, not_or] at hc
  obtain ⟨hbld, hrdh, hdec⟩ := hc
  simp only [Prod.mk.injEq] at h
  obtain ⟨hpq, hstack, hnodes, hcur⟩ := h
  refine ⟨fun _ => hpq.trans (hs.pq (by simp [hbld])), fun _ => ?_, fun _ => hcur.trans (hs.cur (by simp [hdec])), hd⟩
  rw [hstack, hnodes]
  exact hs.stack (by simp [hrdh])

theorem workClean_outside {c : Component} {s : State} (h : c.inside = false) :
    WorkClean (some c) s ↔ WorkClean none s :=
  ⟨fun hs => hs.keep (outside_notMem_holders h) rfl hs.dstate,
    fun hs => ⟨fun _ => hs.pq (by simp), fun _ => hs.stack (by simp), fun _ => hs.cur (by simp), hs.dstate⟩⟩

/-- An error discards all that the engine holds (R247). -/
theorem raise_workClean {c : Component} {s : State} (k : ErrKind) (h : s.dstate ≠ .emitted ∨ c = .decLoop) :
    WorkClean none (raise c k s) := by
  refine ⟨fun _ => raise_pq c k s, fun _ => ⟨raise_stack c k s, raise_nodes c k s⟩, fun _ => raise_cur c k s, ?_⟩
  rw [raise_dstate]
  split
  · decide
  · next hc => exact h.resolve_right fun hd => hc (.inr hd)

theorem turn_workClean {c : Component} {s : State} {p : Progress} (h : Turn s c p) (hs : WorkClean (some c) s) :
    Ends (WorkClean (some c)) (WorkClean none) (WorkClean none) p := by
  cases h with
  | resetCall => exact hs.keep (by decide) rfl (by simp)
  | clr => exact hs.keep (by decide) rfl (by simp)
  | refused hc => exact hs.keep (outside_notMem_holders hc) rfl hs.dstate
  | failed hk hp hd => exact raise_workClean _ (hd.imp_left fun h => by rw [h]; exact hs.dstate)
  | moved hc hp =>
    have hplain : ∀ c ∈ [Component.cntLoop, .rdm, .rwd], c ∉ [Component.bldLoop, .header, .decLoop] := by decide
    exact hs.keep (hplain c hc) rfl hs.dstate
  | counted v hp hv => exact hs.keep (by decide) rfl hs.dstate
  | noNode hq => exact ⟨fun _ => hq, fun _ => hs.stack (by decide), fun _ => hs.cur (by decide), hs.dstate⟩
  | root hq => exact ⟨fun _ => rfl, fun _ => hs.stack (by decide), fun _ => hs.cur (by decide), hs.dstate⟩
  | joined w hq => exact ⟨fun h => absurd rfl h, hs.stack, hs.cur, hs.dstate⟩
  | coded ht => exact hs.keep (by decide) rfl hs.dstate
  | wrote hc hp h =>
    have hplain : ∀ c ∈ [Component.wrm, .wrh, .encLoop], c ∉ [Component.bldLoop, .header, .decLoop] := by decide
    exact hs.keep (hplain c hc) rfl hs.dstate
  | encoded hp h => exact hs.keep (by decide) rfl hs.dstate
  | node hp hn => exact ⟨hs.pq, fun h => absurd rfl h, hs.cur, hs.dstate⟩
  | leaf sym hp hn =>
    rcases completeSubtree_cases (.leaf sym 0) s.stack (_ : State) with ⟨u, e⟩ | ⟨k, e⟩ <;> rw [e]
    · exact ⟨fun _ => hs.pq (by decide), fun _ => ⟨rfl, rfl⟩, fun _ => hs.cur (by decide), hs.dstate⟩
    · exact ⟨hs.pq, fun h => absurd rfl h, hs.cur, hs.dstate⟩
  | walked n hp => exact ⟨hs.pq, hs.stack, fun h => absurd rfl h, hs.dstate⟩
  | emitted root hp h => exact ⟨hs.pq, hs.stack, fun h => absurd rfl h, by simp⟩
  | stopped hp => exact ⟨fun _ => hs.pq (by decide), fun _ => hs.stack (by decide), fun _ => rfl, by simp⟩
  | finished => exact hs.keep (by decide) rfl hs.dstate

theorem opens_workClean {c d : Component} {s t : State} (h : opens c s = some (d, t)) (hs : WorkClean none s) :
    WorkClean (some d) t := by
  rcases opens_cases h with ⟨-, rfl, rfl⟩ | ⟨-, rfl, rfl⟩ | ⟨-, rfl, rfl⟩ | ⟨-, rfl, -, rfl⟩ | ⟨-, rfl, root, -, rfl⟩
  · exact ⟨fun _ => hs.pq (by simp), fun _ => hs.stack (by simp), fun _ => hs.cur (by simp), hs.dstate⟩
  · exact ⟨fun h => absurd rfl h, fun _ => hs.stack (by simp), fun _ => hs.cur (by simp), hs.dstate⟩
  · exact ⟨fun _ => hs.pq (by simp), fun h => absurd rfl h, fun _ => hs.cur (by simp), hs.dstate⟩
  · exact ⟨fun _ => hs.pq (by simp), fun _ => hs.stack (by simp), fun _ => hs.cur (by simp), hs.dstate⟩
  · exact ⟨fun _ => hs.pq (by simp), fun _ => hs.stack (by simp), fun h => absurd rfl h, by simp [decStart]⟩

theorem workClean_invariant : StepInvariant WorkClean where
  data _ _ := ⟨fun ⟨h1, h2, h3, h4⟩ => ⟨h1, h2, h3, h4⟩, fun ⟨h1, h2, h3, h4⟩ => ⟨h1, h2, h3, h4⟩⟩
  outside _ _ h := workClean_outside h
  opened := opens_workClean
  turn h hs := turn_workClean (turnOf_turn h) hs
  attach hs := ⟨hs.pq, hs.stack, hs.cur, hs.dstate⟩
  weight _ hs := by rw [wtWrite_eq]; exact ⟨hs.pq, hs.stack, hs.cur, hs.dstate⟩
  reset {o s} _ := by
    rcases hostReset_cases s with ⟨-, e⟩ | ⟨-, e⟩ <;> rw [e] <;>
      exact ⟨fun _ => rfl, fun _ => ⟨rfl, rfl⟩, fun _ => rfl, nofun⟩

/-- Settles O58: the sequencer's list stays clean, and so does what the lines hold. -/
theorem everyStepKeepsTheEngineClean : Obligations.EveryStepKeepsTheEngineClean := by
  intro s t hclean hstep
  obtain ⟨hlist, hwork⟩ := (engineClean_iff s).mp hclean
  exact (engineClean_iff t).mpr
    ⟨hlist.step hstep, workClean_invariant.step (hlist.plainList workClean_invariant) hwork hstep⟩

end Sys2Proof.Proofs
end

section
/-! SUPPORT. The code table belongs to the tree, and the node store suffices (R24 (c), R27, R30). -/

namespace Sys2Proof.Proofs

open Sys2Proof.Machine Sys2Proof.Laws

/-- The code table is that of the tree present, or is empty, as it is while BLD or RDH is at work; the tree present, the tree
builder's queue and the header reader's count are within the node store (R24 (c), R27, R30). -/
structure TreeFits (o : Option Component) (s : State) : Prop where
  coded : s.ctV = true → s.tree.map codesOf = some s.ct
  uncoded : s.ctV = false → s.ct = ctEmpty
  working : o = some .bldLoop ∨ o = some .header → s.ctV = false
  tree : ∀ t, s.tree = some t → t.size ≤ nodeCap
  queue : o = some .bldLoop → queueSize s.pq ≤ nodeCap + 1
  header : o = some .header → s.nodes = framesSize s.stack ∧ s.nodes ≤ nodeCap

theorem treeFits_iff (s : State) : TableOfTree s ∧ NodesFit s ↔ TreeFits s.seq.head? s :=
  ⟨fun ⟨⟨h1, h2, h3⟩, h4, h5, h6⟩ => ⟨h1, h2, h3, h4, h5, h6⟩,
    fun ⟨h1, h2, h3, h4, h5, h6⟩ => ⟨⟨h1, h2, h3⟩, h4, h5, h6⟩⟩

/-- What changes neither the table nor the tree keeps them fitting, where neither BLD nor RDH is at work. -/
theorem TreeFits.keep {o o' : Option Component} {s t : State} (hs : TreeFits o s)
    (ho : o' ∉ [some Component.bldLoop, some .header]) (h : (t.ctV, t.ct, t.tree) = (s.ctV, s.ct, s.tree)) :
    TreeFits o' t := by
  simp only [List.mem_cons, List.not_mem_nil, or_false, not_or] at ho
  obtain ⟨hbld, hrdh⟩ := ho
  simp only [Prod.mk.injEq] at h
  obtain ⟨hv, hct, htree⟩ := h
  refine ⟨?_, ?_, fun h => absurd h (by simp [hbld, hrdh]), ?_, fun h => absurd h hbld, fun h => absurd h hrdh⟩
  · rw [hv, hct, htree]; exact hs.coded
  · rw [hv, hct]; exact hs.uncoded
  · rw [htree]; exact hs.tree

/-- Without a tree, and with an empty table, only the work of BLD and RDH is to fit. -/
theorem TreeFits.of_none {o : Option Component} {s : State} (hv : s.ctV = false) (hct : s.ct = ctEmpty)
    (htree : s.tree = none) (hq : o = some .bldLoop → queueSize s.pq ≤ nodeCap + 1)
    (hn : o = some .header → s.nodes = framesSize s.stack ∧ s.nodes ≤ nodeCap) : TreeFits o s :=
  ⟨fun h => absurd (hv.symm.trans h) (by decide), fun _ => hct, fun _ => hv,
    fun _ ht => (nomatch htree.symm.trans ht), hq, hn⟩

/-- A new tree within the node store replaces the one of which no table is made. -/
theorem TreeFits.newTree {o : Option Component} {s t : State} {a : Tree} (hs : TreeFits o s) (hv : s.ctV = false)
    (ha : a.size ≤ nodeCap) (h : (t.ctV, t.ct, t.tree) = (s.ctV, s.ct, some a)) : TreeFits none t := by
  simp only [Prod.mk.injEq] at h
  obtain ⟨htv, hct, htree⟩ := h
  refine ⟨fun h => ?_, fun _ => hct.trans (hs.uncoded hv), fun _ => htv.trans hv, fun u hu => ?_, by simp, by simp⟩
  · exact absurd ((htv.trans hv).symm.trans h) (by decide)
  · cases htree.symm.trans hu
    exact ha

/-- A queue of leaves takes two nodes a leaf, but for one node. -/
theorem queueSize_leaves {q : List Tree} (h : ∀ t ∈ q, t.size = 1) : queueSize q = 2 * q.length := by
  induction q with
  | nil => rfl
  | cons t q ih =>
    have ht := h t (.head q)
    have hq := ih fun u hu => h u (.tail t hu)
    simp only [queueSize, List.length_cons]
    omega

/-- The initial leaves, at most `NSYM` of them, fit the node store with the nodes that join them (R27, R132). -/
theorem queueSize_initialLeaves (wt : Vector Nat 256) : queueSize (initialLeaves wt) ≤ nodeCap + 1 := by
  have hleaf : ∀ t ∈ initialLeaves wt, t.size = 1 := by
    intro t ht
    rcases List.mem_append.mp ht with ht | ht
    · obtain ⟨s, -, hs⟩ := List.mem_filterMap.mp ht
      split at hs <;> cases hs
      rfl
    · cases List.mem_singleton.mp ht
      rfl
  have hlen : (initialLeaves wt).length ≤ 257 := by
    have := List.length_filterMap_le
      (fun s : Fin 256 => if wt[s.val] = 0 then none else some (Tree.leaf s.castSucc wt[s.val])) (List.finRange 256)
    simp only [List.length_finRange] at this
    simp only [initialLeaves, List.length_append, List.length_singleton]
    omega
  rw [queueSize_leaves hleaf]
  simp only [nodeCap]
  omega

/-- A completed subtree takes the nodes counted, with those of the frames under it; so the tree it completes has been counted
(R165, R169). -/
theorem completeSubtree_treeFits {t : Tree} {k : List Frame} {s : State} (hs : TreeFits none s) (hv : s.ctV = false)
    (hn : s.nodes = framesSize k + t.size) (hcap : s.nodes ≤ nodeCap) :
    Ends (TreeFits (some .header)) (TreeFits none) (TreeFits none) (completeSubtree t k s) := by
  induction k generalizing t with
  | nil =>
    simp only [framesSize, Nat.zero_add] at hn
    exact hs.newTree hv (hn ▸ hcap) rfl
  | cons f k ih =>
    cases f with
    | left =>
      refine ⟨hs.coded, hs.uncoded, fun _ => hv, hs.tree, nofun, fun _ => ⟨?_, hcap⟩⟩
      simp only [framesSize] at hn ⊢
      omega
    | right l =>
      refine ih ?_
      simp only [framesSize, Tree.size] at hn ⊢
      omega

theorem turn_treeFits {c : Component} {s : State} {p : Progress} (h : Turn s c p) (hs : TreeFits (some c) s) :
    Ends (TreeFits (some c)) (TreeFits none) (TreeFits none) p := by
  cases h with
  | resetCall => exact .of_none rfl rfl rfl (by simp) (by simp)
  | clr => exact .of_none rfl rfl rfl (by simp) (by simp)
  | failed hk hp hd => exact hs.keep (by decide) (by simp)
  | root hq =>
    have hsize := hs.queue rfl
    rw [hq, queueSize, queueSize] at hsize
    exact hs.newTree (hs.working (.inl rfl)) (by omega) rfl
  | joined w hq =>
    have hsize := hs.queue rfl
    rw [← queueSize_perm hq] at hsize
    refine ⟨hs.coded, hs.uncoded, hs.working, hs.tree, fun _ => ?_, nofun⟩
    simp only [queueSize, Tree.size] at hsize ⊢
    omega
  | coded ht =>
    exact ⟨fun _ => by rw [ht]; rfl, nofun, by simp, hs.tree, by simp, by simp⟩
  | node hp hn =>
    refine ⟨hs.coded, hs.uncoded, hs.working, hs.tree, nofun, fun _ => ⟨?_, hn⟩⟩
    rw [framesSize, ← (hs.header rfl).1]
  | leaf sym hp hn =>
    have hcount : s.nodes + 1 = framesSize s.stack + (Tree.leaf sym 0).size := by rw [(hs.header rfl).1]; rfl
    exact completeSubtree_treeFits (hs.keep (by decide) rfl) (hs.working (.inr rfl)) hcount hn
  | _ => exact hs.keep (by decide) rfl

theorem opens_treeFits {c d : Component} {s t : State} (h : opens c s = some (d, t)) (hs : TreeFits none s) :
    TreeFits (some d) t := by
  rcases opens_cases h with ⟨-, rfl, rfl⟩ | ⟨-, rfl, rfl⟩ | ⟨-, rfl, rfl⟩ | ⟨-, rfl, -, rfl⟩ | ⟨-, rfl, root, -, rfl⟩
  · exact hs.keep (by decide) rfl
  · exact .of_none rfl rfl rfl (fun _ => queueSize_initialLeaves s.wt) (by simp)
  · exact .of_none rfl rfl rfl (by simp) fun _ => ⟨rfl, Nat.zero_le _⟩
  · exact hs.keep (by decide) rfl
  · exact hs.keep (by decide) rfl

theorem treeFits_invariant : StepInvariant TreeFits where
  data _ _ :=
    ⟨fun ⟨h1, h2, h3, h4, h5, h6⟩ => ⟨h1, h2, h3, h4, h5, h6⟩, fun ⟨h1, h2, h3, h4, h5, h6⟩ => ⟨h1, h2, h3, h4, h5, h6⟩⟩
  outside c s h :=
    ⟨fun hs => hs.keep (by decide) rfl, fun hs => hs.keep (by cases c <;> simp [Component.inside] at h ⊢) rfl⟩
  opened := opens_treeFits
  turn h hs := turn_treeFits (turnOf_turn h) hs
  attach hs := hs.keep (by decide) rfl
  weight _ hs := by
    rw [wtWrite_eq]
    exact ⟨hs.coded, hs.uncoded, hs.working, hs.tree, hs.queue, hs.header⟩
  reset {o s} _ := by
    rcases hostReset_cases s with ⟨-, e⟩ | ⟨-, e⟩ <;> rw [e] <;> exact .of_none rfl rfl rfl nofun nofun

/-- Settles O59: nodes are counted before they are stored, and the table is empty while a tree is made. -/
theorem everyStepKeepsTableAndTree : Obligations.EveryStepKeepsTableAndTree := by
  intro s t hclean htable hnodes hstep
  obtain ⟨hlist, -⟩ := (engineClean_iff s).mp hclean
  exact (treeFits_iff t).mpr
    (treeFits_invariant.step (hlist.plainList treeFits_invariant) ((treeFits_iff s).mp ⟨htable, hnodes⟩) hstep)

end Sys2Proof.Proofs
end

section
/-! SUPPORT. The parameters (R44), the ports (R40, R65) and the weights (R21) at every step, and the invariants at reset
(R43). -/

namespace Sys2Proof.Proofs

open Sys2Proof.Machine Sys2Proof.Laws

theorem cfg_invariant (k : Config) : StepInvariant fun _ s => s.cfg = k where
  data _ _ := Iff.rfl
  outside _ _ _ := Iff.rfl
  opened h hs := by
    obtain ⟨-, -, -, -, -, -, hcfg⟩ := opens_frame h
    exact hcfg.trans hs
  turn {c s} _ hs :=
    ends_imp (turnOf_frame c s) (fun _ h => h.cfg.trans hs) (fun _ h => h.cfg.trans hs) fun _ h => h.cfg.trans hs
  attach hs := hs
  weight _ hs := by rw [wtWrite_eq]; exact hs
  reset {_ s} hs := by rcases hostReset_cases s with ⟨-, e⟩ | ⟨-, e⟩ <;> rw [e] <;> exact hs

/-- Settles O54: to have the parameters of `s` is a property that every step keeps. -/
theorem everyStepKeepsTheParameters : Obligations.EveryStepKeepsTheParameters :=
  fun s _ h => (cfg_invariant s.cfg).step_const rfl h

theorem portsOk_of_moved {s t : State} {p : Nat} (hs : PortsOk s) (hp : Within s p)
    (hsrc : t.src = { s.src with pos := p }) (hsnk : t.snk.finished = true → t.snk.bits.length % 8 = 0) : PortsOk t := by
  obtain ⟨hwhole, hpos, -⟩ := hs
  have hp' : p ≤ s.src.bits.length := hp.elim (fun h => h ▸ hpos) id
  exact ⟨by rw [hsrc]; exact hwhole, by rw [hsrc]; exact hp', hsnk⟩

/-- Bits are appended to an open sink only, which need not be whole bytes (R64). -/
theorem whole_append {k : Sink} {bits : Bits} (hk : k.finished = true → k.bits.length % 8 = 0)
    (h : k.finished = false ∨ bits = []) (hf : k.finished = true) : (k.bits ++ bits).length % 8 = 0 := by
  rcases h with h | rfl
  · exact absurd (h.symm.trans hf) (by decide)
  · rw [List.append_nil]; exact hk hf

theorem finish_whole {k : Sink} (hk : k.finished = true → k.bits.length % 8 = 0) : k.finish.bits.length % 8 = 0 := by
  cases hf : k.finished with
  | false => rw [finish_open hf]; exact length_padToByte _
  | true => rw [finish_finished hf]; exact hk hf

theorem turn_portsOk {c : Component} {s : State} {p : Progress} (h : Turn s c p) (hs : PortsOk s) :
    Ends PortsOk PortsOk PortsOk p := by
  have ⟨_, _, hsnk⟩ := hs
  cases h with
  | failed hk hp hd => exact portsOk_of_moved hs hp (raise_src _ _ _) (raise_whole hsnk)
  | moved hc hp => exact portsOk_of_moved hs hp rfl hsnk
  | counted v hp hv => exact portsOk_of_moved hs hp rfl hsnk
  | wrote hc hp h => exact portsOk_of_moved hs hp rfl (whole_append hsnk h)
  | encoded hp h => exact portsOk_of_moved hs hp rfl (whole_append hsnk h)
  | node hp hn => exact portsOk_of_moved hs hp rfl hsnk
  | leaf sym hp hn =>
    rcases completeSubtree_cases (.leaf sym 0) s.stack (_ : State) with ⟨u, e⟩ | ⟨k, e⟩ <;> rw [e] <;>
      exact portsOk_of_moved hs hp rfl hsnk
  | walked n hp => exact portsOk_of_moved hs hp rfl hsnk
  | emitted root hp h => exact portsOk_of_moved hs hp rfl (whole_append hsnk (.inl h))
  | stopped hp => exact portsOk_of_moved hs hp rfl hsnk
  | finished => exact portsOk_of_moved hs (.inl rfl) rfl fun _ => finish_whole hsnk
  | _ => exact hs

/-- What a reset inside a command leaves of the ports is sound (R271, U7). -/
theorem spoilPorts_portsOk {s : State} (hs : PortsOk s) : PortsOk (spoilPorts s) := by
  obtain ⟨hwhole, -, -⟩ := hs
  refine ⟨hwhole, Nat.lt_succ_iff.mp (Nat.mod_lt _ (Nat.succ_pos _)), fun hf => ?_⟩
  have hf : s.snk.finished = true := hf
  simp only [spoilPorts, hf, if_true]
  exact length_padToByte _

theorem portsOk_invariant : StepInvariant fun _ => PortsOk where
  data _ _ := Iff.rfl
  outside _ _ _ := Iff.rfl
  opened h hs := by
    rcases opens_cases h with ⟨-, -, rfl⟩ | ⟨-, -, rfl⟩ | ⟨-, -, rfl⟩ | ⟨-, -, -, rfl⟩ | ⟨-, -, root, -, rfl⟩ <;> exact hs
  turn h hs := turn_portsOk (turnOf_turn h) hs
  attach _ := ⟨by simp, Nat.zero_le _, by simp⟩
  weight _ hs := by rw [wtWrite_eq]; exact hs
  reset {_ s} hs := by
    rcases hostReset_cases s with ⟨-, e⟩ | ⟨-, e⟩ <;> rw [e]
    · exact hs
    · exact spoilPorts_portsOk hs

/-- Settles O56: the cursor moves within the source, and a finished sink is padded or left alone. -/
theorem everyStepKeepsThePortsOk : Obligations.EveryStepKeepsThePortsOk :=
  fun _ _ hs h => portsOk_invariant.step_const hs h

theorem weightsFit_zero {s : State} (h : s.wt = wtZero) : WeightsFit s := by
  intro i
  simp [h, wtZero]

/-- A weight that fits, written to a table of weights that fit. -/
theorem weightsFit_set {s t : State} {n w : Nat} (hs : WeightsFit s) (hn : n < 256) (hw : w ≤ wMax s.cfg)
    (hwt : t.wt = s.wt.set n w) (hcfg : t.cfg = s.cfg) : WeightsFit t := by
  intro i
  rw [hwt, hcfg, Vector.getElem_set]
  split
  · exact hw
  · exact hs i

/-- The weights that an Overflow in CNT leaves fit (R122, U2). -/
theorem raise_weightsFit {c : Component} {k : ErrKind} {s : State} (hs : WeightsFit s) : WeightsFit (raise c k s) := by
  intro i
  rw [raise_cfg, raise, spoilOutput_wt]
  rcases spoilWeights_cases c (recordError c k s) with ⟨e, -⟩ | ⟨e, -⟩ <;> rw [e]
  · exact hs i
  · simp only [wtFree, Vector.getElem_ofFn]
    exact mod_le_wMax _ _

theorem turn_weightsFit {c : Component} {s : State} {p : Progress} (h : Turn s c p) (hs : WeightsFit s) :
    Ends WeightsFit WeightsFit WeightsFit p := by
  cases h with
  | resetCall => exact weightsFit_zero rfl
  | clr => exact weightsFit_zero rfl
  | failed hk hp hd => exact raise_weightsFit hs
  | counted v hp hv => exact weightsFit_set hs v.isLt (Nat.lt_of_le_of_ne (hs ⟨v.toNat, v.isLt⟩) hv) rfl rfl
  | leaf sym hp hn =>
    rcases completeSubtree_cases (.leaf sym 0) s.stack (_ : State) with ⟨u, e⟩ | ⟨k, e⟩ <;> rw [e] <;> exact hs
  | _ => exact hs

theorem weightsFit_invariant : StepInvariant fun _ => WeightsFit where
  data _ _ := Iff.rfl
  outside _ _ _ := Iff.rfl
  opened h hs := by
    rcases opens_cases h with ⟨-, -, rfl⟩ | ⟨-, -, rfl⟩ | ⟨-, -, rfl⟩ | ⟨-, -, -, rfl⟩ | ⟨-, -, root, -, rfl⟩
    · exact weightsFit_zero rfl
    · exact hs
    · exact hs
    · exact hs
    · exact hs
  turn h hs := turn_weightsFit (turnOf_turn h) hs
  attach hs := hs
  weight {_ sym v s} hv hs := by
    by_cases hsym : sym.val < 256
    · exact weightsFit_set hs hsym hv (by rw [wtWrite, dif_pos hsym]) (by rw [wtWrite_eq])
    · rw [wtWrite, dif_neg hsym]; exact hs
  reset {_ s} _ := by rcases hostReset_cases s with ⟨-, e⟩ | ⟨-, e⟩ <;> rw [e] <;> exact weightsFit_zero rfl

/-- Settles O57: a full weight is not counted further, and what an Overflow leaves fits. -/
theorem everyStepKeepsTheWeightsFit : Obligations.EveryStepKeepsTheWeightsFit :=
  fun _ _ hs h => weightsFit_invariant.step_const hs h

/-- Settles O55: after reset every list is empty, every weight is 0, and there is no tree. -/
theorem invariantsHoldAtReset : Obligations.InvariantsHoldAtReset :=
  ⟨⟨rfl, le_rfl, nofun⟩, weightsFit_zero rfl,
    (engineClean_iff _).mpr
      ⟨.of_outside (fun _ => rfl) nofun, fun _ => rfl, fun _ => ⟨rfl, rfl⟩, fun _ => rfl, by decide⟩,
    (treeFits_iff _).mpr (.of_none rfl rfl rfl nofun nofun)⟩

end Sys2Proof.Proofs
end

section
/-! SUPPORT. What each instruction leaves unchanged (R20, R248), from what each of its lines, or its token's effect,
leaves unchanged. -/

namespace Sys2Proof.Proofs

open Sys2Proof.Machine Sys2Proof.Laws

/-- A token taken as an instruction has its effect in RDH's reader, or none at all (log entry 4). -/
theorem execToken_next {i : Instr} (hi : i.format = .hdr) {s t : State} (h : exec i s = .next t) :
    t = s ∨ t = settle (tokenEffect i s) := by
  cases i
  case hdrI =>
    rw [exec, execHdrI] at h
    split at h <;> cases h
    · exact .inr rfl
    · exact .inl rfl
  case hdrL field =>
    rw [exec, execHdrL] at h
    split at h <;> cases h
    · exact .inr rfl
    · exact .inl rfl
  all_goals cases hi

theorem settle_onSeq (p : Progress) : ∃ q, settle p = onSeq q (stateOf p) := by
  cases p with
  | more s => exact ⟨s.seq, rfl⟩
  | done s => exact ⟨s.seq.tail, rfl⟩
  | raised s => exact ⟨s.seq.tail, rfl⟩

/-- What every line of a command leaves of a part of the state, the run of its lines leaves. -/
theorem runLines_keeps {α : Type} {f : State → α} {cs : List Component}
    (hline : ∀ c ∈ cs, ∀ s, f (stateOf (lineRule c s)) = f s) (s : State) : f (stateOf (runLines cs s)) = f s := by
  induction cs generalizing s with
  | nil => rfl
  | cons c cs ih =>
    have ih := ih fun d hd => hline d (.tail c hd)
    rcases runLines_cons c cs s with ⟨-, e⟩ | ⟨-, e⟩ <;> rw [e, ih]
    exact hline c (.head cs) s

/-- What every line of a command leaves of a part of the state, the command leaves: its frame changes `CMD`, `BUSY` and
`DONE` only (R220). -/
theorem exec_keeps {α : Type} {i : Instr} (hi : i.format = .cmd) {f : State → α}
    (hf : ∀ s w b d, f { s with cmd := w, busy := b, done := d } = f s)
    (hline : ∀ c ∈ linesOf i, ∀ s, f (stateOf (lineRule c s)) = f s) {s t : State} (h : exec i s = .next t) :
    f t = f s := by
  rcases exec_next hi h with ⟨-, rfl⟩ | ⟨-, ⟨-, -, rfl⟩ | ⟨-, rfl⟩⟩
  · rfl
  · exact hf s i.word false true
  · calc f (endCommand (stateOf (runLines (linesOf i) (beginCommand i s))))
        = f (stateOf (runLines (linesOf i) (beginCommand i s))) := hf _ _ false true
      _ = f (beginCommand i s) := runLines_keeps hline _
      _ = f s := hf s i.word true false

/-- A part of the state that neither the frame of a command nor the taking of a line off the list touches is left by every
instruction whose lines, or whose token's effect, leave it. -/
theorem exec_leaves {α : Type} {i : Instr} {f : State → α}
    (hf : ∀ s w b d q, f { s with cmd := w, busy := b, done := d, seq := q } = f s)
    (hline : ∀ c ∈ linesOf i, ∀ s, f (stateOf (lineRule c s)) = f s)
    (htoken : i.format = .hdr → ∀ s, f (stateOf (tokenEffect i s)) = f s) {s t : State} (h : exec i s = .next t) :
    f t = f s := by
  cases hi : i.format with
  | cmd => exact exec_keeps hi (fun s w b d => hf s w b d s.seq) hline h
  | hdr =>
    rcases execToken_next hi h with rfl | rfl
    · rfl
    · obtain ⟨q, e⟩ := settle_onSeq (tokenEffect i s)
      rw [e]
      exact (hf _ _ _ _ q).trans (htoken hi s)

/-- The sink has been left alone, unless an error is recorded in `t`. -/
def SinkKept (s t : State) : Prop := t.err = .none → s.err = .none ∧ t.snk = s.snk

theorem SinkKept.refl (s : State) : SinkKept s s := fun he => ⟨he, rfl⟩

theorem SinkKept.trans {s t u : State} (h : SinkKept s t) (h' : SinkKept t u) : SinkKept s u := fun hu => by
  obtain ⟨ht, hsnk⟩ := h' hu
  obtain ⟨hs, hsnk'⟩ := h ht
  exact ⟨hs, hsnk.trans hsnk'⟩

/-- A turn of a line that writes no output leaves the sink, unless it raises an error (R69, R248). -/
theorem turn_sinkKept {c : Component} {s : State} {p : Progress} (h : Turn s c p) (hc : c.writesSink = false)
    (hclr : c ≠ .clr) : Ends (SinkKept s) (SinkKept s) (SinkKept s) p := by
  cases h with
  | clr => exact absurd rfl hclr
  | refused _ => exact nofun
  | failed hk hp hd => exact fun he => absurd (by rwa [raise_err] at he) hk
  | wrote hw hp h =>
    have hwrites : ∀ c ∈ [Component.wrm, .wrh, .encLoop], c.writesSink = true := by decide
    exact absurd (hc.symm.trans (hwrites c hw)) (by decide)
  | encoded hp h => cases hc
  | walked n hp => cases hc
  | emitted root hp h => cases hc
  | stopped hp => cases hc
  | finished => cases hc
  | leaf sym hp hn =>
    rcases completeSubtree_cases (.leaf sym 0) s.stack (_ : State) with ⟨u, e⟩ | ⟨k, e⟩ <;> rw [e] <;>
      exact fun he => ⟨he, rfl⟩
  | _ => exact fun he => ⟨he, rfl⟩

theorem opens_sinkKept {c d : Component} {s t : State} (h : opens c s = some (d, t)) :
    SinkKept s t ∧ d.writesSink = c.writesSink := by
  rcases opens_cases h with ⟨rfl, rfl, rfl⟩ | ⟨rfl, rfl, rfl⟩ | ⟨rfl, rfl, rfl⟩ | ⟨rfl, rfl, -, rfl⟩ |
    ⟨rfl, rfl, root, -, rfl⟩ <;> exact ⟨fun he => ⟨he, rfl⟩, rfl⟩

theorem lineRule_sinkKept {c : Component} (hin : c.inside = false) (hc : c.writesSink = false) (hclr : c ≠ .clr)
    (s : State) : SinkKept s (stateOf (lineRule c s)) := by
  cases ho : opens c s with
  | none =>
    rw [← turnOf_outside hin]
    exact stateOf_of_ends (turn_sinkKept (turnOf_turn ho) hc hclr)
  | some p =>
    obtain ⟨n, e⟩ := lineRule_of_opens (d := p.1) (t := p.2) ho
    obtain ⟨-, hd, -⟩ := opens_frame ho
    obtain ⟨hopen, hwrites⟩ := opens_sinkKept ho
    have hturn : ∀ u, Ends (SinkKept u) (SinkKept u) (SinkKept u) (turnOf p.1 u) := fun u =>
      turn_sinkKept (turnOf_turn (opens_inside hd u)) (hwrites.trans hc) (by rintro h; rw [h] at hd; cases hd)
    rw [e]
    exact hopen.trans
      (stateOf_of_ends (iterate_frame SinkKept.refl (fun _ _ _ => SinkKept.trans) hturn n p.2))

theorem runLines_sinkKept {cs : List Component}
    (hcs : ∀ c ∈ cs, c.inside = false ∧ c.writesSink = false ∧ c ≠ .clr) (s : State) :
    SinkKept s (stateOf (runLines cs s)) := by
  induction cs generalizing s with
  | nil => exact fun he => ⟨he, rfl⟩
  | cons c cs ih =>
    have ih := ih fun d hd => hcs d (.tail c hd)
    obtain ⟨hin, hc, hclr⟩ := hcs c (.head cs)
    rcases runLines_cons c cs s with ⟨-, e⟩ | ⟨-, e⟩ <;> rw [e]
    · exact ih s
    · exact (lineRule_sinkKept hin hc hclr s).trans (ih _)

theorem tokenEffect_sinkKept (i : Instr) (s : State) : SinkKept s (stateOf (tokenEffect i s)) := by
  cases i
  case hdrL field =>
    rcases tokenLeaf_cases field s with ⟨-, e⟩ | ⟨hlt, e⟩ <;> rw [tokenEffect, e]
    · exact fun he => absurd ((raise_err _ _ _).symm.trans he) (by decide)
    · rcases completeSubtree_cases (.leaf ⟨_, hlt⟩ 0) s.stack s with ⟨u, e⟩ | ⟨k, e⟩ <;> rw [e] <;>
        exact fun he => ⟨he, rfl⟩
  all_goals exact fun he => ⟨he, rfl⟩

theorem tokenEffect_src (i : Instr) (s : State) : (stateOf (tokenEffect i s)).src = s.src := by
  cases i
  case hdrL field =>
    rcases tokenLeaf_cases field s with ⟨-, e⟩ | ⟨hlt, e⟩ <;> rw [tokenEffect, e]
    · exact raise_src _ _ _
    · rcases completeSubtree_cases (.leaf ⟨_, hlt⟩ 0) s.stack s with ⟨u, e⟩ | ⟨k, e⟩ <;> rw [e] <;> rfl
  all_goals rfl

/-- An instruction that writes no output leaves the sink, unless it raises an error (R20, R248). -/
theorem exec_snk {i : Instr} (hi : i ∉ [Instr.wrm, .wrh, .enc, .dec, .fin, .cmp, .dcm]) {s t : State}
    (hs : NoError s ∨ i.format = .cmd) (he : t.err = s.err) (h : exec i s = .next t) : t.snk = s.snk := by
  cases hfmt : i.format with
  | hdr =>
    have hnone : s.err = .none := hs.resolve_right (by rw [hfmt]; decide)
    rcases execToken_next hfmt h with rfl | rfl
    · rfl
    · obtain ⟨q, e⟩ := settle_onSeq (tokenEffect i s)
      rw [e] at he ⊢
      exact (tokenEffect_sinkKept i s (he.trans hnone)).2
  | cmd =>
    by_cases hplain : i = .nop ∨ i = .clr
    · refine exec_keeps (f := State.snk) hfmt (fun _ _ _ _ => rfl) (fun c hc s => ?_) h
      rcases hplain with rfl | rfl
      · cases hc
      · cases List.mem_singleton.mp hc; rfl
    · have hcs : ∀ c ∈ linesOf i, c.inside = false ∧ c.writesSink = false ∧ c ≠ .clr := by
        cases i <;> simp_all [linesOf, Component.inside, Component.writesSink]
      have hrun : runsUnderError i = false := by cases i <;> simp_all [runsUnderError]
      rcases exec_next hfmt h with ⟨-, rfl⟩ | ⟨-, ⟨-, -, rfl⟩ | ⟨hr, rfl⟩⟩
      · rfl
      · rfl
      · have hnone : s.err = .none := hr.resolve_right (by simp [hrun])
        exact (runLines_sinkKept hcs _ (he.trans hnone)).2

/-- Settles O53: what every line of a command, or the token's effect, leaves unchanged, the instruction leaves unchanged. -/
theorem stateIsWrittenOnlyByItsWriters : Obligations.StateIsWrittenOnlyByItsWriters := by
  intro i s t h
  have hline := stateOf_lineRule_frame
  have htoken := fun s => stateOf_of_ends (tokenEffect_frame i s)
  refine ⟨fun hi => ?_, fun hi hfmt => ?_, fun hi => ?_, fun hi => ?_, fun hi => ?_, fun hi => ?_,
    fun hi hs he => exec_snk hi hs he h, fun hfmt => ?_, ?_, ?_, ?_, ?_⟩
  · have hcs : ∀ c ∈ linesOf i, c ∉ [Component.resetCall, .clr, .cnt, .cntLoop] := by
      cases i <;> simp_all [linesOf]
    exact exec_leaves (f := State.wt) (fun _ _ _ _ _ => rfl) (fun c hc s => (hline c s).wt (hcs c hc))
      (fun _ s => (htoken s).wt (by decide)) h
  · have hcs : ∀ c ∈ linesOf i, c ∉ [Component.resetCall, .clr, .bld, .bldLoop, .rdh, .header] := by
      cases i <;> simp_all [linesOf]
    exact exec_keeps (f := State.tree) hfmt (fun _ _ _ _ => rfl) (fun c hc s => (hline c s).tree (hcs c hc)) h
  · have hcs : ∀ c ∈ linesOf i, c ∉ [Component.resetCall, .clr, .bld, .rdh, .gen] := by
      cases i <;> simp_all [linesOf]
    have hct : t.ct = s.ct := exec_leaves (f := State.ct) (fun _ _ _ _ _ => rfl)
      (fun c hc s => ((hline c s).ct (hcs c hc)).1) (fun _ s => ((htoken s).ct (by decide)).1) h
    have hctV : t.ctV = s.ctV := exec_leaves (f := State.ctV) (fun _ _ _ _ _ => rfl)
      (fun c hc s => ((hline c s).ct (hcs c hc)).2) (fun _ s => ((htoken s).ct (by decide)).2) h
    exact ⟨hct, hctV⟩
  · have hcs : ∀ c ∈ linesOf i, c ∉ [Component.resetCall, .clr, .dec, .decLoop] := by
      cases i <;> simp_all [linesOf]
    exact exec_leaves (f := State.dstate) (fun _ _ _ _ _ => rfl) (fun c hc s => (hline c s).dstate (hcs c hc))
      (fun _ s => (htoken s).dstate (by decide)) h
  · have hcs : ∀ c ∈ linesOf i,
        c ∉ [Component.cnt, .cntLoop, .enc, .encLoop, .rdm, .rdh, .header, .dec, .decLoop, .rwd] := by
      cases i <;> simp_all [linesOf]
    exact exec_leaves (f := State.src) (fun _ _ _ _ _ => rfl) (fun c hc s => (hline c s).src (hcs c hc))
      (fun _ s => tokenEffect_src i s) h
  · have hcs : ∀ c ∈ linesOf i, c ≠ .fin := by cases i <;> simp_all [linesOf]
    exact exec_leaves (f := fun s => s.snk.finished) (fun _ _ _ _ _ => rfl)
      (fun c hc s => (hline c s).finished (hcs c hc)) (fun _ s => (htoken s).finished (by decide)) h
  · exact exec_keeps (f := State.seq) hfmt (fun _ _ _ _ => rfl) (fun c _ s => (hline c s).seq) h
  · exact exec_leaves (f := fun s => s.src.bits) (fun _ _ _ _ _ => rfl) (fun c _ s => (hline c s).srcBits)
      (fun _ s => (htoken s).srcBits) h
  · exact exec_leaves (f := State.cfg) (fun _ _ _ _ _ => rfl) (fun c _ s => (hline c s).cfg)
      (fun _ s => (htoken s).cfg) h
  · exact exec_leaves (f := State.host) (fun _ _ _ _ _ => rfl) (fun c _ s => (hline c s).host)
      (fun _ s => (htoken s).host) h
  · exact exec_leaves (f := State.hostRead) (fun _ _ _ _ _ => rfl) (fun c _ s => (hline c s).hostRead)
      (fun _ s => (htoken s).hostRead) h

end Sys2Proof.Proofs
end

section
/-! SUPPORT. The registers (R36, R37), the reset (R43, R270) and the host's accesses to the weights (R22, R71). -/

namespace Sys2Proof.Proofs

open Sys2Proof.Machine Sys2Proof.Laws

/-- The fields of `STATUS`, each found above the fields below it (R37). -/
theorem statusWord_fields (s : State) :
    (statusWord s).extractLsb' 0 1 = BitVec.ofBool s.busy ∧
    (statusWord s).extractLsb' 1 1 = BitVec.ofBool s.done ∧
    (statusWord s).extractLsb' 2 3 = s.err.code ∧
    (statusWord s).extractLsb' 5 2 = s.dstate.code ∧
    (statusWord s).extractLsb' 7 1 = BitVec.ofBool s.tree.isSome ∧
    (statusWord s).extractLsb' 8 1 = BitVec.ofBool s.ctV ∧
    (statusWord s).extractLsb' 9 7 = 0#7 := by
  rw [statusWord, treeV]
  refine ⟨?_, ?_, ?_, ?_, ?_, ?_, ?_⟩ <;> repeat rw [BitVec.extractLsb'_append_eq_of_le (by decide)]
  · exact BitVec.extractLsb'_append_eq_right
  · exact BitVec.extractLsb'_append_eq_right
  · exact BitVec.extractLsb'_append_eq_right
  · exact BitVec.extractLsb'_append_eq_right
  · exact BitVec.extractLsb'_append_eq_right
  · exact BitVec.extractLsb'_append_eq_right
  · exact BitVec.extractLsb'_zero

/-- Settles O6: the fields of `STATUS`, and the host's accesses to register 1. -/
theorem statusShowsItsFieldsAndIsReadOnly : Obligations.StatusShowsItsFieldsAndIsReadOnly :=
  ⟨statusWord_fields, by decide, by decide, by decide, fun _ _ => ⟨fun _ => step_cons, step_cons⟩⟩

/-- The reset values of the block's own state are those of R43, whatever the ports, the parameters and the host's side. -/
theorem resetInternal_values (s : State) : ResetValues (resetInternal s) := by
  have hstatus : statusWord (resetInternal s) = 0#16 := by
    show statusWord State.reset = 0#16
    decide
  refine ⟨fun sym => ?_, rfl, rfl, fun sym => ?_, rfl, rfl, rfl, rfl, rfl, rfl, hstatus, rfl, rfl⟩
  · by_cases h : sym = eofSym
    · rw [if_pos h, h]; rfl
    · have hlt := (ne_eofSym_iff sym).mp h
      rw [if_neg h, wtRead, dif_pos hlt]
      simp [resetInternal, State.reset]
  · simp [ctGet, resetInternal, State.reset]

/-- Settles O7: a reset gives the reset values, inside a command too, where it first spoils the ports. -/
theorem resetGivesTheResetValues : Obligations.ResetGivesTheResetValues := by
  refine ⟨resetInternal_values State.reset, fun s rest h => ⟨_, step_cons h, ?_⟩⟩
  rcases hostReset_cases { s with host := rest } with ⟨hb, e⟩ | ⟨hb, e⟩ <;> rw [e]
  · exact ⟨resetInternal_values _, rfl, rfl, rfl, fun _ => ⟨rfl, rfl⟩⟩
  · exact ⟨resetInternal_values _, rfl, rfl, rfl, fun hidle => absurd (hb.symm.trans hidle) (by decide)⟩

/-- A command word is the word of the command it decodes to (R92, R93). -/
theorem decodeCommand_word (w : Byte) : (decodeCommand w).word = w := by
  have htable : ∀ p ∈ commandTable, p.2.word.toNat = p.1 := by decide
  cases h : commandTable.lookup w.toNat with
  | none => rw [decodeCommand, h]; rfl
  | some i =>
    obtain ⟨l₁, l₂, hl, -⟩ := List.lookup_eq_some_iff.mp h
    rw [decodeCommand, h]
    exact BitVec.eq_of_toNat_eq (htable (w.toNat, i) (by simp [hl]))

/-- Settles O14: the started command holds its word and its lines; busy, the write is dropped. -/
theorem cmdStartsACommandAndReadsZero : Obligations.CmdStartsACommandAndReadsZero := by
  refine fun s w rest => ⟨fun hidle h => ?_, fun hb h => ?_, fun h => step_cons h⟩
  · rw [step_cons h, hostAct, hostWriteReg_cmd, startCommand_idle (by exact hidle)]
    simp only [onSeq, beginCommand, decodeCommand_word]
  · rw [step_cons h, hostAct, hostWriteReg_cmd, startCommand_busy (by exact hb)]

theorem wtWrite_host (sym : Symbol) (v : Nat) (s : State) (rest : List HostAction) :
    wtWrite sym v { s with host := rest } = { s with host := rest, wt := (wtWrite sym v s).wt } := by
  unfold wtWrite
  split <;> rfl

/-- Settles O11: a write is read back at its entry alone, and never at the sentinel's. -/
theorem hostReadsAndWritesWeights : Obligations.HostReadsAndWritesWeights := by
  refine ⟨fun _ => rfl, fun s sym rest hidle => ⟨fun h => ?_, fun v hv h => ?_, fun v h => ?_⟩⟩
  · rw [step_cons h, hostAct, hostReadWt, if_neg (by simp [hidle])]
    rfl
  · refine ⟨(wtWrite sym v s).wt, ?_, fun y => ?_⟩
    · rw [step_cons h]
      rcases hostWriteWt_cases sym v { s with host := rest } with ⟨hb, -⟩ | ⟨-, -, e⟩ | ⟨-, hlt, -⟩
      · exact absurd (hb.symm.trans hidle) (by decide)
      · rw [hostAct, e, wtWrite_host]
      · exact absurd hv (Nat.not_le.mpr hlt)
    · rw [← wtWrite_eq, wtRead_wtWrite]
  · rcases hostWriteWt_writes sym v { s with host := rest } with ⟨hb, -⟩ | ⟨-, w, n, hw, e⟩
    · exact absurd (hb.symm.trans hidle) (by decide)
    · refine ⟨(wtWrite sym w s).wt, n, ?_, fun y hy => ?_, fun hsym => ?_⟩
      · rw [step_cons h, hostAct, e, wtWrite_host]
      · rw [← wtWrite_eq, wtRead_wtWrite, if_neg (not_and_or.mpr (hy.imp_right not_not.mpr))]
      · rw [← wtWrite_eq, wtRead_wtWrite, if_pos ⟨rfl, hsym⟩]
        exact hw

end Sys2Proof.Proofs
end

section
/-! SUPPORT. The ports: units bit by bit, attach, reads, writes, rewind and finish (R61 to R67, R79). -/

namespace Sys2Proof.Proofs

open Sys2Proof.Machine Sys2Proof.Laws

/-! ### Units and bytes, bit by bit -/

/-- The bits of a unit leave it most significant first (R66). -/
theorem getElem?_bitsOf {n k : Nat} (v : Nat) (h : k < n) : (bitsOf n v)[k]? = some (v.testBit (n - 1 - k)) := by
  induction n generalizing k with
  | zero => exact absurd h (Nat.not_lt_zero k)
  | succ n ih =>
    cases k with
    | zero => rfl
    | succ k =>
      rw [bitsOf, List.getElem?_cons_succ, ih (Nat.lt_of_succ_lt_succ h)]
      congr 2
      omega

/-- Bit `k` of a byte sequence is bit `7 - k mod 8` of its byte `k div 8` (R67). -/
theorem getElem?_bitsOfBytes {bytes : List Byte} {k : Nat} {b : Byte} (h : bytes[k / 8]? = some b) :
    (bitsOfBytes bytes)[k]? = some (b.getLsbD (7 - k % 8)) := by
  induction bytes generalizing k with
  | nil => cases h
  | cons c cs ih =>
    rw [bitsOfBytes_cons]
    by_cases hk : k < 8
    · rw [Nat.div_eq_of_lt hk] at h
      cases h
      rw [List.getElem?_append_left (by rwa [length_bitsOf]), getElem?_bitsOf _ hk, Nat.mod_eq_of_lt hk]
      rfl
    · obtain ⟨j, rfl⟩ := Nat.exists_eq_add_of_le' (Nat.not_lt.mp hk)
      rw [Nat.add_div_right j (by decide), List.getElem?_cons_succ] at h
      rw [List.getElem?_append_right (by rw [length_bitsOf]; omega), length_bitsOf, Nat.add_sub_cancel,
        Nat.add_mod_right, ih h]

/-! ### The ports' operations -/

/-- Settles O13: an idle host's attach supplies the bits of the bytes, in which bit `k` stands in byte `k div 8`. -/
theorem attachConnectsThePorts : Obligations.AttachConnectsThePorts := by
  intro s bytes rest hidle h
  refine ⟨bitsOfBytes bytes, ?_, length_bitsOfBytes bytes, fun _ _ => getElem?_bitsOfBytes⟩
  rw [step_cons h, hostAct, attachPorts, if_neg (by simp [hidle])]

/-- A source whose cursor is at the end answers every read of one bit or more with `EOS` (R61). -/
theorem readUnit_at_end {m : Nat} {s : State} (h : s.src.pos = s.src.bits.length) (hm : 1 ≤ m) :
    (readUnit m s).1 = none := by
  rw [readUnit_eos (by omega)]

/-- Settles O15: the value of `n` bits fits a unit of `n` bits, and `EOS` leaves the cursor at the end. -/
theorem readUnitTakesTheNextBits : Obligations.ReadUnitTakesTheNextBits := by
  refine fun n s _ _ => ⟨fun h => ⟨_, readUnit_some h, ?_⟩, fun h => ⟨readUnit_eos h, fun m hm => ?_⟩⟩
  · have hlen : (s.src.rest.take n).length = n := by
      rw [List.length_take, left_eq_length_rest, Source.left]
      omega
    have hlt := val_lt (s.src.rest.take n)
    rw [hlen] at hlt
    rw [BitVec.toNat_ofNat, Nat.mod_eq_of_lt hlt, Source.rest]
  · rw [readUnit_eos h]
    exact readUnit_at_end rfl hm

/-- A written unit is read as its low `n` bits, wherever it stands in a source (R61, R66). -/
theorem readUnit_of_written (n v : Nat) (before after : Bits) (s : State) :
    (readUnit n { s with src := { bits := before ++ bitsOf n v ++ after, pos := before.length } }).1 =
      some (BitVec.ofNat n v) := by
  have hunit : bitsOf n v = bitsOf n (BitVec.ofNat n v).toNat :=
    bitsOf_congr n (by rw [BitVec.toNat_ofNat, Nat.mod_mod])
  rw [hunit, readUnit_bitsOf (BitVec.ofNat n v) (tail := after) (by simp [Source.rest]) (by simp)]

/-- Settles O16: an open sink gets the bits of the unit, whose `k`-th is bit `n - 1 - k`. -/
theorem writeUnitAppendsAndReadsBack : Obligations.WriteUnitAppendsAndReadsBack := by
  refine fun n v s _ _ => ⟨writeUnit_finished n v, fun hopen => ?_⟩
  exact ⟨bitsOf n v, writeUnit_open n v hopen, length_bitsOf n v, fun _ => getElem?_bitsOf v,
    fun before after => readUnit_of_written n v before after s⟩

/-- An idle FIN is `finish()` in the frame of R220, whether or not an error is recorded (R218, R249). -/
theorem exec_fin_idle {s : State} (hidle : Idle s) :
    exec .fin s = .next { ran .fin s with snk := s.snk.finish } :=
  runCommand_done (i := .fin) (rule := finRule) hidle (.inr rfl) rfl

/-- Settles O17: `finish()` keeps a finished sink, and pads an open one with fewer than eight bits. -/
theorem finFinishesTheSink : Obligations.FinFinishesTheSink := by
  refine fun s hidle => ⟨fun hfin => ?_, fun hopen => ?_⟩
  · rw [exec_fin_idle hidle, finish_finished hfin]
    rfl
  · refine ⟨(8 - s.snk.bits.length % 8) % 8, Nat.mod_lt _ (by decide), by omega, ?_⟩
    rw [exec_fin_idle hidle, finish_open hopen, padToByte]

/-- Settles O22: RWD's one line is `rewind()`, in the frame of R220. -/
theorem rwdRewindsTheSource : Obligations.RwdRewindsTheSource :=
  fun _ hidle hnone => runCommand_done (i := .rwd) (rule := rwdRule) hidle (.inl hnone) rfl

end Sys2Proof.Proofs
end

section
/-! SUPPORT. The decoder and the encoder are inverse (R91 to R97), and a header as its tokens (R96, R108). -/

namespace Sys2Proof.Proofs

open Sys2Proof.Machine Sys2Proof.Laws

/-! ### Command words -/

/-- A word is a row of the opcode map, or has a bit of `[7:4]` set and is illegal (R92, R93). -/
theorem decodeCommand_cases (w : Byte) :
    (w.toNat, decodeCommand w) ∈ commandTable ∨ (16 ≤ w.toNat ∧ decodeCommand w = .illegalHi w) := by
  cases h : commandTable.lookup w.toNat with
  | none =>
    refine .inr ⟨?_, by rw [decodeCommand, h]⟩
    by_contra hlt
    have hkey : w.toNat ∈ commandTable.map Prod.fst := List.mem_range.mpr (Nat.not_le.mp hlt)
    obtain ⟨p, hp, e⟩ := List.mem_map.mp hkey
    have hne := List.lookup_eq_none_iff.mp h p hp
    simp [e] at hne
  | some i =>
    obtain ⟨l₁, l₂, hl, -⟩ := List.lookup_eq_some_iff.mp h
    rw [decodeCommand, h]
    exact .inl (by simp [hl])

/-- The words with a bit of `[7:4]` set are those from 0x10 on (R93). -/
theorem illegalHi_wf_iff (w : Byte) : (Instr.illegalHi w).wf = true ↔ 16 ≤ w.toNat := by
  have hw := w.isLt
  have hhigh : (w.extractLsb 7 4).toNat = w.toNat / 16 := by
    rw [BitVec.extractLsb_toNat, Nat.shiftRight_eq_div_pow]
    omega
  rw [Instr.wf, bne_iff_ne, ne_eq, ← BitVec.toNat_inj, hhigh]
  simp only [BitVec.toNat_ofNat]
  omega

theorem decodeCommand_wf (w : Byte) : (decodeCommand w).wf = true := by
  have htable : ∀ p ∈ commandTable, p.2.wf = true := by decide
  rcases decodeCommand_cases w with h | ⟨hw, e⟩
  · exact htable _ h
  · rw [e, illegalHi_wf_iff]
    exact hw

/-- A well-formed command is the one its word decodes to (R92, R93). -/
theorem decodeCommand_of_word {i : Instr} (hfmt : i.format = .cmd) (hwf : i.wf = true) : decodeCommand i.word = i := by
  cases i with
  | illegalHi w =>
    have hkeys : ∀ p ∈ commandTable, p.1 < 16 := by decide
    have hw := (illegalHi_wf_iff w).mp hwf
    rcases decodeCommand_cases w with h | ⟨-, e⟩
    · exact absurd hw (Nat.not_le.mpr (hkeys _ h))
    · exact e
  | hdrI => cases hfmt
  | hdrL field => cases hfmt
  | _ => rfl

/-- A command is encoded as its word (R91). -/
theorem encode_command {i : Instr} (hfmt : i.format = .cmd) : encode i = bitsOf 8 i.word.toNat := by
  cases i with
  | hdrI => cases hfmt
  | hdrL field => cases hfmt
  | _ => rfl

/-! ### Units of bits -/

/-- A bit string of `n` bits, as a unit, and back. -/
theorem bitsOf_ofNat_val {n : Nat} {u : Bits} (h : u.length = n) : bitsOf n (BitVec.ofNat n (val u)).toNat = u := by
  subst h
  rw [BitVec.toNat_ofNat, Nat.mod_eq_of_lt (val_lt u), bitsOf_val]

/-- A string of at least `n` bits is its first unit of `n` bits and the bits left. -/
theorem bitsOf_val_take_append_drop {n : Nat} {bits : Bits} (h : n ≤ bits.length) :
    bitsOf n (BitVec.ofNat n (val (bits.take n))).toNat ++ bits.drop n = bits := by
  rw [bitsOf_ofNat_val (by rw [List.length_take, Nat.min_eq_left h]), List.take_append_drop]

@[simp] theorem take_bitsOf_append (n v : Nat) (rest : Bits) : (bitsOf n v ++ rest).take n = bitsOf n v :=
  List.take_left' (length_bitsOf n v)

@[simp] theorem drop_bitsOf_append (n v : Nat) (rest : Bits) : (bitsOf n v ++ rest).drop n = rest :=
  List.drop_left' (length_bitsOf n v)

/-! ### Both formats -/

theorem decode_cmd_word (w : Byte) (rest : Bits) :
    decode .cmd (bitsOf 8 w.toNat ++ rest) = .ok (decodeCommand w, rest) := by
  rw [decode, if_pos (by simp), take_bitsOf_append, drop_bitsOf_append, ofNat_val_bitsOf]

theorem decode_hdrL (f : BitVec 9) (rest : Bits) :
    decode .hdr (true :: (bitsOf 9 f.toNat ++ rest)) = .ok (.hdrL f, rest) := by
  rw [decode, decodeToken, if_pos (by simp), take_bitsOf_append, drop_bitsOf_append, ofNat_val_bitsOf]

/-- Settles O3: a command comes back through its word, a leaf token through its symbol field. -/
theorem decodeOfEncodeIsTheInstruction : Obligations.DecodeOfEncodeIsTheInstruction := by
  intro i rest hwf
  cases hfmt : i.format with
  | cmd => rw [encode_command hfmt, decode_cmd_word, decodeCommand_of_word hfmt hwf]
  | hdr =>
    cases i with
    | hdrI => rfl
    | hdrL f => exact decode_hdrL f rest
    | _ => cases hfmt

/-- A bit string that decodes to a token is that token's encoding and the bits left (R94, R95). -/
theorem decodeToken_ok {bits rest : Bits} {i : Instr} (h : decodeToken bits = .ok (i, rest)) :
    i.format = .hdr ∧ bits = encode i ++ rest := by
  match bits with
  | [] => cases h
  | false :: bits => cases h; exact ⟨rfl, rfl⟩
  | true :: bits =>
    rw [decodeToken] at h
    split at h <;> cases h
    exact ⟨rfl, congrArg (true :: ·) (bitsOf_val_take_append_drop ‹_›).symm⟩

/-- Every field makes a leaf token (R97). -/
theorem wf_of_token {i : Instr} (hfmt : i.format = .hdr) : i.wf = true := by
  cases i with
  | hdrI => rfl
  | hdrL f => rfl
  | _ => cases hfmt

/-- Settles O4: the first unit of a command's bits is its word; a token's bits are its tag and its field. -/
theorem decodedBitsAreTheEncoding : Obligations.DecodedBitsAreTheEncoding := by
  intro f bits rest i h
  cases f with
  | cmd =>
    rw [decode] at h
    split at h <;> cases h
    refine ⟨decodeCommand_wf _, decodeCommand_format _, ?_⟩
    rw [encode_command (decodeCommand_format _), decodeCommand_word, bitsOf_val_take_append_drop ‹_›]
  | hdr =>
    obtain ⟨hfmt, hbits⟩ := decodeToken_ok h
    exact ⟨wf_of_token hfmt, hfmt, hbits⟩

/-! ### The header of a tree -/

/-- A symbol fits the field of a leaf token (R97). -/
theorem toNat_ofNat_symbol (sym : Symbol) : (BitVec.ofNat 9 sym.val).toNat = sym.val :=
  Nat.mod_eq_of_lt (by omega)

theorem ser_eq_encode_tokens (t : Tree) : t.ser = t.tokens.flatMap encode := by
  induction t with
  | leaf sym w => rw [Tree.ser, Tree.tokens, List.flatMap_singleton, encode, toNat_ofNat_symbol]
  | node w l r ihl ihr => simp [Tree.ser, Tree.tokens, encode, ihl, ihr]

theorem tokens_writable (t : Tree) : ∀ i ∈ t.tokens, i.writable = true := by
  induction t with
  | leaf sym w =>
    intro i hi
    cases List.mem_singleton.mp hi
    simp only [Instr.writable, toNat_ofNat_symbol, decide_eq_true_eq]
    omega
  | node w l r ihl ihr =>
    intro i hi
    rcases List.mem_cons.mp hi with rfl | hi
    · rfl
    · exact (List.mem_append.mp hi).elim (ihl i) (ihr i)

theorem leaves_length_pos (t : Tree) : 1 ≤ t.leaves.length := by
  have := size_pos t
  have := size_eq_leaves t
  omega

/-- Ten bits a leaf and one an internal node (R108). -/
theorem length_ser (t : Tree) : t.ser.length = 11 * t.leaves.length - 1 := by
  induction t with
  | leaf sym w => simp [Tree.ser, Tree.leaves]
  | node w l r ihl ihr =>
    have := leaves_length_pos l
    have := leaves_length_pos r
    simp only [Tree.ser, Tree.leaves, List.length_cons, List.length_append, ihl, ihr]
    omega

/-- Settles O5: by induction on the tree, whose nodes and leaves are the tokens. -/
theorem headerIsItsTokensAndTheirLength : Obligations.HeaderIsItsTokensAndTheirLength := by
  refine fun t => ⟨ser_eq_encode_tokens t, tokens_writable t, ?_, length_ser t⟩
  have := size_eq_leaves t
  have := leaves_length_pos t
  omega

/-! ### Sample words and illegal words -/

/-- Settles O1: the decoder run on each of the words. -/
theorem sampleWordsDecodeToTheirInstructions : Obligations.SampleWordsDecodeToTheirInstructions := by
  unfold Obligations.SampleWordsDecodeToTheirInstructions
  and_intros <;> rfl

/-- The words from 0x0F on are the illegal ones (R93). -/
theorem decodeCommand_illegal {w : Byte} (h : 0x0F ≤ w.toNat) :
    decodeCommand w = if w = 0x0F#8 then .illegal0F else .illegalHi w := by
  have htable : ∀ p ∈ commandTable, 15 ≤ p.1 → p.1 = 15 ∧ p.2 = .illegal0F := by decide
  rcases decodeCommand_cases w with hw | ⟨hw, e⟩
  · obtain ⟨hkey, e⟩ := htable _ hw h
    rw [if_pos (BitVec.eq_of_toNat_eq hkey)]
    exact e
  · rw [e, if_neg (by rintro rfl; exact absurd hw (by decide))]

/-- An illegal word is refused in the frame of R220 (R93). -/
theorem exec_illegal {i : Instr} (hi : linesOf i = [.illegal]) {s : State} (hidle : Idle s) (hnone : NoError s) :
    exec i s = .next { ran i s with err := .badCommand } := by
  cases i with
  | illegal0F => exact runCommand_raised (rule := illegalRule) hidle (.inl hnone) rfl
  | illegalHi w => exact runCommand_raised (rule := illegalRule) hidle (.inl hnone) rfl
  | _ => cases hi

/-- Settles O2: the words below 0x0F are rows of the opcode map, and an illegal word is refused. -/
theorem illegalWordsRaiseBadCommand : Obligations.IllegalWordsRaiseBadCommand := by
  refine ⟨fun w hw => ?_, fun w s hw hidle hnone => ⟨decodeCommand_illegal hw, exec_illegal ?_ hidle hnone⟩⟩
  · have htable : ∀ p ∈ commandTable, p.1 < 15 → p.2 ∈
        [Instr.nop, .cnt, .bld, .gen, .wrm, .wrh, .enc, .rdm, .rdh, .dec, .rwd, .fin, .cmp, .dcm, .clr] := by decide
    rcases decodeCommand_cases w with h | ⟨h, -⟩
    · exact htable _ h hw
    · omega
  · rw [decodeCommand_illegal hw]
    split <;> rfl

end Sys2Proof.Proofs
end

section
/-! SUPPORT. The header's tokens inside RDH: the step that fetches one, and what it does to the reader's stack (R94,
R95, R165); and the entries of the code table as the host reads them (R102). -/

namespace Sys2Proof.Proofs

open Sys2Proof.Machine Sys2Proof.Laws

/-! ### Fetching a token -/

/-- A source that still holds bits has its cursor before its end. -/
theorem pos_le_of_rest {s : Source} {n v : Nat} {tail : Bits} (hn : 0 < n) (h : s.rest = bitsOf n v ++ tail) :
    s.pos ≤ s.bits.length := by
  have hlen := congrArg List.length h
  rw [left_eq_length_rest, Source.left, List.length_append, length_bitsOf] at hlen
  omega

/-- A unit of one bit or more that stands at the cursor is read, and the bits after it are left (R61). -/
theorem readUnit_next {n : Nat} (hn : 0 < n) (v : BitVec n) {s : State} {tail : Bits}
    (h : s.src.rest = bitsOf n v.toNat ++ tail) :
    readUnit n s = (some v, atPos (s.src.pos + n) s) ∧ (atPos (s.src.pos + n) s).src.rest = tail :=
  ⟨readUnit_bitsOf v h (pos_le_of_rest hn h), by rw [rest_advance, h, drop_bitsOf_append]⟩

/-- The header reader fetches the token whose encoding stands at the cursor, and counts its node (R165). -/
theorem fetchToken_encode {i : Instr} (hfmt : i.format = .hdr) {s : State} {tail : Bits} (hn : s.nodes < nodeCap)
    (h : s.src.rest = encode i ++ tail) :
    fetchToken s = .ok (i, { atPos (s.src.pos + (encode i).length) s with nodes := s.nodes + 1 }) := by
  cases i with
  | hdrI =>
    obtain ⟨htag, -⟩ := readUnit_next (n := 1) (by decide) 0#1 h
    rw [fetchToken, htag]
    simp [hn, encode]
  | hdrL f =>
    obtain ⟨htag, hrest⟩ := readUnit_next (n := 1) (by decide) 1#1 (tail := bitsOf 9 f.toNat ++ tail) h
    obtain ⟨hfield, -⟩ := readUnit_next (s := { atPos (s.src.pos + 1) s with nodes := s.nodes + 1 }) (by decide) f hrest
    rw [fetchToken, htag]
    simp [hn, encode, hfield]
  | _ => cases hfmt

/-- A step of a running RDH is the step of its header reader, driven by the engine or by the host. -/
theorem step_reading {s : State} {h : List HostAction} (hh : s.host = [] ∧ h = [] ∨ s.host = .engine :: h)
    (hread : readingHeader s = true) (hnone : NoError s) : step s = lineStep .header { s with host := h } := by
  obtain ⟨hb, hq⟩ : s.busy = true ∧ s.seq.head? = some .header := by simpa [readingHeader] using hread
  obtain ⟨cs, hcs⟩ := List.head?_eq_some_iff.mp hq
  have hline : engineStep { s with host := h } = lineStep .header { s with host := h } := by
    simp [engineStep, hb, hcs, hnone]
  rcases hh with ⟨hs, rfl⟩ | hs
  · rw [step_nil hs, ← hline, show s = { s with host := [] } by rw [← hs]]
  · exact (step_cons hs).trans hline

/-- Settles O9: the fetched token is the one the bits decode to, and the reader's step runs it. -/
theorem stepRunsTheNextHeaderToken : Obligations.StepRunsTheNextHeaderToken := by
  intro s i tail h hh hread hnone hn hdec
  obtain ⟨hfmt, hbits⟩ := decodeToken_ok hdec
  rw [step_reading hh hread hnone, lineStep, fetchToken_encode (s := { s with host := h }) hfmt hn hbits]

/-! ### The effect of a token -/

/-- A leaf token of a symbol completes a leaf (R95, R165). -/
theorem tokenLeaf_symbol (sym : Symbol) (s : State) :
    tokenLeaf (BitVec.ofNat 9 sym.val) s = completeSubtree (.leaf sym 0) s.stack s := by
  rcases tokenLeaf_cases (BitVec.ofNat 9 sym.val) s with ⟨h, -⟩ | ⟨h, e⟩
  · rw [toNat_ofNat_symbol] at h
    omega
  · have hsym : (⟨_, h⟩ : Symbol) = sym := Fin.ext (toNat_ofNat_symbol sym)
    rw [e, hsym]

/-- A complete subtree completes every node above it whose right child it is (R165, R173). -/
theorem completeSubtree_rights (t : Tree) (ls : List Tree) (k : List Frame) (s : State) :
    completeSubtree t (ls.map .right ++ k) s = completeSubtree (ls.foldl (fun t l => .node 0 l t) t) k s := by
  induction ls generalizing t with
  | nil => rfl
  | cons l ls ih => exact ih (.node 0 l t)

theorem execHdrI_reading {s : State} (h : readingHeader s = true) :
    exec .hdrI s = .next { s with stack := .left :: s.stack } := by
  rw [exec, execHdrI, if_pos h]
  rfl

theorem execHdrL_reading (f : BitVec 9) {s : State} (h : readingHeader s = true) :
    exec (.hdrL f) s = .next (settle (tokenLeaf f s)) := by
  rw [exec, execHdrL, if_pos h]

/-- Settles O38: a leaf completes the nodes whose right child was missing, down to a node whose left child was, or to
the root. -/
theorem headerTokensDriveTheReader : Obligations.HeaderTokensDriveTheReader := by
  refine fun s => ⟨fun h => ⟨execHdrI_reading h, fun sym ls k hk => ?_, fun sym ls hk => ?_, fun f hf => ?_⟩,
    fun h => ⟨?_, fun f => ?_⟩⟩
  · rw [execHdrL_reading _ h, tokenLeaf_symbol, hk, completeSubtree_rights]
    rfl
  · rw [execHdrL_reading _ h, tokenLeaf_symbol, hk, ← List.append_nil (ls.map _), completeSubtree_rights]
    rfl
  · refine ⟨_, execHdrL_reading f h, ?_⟩
    rcases tokenLeaf_cases f s with ⟨-, e⟩ | ⟨hlt, -⟩
    · rw [e]
      simp [settle]
    · omega
  · rw [exec, execHdrI, if_neg (by simp [h])]
  · rw [exec, execHdrL, if_neg (by simp [h])]

/-! ### The entries of the code table -/

/-- The three fields of an entry with a code (R102). -/
theorem entryWord_fields (code : Bits) :
    (entryWord (some code)).extractLsb' 265 1 = 1#1 ∧
    (entryWord (some code)).extractLsb' 256 9 = BitVec.ofNat 9 code.length ∧
    (entryWord (some code)).extractLsb' 0 256 = BitVec.ofNat 256 (val code) := by
  rw [entryWord]
  refine ⟨?_, ?_, ?_⟩ <;> repeat rw [BitVec.extractLsb'_append_eq_of_le (by decide)]
  · exact BitVec.extractLsb'_eq_self
  · exact BitVec.extractLsb'_append_eq_right
  · exact BitVec.extractLsb'_append_eq_right

/-- Settles O12: the code's length and value fit their fields, and a bit string is `bitsN` of its value. -/
theorem hostReadsCodeEntries : Obligations.HostReadsCodeEntries := by
  intro s sym rest hidle h
  refine ⟨entryWord (ctGet sym s.ct), ?_, fun e => by rw [e]; rfl, fun code e _ hlen => ?_⟩
  · rw [step_cons h, hostAct, hostReadCt, if_neg (by simp [hidle])]
  · obtain ⟨hvalid, hl, hcode⟩ := entryWord_fields code
    have hval : val code < 2 ^ 256 := (val_lt code).trans_le (Nat.pow_le_pow_right (by decide) hlen)
    have hv : (BitVec.ofNat 256 (val code)).toNat = val code := Nat.mod_eq_of_lt hval
    simp only [codeMax] at hlen
    rw [e, hl, hcode, hv, bitsOf_val]
    exact ⟨hvalid, Nat.mod_eq_of_lt (by omega), rfl, rfl⟩

end Sys2Proof.Proofs
end

section
/-! SUPPORT. The bytes of a source read one after another: what CNT counts (R121) and what ENC writes (R181). -/

namespace Sys2Proof.Proofs

open Sys2Proof.Machine Sys2Proof.Laws

/-! ### Occurrences -/

theorem occurrences_append (x y : List Byte) (v : Fin 256) :
    occurrences (x ++ y) v = occurrences x v + occurrences y v := List.countP_append

theorem occurrences_singleton (b : Byte) (v : Fin 256) : occurrences [b] v = if b.toFin = v then 1 else 0 := by
  have h : (b.toNat == v.val) = true ↔ b.toFin = v := by
    rw [beq_iff_eq, Fin.ext_iff]
    rfl
  simp only [occurrences, List.countP_singleton, h]

theorem occurrences_cons (b : Byte) (x : List Byte) (v : Fin 256) :
    occurrences (b :: x) v = (if b.toFin = v then 1 else 0) + occurrences x v := by
  rw [← occurrences_singleton, ← occurrences_append, List.singleton_append]

theorem occurrences_le_length (x : List Byte) (v : Fin 256) : occurrences x v ≤ x.length := List.countP_le_length

/-- A sum over the bytes of a sequence is a sum over the byte values, each taken as often as it occurs. -/
theorem sum_occurrences_mul (f : Fin 256 → Nat) (x : List Byte) :
    ((List.finRange 256).map fun v => occurrences x v * f v).sum = (x.map fun b => f b.toFin).sum := by
  rw [← Fin.sum_univ_def]
  induction x with
  | nil => simp [occurrences]
  | cons b x ih =>
    simp only [occurrences_cons, Nat.add_mul, Finset.sum_add_distrib, ih, ite_mul, one_mul, zero_mul,
      Finset.sum_ite_eq, Finset.mem_univ, if_true, List.map_cons, List.sum_cons]

/-- The weights of a table as a sum over the byte values (R143). -/
theorem totalWeight_eq (wt : Vector Nat 256) :
    totalWeight wt = ((List.finRange 256).map fun v => wt[v.val]).sum + eofSeed := by
  have h : (List.finRange 256).map (fun v => wt[v.val]) = wt.toList := by
    apply List.ext_getElem <;> simp
  rw [totalWeight, h]

/-- A byte sequence weighs as much as it is long, and the sentinel 1 (R143). -/
theorem totalWeight_countsOf (x : List Byte) : totalWeight (countsOf x) = x.length + eofSeed := by
  have h := sum_occurrences_mul (fun _ => 1) x
  simp only [Nat.mul_one, List.map_const', List.sum_replicate, smul_eq_mul] at h
  rw [totalWeight_eq, ← h]
  simp [countsOf]

/-! ### The next byte -/

/-- The byte that stands at the cursor is read (R61, R67). -/
theorem readUnit_byte {b : Byte} {x : List Byte} {tail : Bits} {s : State}
    (h : s.src.rest = bitsOfBytes (b :: x) ++ tail) :
    readUnit 8 s = (some b, atPos (s.src.pos + 8) s) ∧ (atPos (s.src.pos + 8) s).src.rest = bitsOfBytes x ++ tail :=
  readUnit_next (by decide) b (by rw [h, bitsOfBytes_cons, List.append_assoc])

/-- With fewer bits left than a unit has, a read is `EOS` and drains the source (R61). -/
theorem readUnit_short {n : Nat} {s : State} (h : s.src.rest.length < n) :
    readUnit n s = (none, atPos s.src.bits.length s) := by
  rw [left_eq_length_rest, Source.left] at h
  exact readUnit_eos (by omega)

/-- The bits left bound the turns of a loop that reads a byte a turn. -/
theorem length_add_one_le_turns {x : List Byte} {tail : Bits} {s : State} (h : s.src.rest = bitsOfBytes x ++ tail) :
    x.length + 1 ≤ s.src.left + 1 := by
  have hlen := congrArg List.length h
  rw [left_eq_length_rest, List.length_append, length_bitsOfBytes] at hlen
  omega

/-- A loop that has ended stays ended under a larger bound. -/
theorem iterate_done_mono {body : State → Progress} {n k : Nat} {s t : State} (h : iterate body n s = .done t)
    (hk : n ≤ k) : iterate body k s = .done t :=
  iterate_mono h (fun _ => nofun) k hk

/-! ### CNT -/

/-- The state after CNT has read and counted the bytes `x` (R121). -/
def counted (x : List Byte) (s : State) : State :=
  { atPos (s.src.pos + 8 * x.length) s with wt := Vector.ofFn fun v : Fin 256 => s.wt[v.val] + occurrences x v }

@[simp] theorem counted_wt (x : List Byte) (s : State) (v : Fin 256) :
    (counted x s).wt[v.val] = s.wt[v.val] + occurrences x v := by
  simp [counted]

@[simp] theorem counted_cfg (x : List Byte) (s : State) : (counted x s).cfg = s.cfg := by rw [counted]

theorem counted_nil (s : State) : counted [] s = s := by
  have h : Vector.ofFn (fun v : Fin 256 => s.wt[v.val] + occurrences [] v) = s.wt := by
    apply Vector.ext
    simp [occurrences]
  rw [counted, h]
  rfl

theorem counted_counted (x y : List Byte) (s : State) : counted y (counted x s) = counted (x ++ y) s := by
  simp only [counted, Vector.getElem_ofFn, Fin.eta, occurrences_append, List.length_append, Nat.mul_add, Nat.add_assoc]

/-- The bits after the bytes counted. -/
theorem counted_rest {x : List Byte} {tail : Bits} {s : State} (h : s.src.rest = bitsOfBytes x ++ tail) :
    (counted x s).src.rest = tail := by
  rw [counted, rest_advance, h, List.drop_left' (length_bitsOfBytes x)]

theorem cntByte_counts {b : Byte} {x : List Byte} {tail : Bits} {s : State}
    (h : s.src.rest = bitsOfBytes (b :: x) ++ tail) (hfit : s.wt[b.toFin.val] < wMax s.cfg) :
    cntByte s = .more (counted [b] s) := by
  have hwt : s.wt.set b.toNat (s.wt[b.toNat] + 1) =
      Vector.ofFn fun v : Fin 256 => s.wt[v.val] + occurrences [b] v := by
    apply Vector.ext
    intro k hk
    rw [Vector.getElem_set, Vector.getElem_ofFn, occurrences_singleton]
    by_cases e : b.toNat = k
    · subst e
      rw [if_pos rfl, if_pos (show b.toFin = ⟨b.toNat, hk⟩ from rfl)]
    · rw [if_neg e, if_neg (fun e' => e (congrArg Fin.val e'))]
      rfl
  rw [cntByte, (readUnit_byte h).1, counted, ← hwt]
  exact if_neg hfit.ne

/-- CNT's turns count the bytes at the cursor, while their counts fit (R121). -/
theorem iterate_cntByte (n : Nat) {x : List Byte} {tail : Bits} {s : State} (h : s.src.rest = bitsOfBytes x ++ tail)
    (hfit : ∀ v : Fin 256, s.wt[v.val] + occurrences x v ≤ wMax s.cfg) :
    iterate cntByte (x.length + n) s = iterate cntByte n (counted x s) := by
  induction x generalizing s with
  | nil => rw [counted_nil, List.length_nil, Nat.zero_add]
  | cons b x ih =>
    have hb : s.wt[b.toFin.val] < wMax s.cfg := by
      have hle := hfit b.toFin
      rw [occurrences_cons, if_pos rfl] at hle
      omega
    have hfit' : ∀ v : Fin 256, (counted [b] s).wt[v.val] + occurrences x v ≤ wMax (counted [b] s).cfg := by
      intro v
      rw [counted_wt, counted_cfg, Nat.add_assoc, ← occurrences_append]
      exact hfit v
    have hrest : (counted [b] s).src.rest = bitsOfBytes x ++ tail := (readUnit_byte h).2
    rw [List.length_cons, Nat.add_right_comm, iterate_more (cntByte_counts h hb), ih hrest hfit', counted_counted,
      List.singleton_append]

/-- CNT counts the bytes from the cursor to the end of the source (R121). -/
theorem cntRule_counts {x : List Byte} {tail : Bits} {s : State} (h : s.src.rest = bitsOfBytes x ++ tail)
    (htail : tail.length < 8) (hfit : ∀ v, occurrences x v ≤ wMax s.cfg) :
    cntRule s = .done { atPos s.src.bits.length s with wt := countsOf x } := by
  have hzero : ∀ v : Fin 256, (cntStart s).wt[v.val] + occurrences x v = occurrences x v := by
    simp [cntStart, wtZero]
  have hcounts : (counted x (cntStart s)).wt = countsOf x := by
    simp only [counted, hzero, countsOf]
  have hlast : cntByte (counted x (cntStart s)) = .done { atPos s.src.bits.length s with wt := countsOf x } := by
    rw [cntByte, readUnit_short (by rwa [counted_rest (s := cntStart s) h])]
    rw [← hcounts]
    rfl
  have hrun := iterate_cntByte (s := cntStart s) 1 h (fun v => (hzero v).trans_le (hfit v))
  rw [iterate_done hlast] at hrun
  exact iterate_done_mono hrun (length_add_one_le_turns (s := cntStart s) h)

/-! ### ENC -/

theorem putSymbol_coded {sym : Symbol} {s : State} (hopen : s.snk.finished = false)
    (hcode : (ctGet sym s.ct).isSome = true) :
    putSymbol sym s = .more { s with snk := { s.snk with bits := s.snk.bits ++ codeIn s.ct sym } } := by
  obtain ⟨code, e⟩ := Option.isSome_iff_exists.mp hcode
  rw [putSymbol, codeIn, e]
  dsimp only
  rw [putCode_open code s hopen]
  rfl

/-- The state after ENC has read the bytes `x` and written their codes (R181). -/
def encoded (x : List Byte) (s : State) : State :=
  { atPos (s.src.pos + 8 * x.length) s with
    snk := { s.snk with bits := s.snk.bits ++ x.flatMap fun b => codeIn s.ct b.toFin.castSucc } }

theorem encoded_nil (s : State) : encoded [] s = s := by
  simp [encoded]

theorem encoded_encoded (x y : List Byte) (s : State) : encoded y (encoded x s) = encoded (x ++ y) s := by
  simp only [encoded, List.flatMap_append, List.length_append, Nat.mul_add, Nat.add_assoc, List.append_assoc]

/-- The bits after the bytes encoded. -/
theorem encoded_rest {x : List Byte} {tail : Bits} {s : State} (h : s.src.rest = bitsOfBytes x ++ tail) :
    (encoded x s).src.rest = tail := by
  rw [encoded, rest_advance, h, List.drop_left' (length_bitsOfBytes x)]

theorem encByte_encodes {b : Byte} {x : List Byte} {tail : Bits} {s : State}
    (h : s.src.rest = bitsOfBytes (b :: x) ++ tail) (hopen : s.snk.finished = false)
    (hcode : (ctGet b.toFin.castSucc s.ct).isSome = true) : encByte s = .more (encoded [b] s) := by
  rw [encByte, (readUnit_byte h).1]
  dsimp only
  rw [putSymbol_coded (s := atPos (s.src.pos + 8) s) hopen hcode, encoded, List.flatMap_singleton,
    List.length_singleton, Nat.mul_one]

/-- ENC's turns write the codes of the bytes at the cursor, while they have one (R181). -/
theorem iterate_encByte (n : Nat) {x : List Byte} {tail : Bits} {s : State} (h : s.src.rest = bitsOfBytes x ++ tail)
    (hopen : s.snk.finished = false) (hcodes : ∀ b ∈ x, (ctGet b.toFin.castSucc s.ct).isSome = true) :
    iterate encByte (x.length + n) s = iterate encByte n (encoded x s) := by
  induction x generalizing s with
  | nil => rw [encoded_nil, List.length_nil, Nat.zero_add]
  | cons b x ih =>
    rw [List.length_cons, Nat.add_right_comm, iterate_more (encByte_encodes h hopen (hcodes b (.head x))),
      ih (s := encoded [b] s) (readUnit_byte h).2 hopen fun c hc => hcodes c (.tail b hc), encoded_encoded,
      List.singleton_append]

/-- The last turn of ENC writes the sentinel's code (R181, R184). -/
theorem encByte_last {s : State} (h : s.src.rest.length < 8) (hopen : s.snk.finished = false)
    (hcode : (ctGet eofSym s.ct).isSome = true) :
    encByte s = .done { atPos s.src.bits.length s with
      snk := { s.snk with bits := s.snk.bits ++ codeIn s.ct eofSym } } := by
  rw [encByte, readUnit_short h]
  dsimp only
  rw [putSymbol_coded (s := atPos s.src.bits.length s) hopen hcode]

/-- ENC writes the codes of the bytes from the cursor to the end of the source, then the sentinel's (R181, R184). -/
theorem encRule_encodes {x : List Byte} {tail : Bits} {s : State} (h : s.src.rest = bitsOfBytes x ++ tail)
    (htail : tail.length < 8) (hctV : s.ctV = true) (hopen : s.snk.finished = false)
    (hcodes : ∀ b ∈ x, (ctGet b.toFin.castSucc s.ct).isSome = true) (heof : (ctGet eofSym s.ct).isSome = true) :
    encRule s = .done { atPos s.src.bits.length s with
      snk := { s.snk with bits := s.snk.bits ++ body s.ct x } } := by
  have hrun := iterate_encByte 1 h hopen hcodes
  rw [iterate_done (encByte_last (s := encoded x s) (by rwa [encoded_rest h]) hopen heof)] at hrun
  rw [encRule, if_pos hctV, encLoop, iterate_done_mono hrun (length_add_one_le_turns h), encoded, body,
    ← List.append_assoc]

end Sys2Proof.Proofs
end

section
/-! SUPPORT. BLD builds a tree of the greedy construction (R131 to R135), and every leaf of a tree has a code (R151,
R153). -/

namespace Sys2Proof.Proofs

open Sys2Proof.Machine Sys2Proof.Laws

/-! ### The initial leaves -/

/-- The leaves that BLD begins with for the byte values listed: one for each whose weight is not 0 (R132). -/
def byteLeaves (wt : Vector Nat 256) (l : List (Fin 256)) : List Tree :=
  l.filterMap fun s => if wt[s.val] = 0 then none else some (.leaf s.castSucc wt[s.val])

theorem initialLeaves_eq (wt : Vector Nat 256) :
    initialLeaves wt = byteLeaves wt (List.finRange 256) ++ [.leaf eofSym eofSeed] := rfl

theorem queueSymbols_byteLeaves (wt : Vector Nat 256) (l : List (Fin 256)) :
    queueSymbols (byteLeaves wt l) = (l.filter fun s => wt[s.val] ≠ 0).map Fin.castSucc := by
  induction l with
  | nil => rfl
  | cons s l ih =>
    rw [byteLeaves] at ih ⊢
    by_cases h : wt[s.val] = 0
    · simp [h, ih]
    · simp [h, ih]

/-- A byte value without a leaf has no weight. -/
theorem byteLeaves_weight (wt : Vector Nat 256) (l : List (Fin 256)) :
    ((byteLeaves wt l).map Tree.weight).sum = (l.map fun s => wt[s.val]).sum := by
  induction l with
  | nil => rfl
  | cons s l ih =>
    rw [byteLeaves] at ih ⊢
    by_cases h : wt[s.val] = 0
    · simp [h, ih]
    · simp [h, ih, Tree.weight]

theorem queueSymbols_append (a b : List Tree) : queueSymbols (a ++ b) = queueSymbols a ++ queueSymbols b :=
  List.flatMap_append

/-- The symbols of the initial leaves: the byte values of weight above 0, then the sentinel (R132). -/
theorem queueSymbols_initialLeaves (wt : Vector Nat 256) : queueSymbols (initialLeaves wt) =
    ((List.finRange 256).filter fun s => wt[s.val] ≠ 0).map Fin.castSucc ++ [eofSym] := by
  rw [initialLeaves_eq, queueSymbols_append, queueSymbols_byteLeaves]
  rfl

theorem initialLeaves_nodup (wt : Vector Nat 256) : (queueSymbols (initialLeaves wt)).Nodup := by
  rw [queueSymbols_initialLeaves, List.nodup_append]
  refine ⟨((List.nodup_finRange 256).filter _).map (Fin.castSucc_injective 256), List.nodup_singleton _, ?_⟩
  intro a ha b hb e
  obtain ⟨s, -, hs⟩ := List.mem_map.mp ha
  have hb : b = Fin.last 256 := List.mem_singleton.mp hb
  exact Fin.castSucc_ne_last s (by rw [hs, e, hb])

/-- The initial leaves weigh together what the table does (R132, R143). -/
theorem initialLeaves_weight (wt : Vector Nat 256) : ((initialLeaves wt).map Tree.weight).sum = totalWeight wt := by
  rw [initialLeaves_eq, List.map_append, List.sum_append, byteLeaves_weight, totalWeight_eq]
  rfl

theorem initialLeaves_ne_nil (wt : Vector Nat 256) : initialLeaves wt ≠ [] := by
  simp [initialLeaves_eq]

/-! ### The least node -/

/-- Nodes that share no symbol have different keys (R26, R139). -/
theorem key_ne_of_nodup {t u : Tree} {q : List Tree} (h : (queueSymbols (t :: q)).Nodup) (hu : u ∈ q) :
    t.key ≠ u.key := by
  obtain ⟨a, ha, hak⟩ := key_mem_symbols t
  obtain ⟨b, hb, hbk⟩ := key_mem_symbols u
  rw [queueSymbols_cons, List.nodup_append] at h
  have hne : a ≠ b := h.2.2 a ha b (List.mem_flatMap.mpr ⟨u, hu, hb⟩)
  intro e
  exact hne (Fin.ext (by rw [hak, hbk, e]))

/-- Of nodes that share no symbol, the one taken out is less than every node that is left (R134, R139). -/
theorem extractMin_less {q rest : List Tree} {m : Tree} (hq : (queueSymbols q).Nodup)
    (h : extractMin q = some (m, rest)) : ∀ x ∈ rest, less m x = true := by
  intro x hx
  have hnodup := (queueSymbols_perm (extractMin_perm h)).nodup_iff.mpr hq
  rcases less_total (key_ne_of_nodup hnodup hx) with hless | hless
  · exact hless
  · exact absurd (hless.symm.trans (extractMin_least h x hx)) (by decide)

/-! ### The greedy construction -/

/-- The queue without its least node shares no symbol either. -/
theorem extractMin_nodup {q rest : List Tree} {m : Tree} (hq : (queueSymbols q).Nodup)
    (h : extractMin q = some (m, rest)) : (queueSymbols rest).Nodup := by
  rw [← (queueSymbols_perm (extractMin_perm h)).nodup_iff, queueSymbols_cons] at hq
  exact hq.of_append_right

/-- A turn of BLD on nodes that share no symbol and whose weights together fit: the one node left is the tree, or the
least node and then the least node are joined (R131, R134, R138). -/
theorem bldJoin_greedy {s : State} (hq : s.pq ≠ []) (hnodup : (queueSymbols s.pq).Nodup)
    (hsum : (s.pq.map Tree.weight).sum ≤ wMax s.cfg) :
    (∃ t, s.pq = [t] ∧ bldJoin s = .done { s with tree := some t, pq := [] }) ∨
    (∃ a b rest, s.pq.Perm (a :: b :: rest) ∧ (∀ x ∈ b :: rest, less a x = true) ∧ (∀ x ∈ rest, less b x = true) ∧
      a.weight + b.weight ≤ wMax s.cfg ∧
      bldJoin s = .more { s with pq := .node (a.weight + b.weight) a b :: rest }) := by
  rcases bldJoin_cases s with ⟨hnone, -⟩ | ⟨a, rest, ha, ⟨hnone, e⟩ | ⟨b, rest', hb, h⟩⟩
  · exact absurd (extractMin_eq_none hnone) hq
  · have hperm := extractMin_perm ha
    rw [extractMin_eq_none hnone] at hperm
    exact .inl ⟨a, (List.singleton_perm.mp hperm).symm, e⟩
  · have hrest := extractMin_perm hb
    have hperm : s.pq.Perm (a :: b :: rest') := ((hrest.cons a).trans (extractMin_perm ha)).symm
    have hweight := (hperm.map Tree.weight).sum_eq
    simp only [List.map_cons, List.sum_cons] at hweight
    rcases h with ⟨hover, -⟩ | ⟨hfits, e⟩
    · omega
    · exact .inr ⟨a, b, rest', hperm, fun x hx => extractMin_less hnodup ha x (hrest.mem_iff.mp hx),
        extractMin_less (extractMin_nodup hnodup ha) hb, hfits, e⟩

/-- BLD's turns, on such nodes, build a tree of the greedy construction (R133, R134). -/
theorem iterate_bldJoin {n : Nat} {s : State} (hlen : s.pq.length = n + 1) (hnodup : (queueSymbols s.pq).Nodup)
    (hsum : (s.pq.map Tree.weight).sum ≤ wMax s.cfg) :
    ∃ t, Greedy (wMax s.cfg) s.pq t ∧ iterate bldJoin (n + 1) s = .done { s with tree := some t, pq := [] } := by
  induction n generalizing s with
  | zero =>
    obtain ⟨t, hq⟩ := List.length_eq_one_iff.mp hlen
    have e : bldJoin s = .done { s with tree := some t, pq := [] } := by
      rw [bldJoin, hq]
      rfl
    exact ⟨t, hq ▸ .root t, iterate_done e 0⟩
  | succ n ih =>
    rcases bldJoin_greedy (List.ne_nil_of_length_eq_add_one hlen) hnodup hsum with
      ⟨t, hq, -⟩ | ⟨a, b, rest, hperm, hfirst, hsecond, hfits, e⟩
    · rw [hq] at hlen
      cases hlen
    · have hlen' := hperm.length_eq.symm.trans hlen
      have hnodup' := (queueSymbols_perm hperm).nodup_iff.mp hnodup
      have hsum' := (hperm.map Tree.weight).sum_eq.symm.trans_le hsum
      obtain ⟨t, ht, hrun⟩ := ih (s := { s with pq := .node (a.weight + b.weight) a b :: rest })
        (Nat.succ.inj hlen') (by simpa using hnodup') (by simpa [Tree.weight, Nat.add_assoc] using hsum')
      exact ⟨t, .join hperm hfirst hsecond hfits ht, by rw [iterate_more e, hrun]⟩

/-- A tree of the greedy construction has the symbols of the nodes it was made of (R140). -/
theorem greedy_symbols {top : Nat} {q : List Tree} {t : Tree} (h : Greedy top q t) :
    t.symbols.Perm (queueSymbols q) := by
  induction h with
  | root t => simp
  | join nodes _ _ _ _ ih =>
    refine ih.trans ?_
    simpa using (queueSymbols_perm nodes).symm

/-- BLD on weights that together fit (R131 to R135). -/
theorem bldRule_builds {s : State} (h : totalWeight s.wt ≤ wMax s.cfg) :
    ∃ t, Greedy (wMax s.cfg) (initialLeaves s.wt) t ∧
      bldRule s = .done { dropTree s with tree := some t, pq := [] } := by
  have hlen : 1 ≤ (initialLeaves s.wt).length := List.length_pos_iff.mpr (initialLeaves_ne_nil s.wt)
  obtain ⟨t, ht, hrun⟩ := iterate_bldJoin (s := bldStart s) (Nat.sub_add_cancel hlen).symm
    (initialLeaves_nodup s.wt) ((initialLeaves_weight s.wt).trans_le h)
  exact ⟨t, ht, iterate_done_mono hrun (by rw [Nat.sub_add_cancel hlen]; exact Nat.le_succ _)⟩

/-! ### The codes of a tree -/

theorem ctGet_ctSet (a sym : Symbol) (code : Bits) (ct : Vector (Option Bits) 257) :
    ctGet a (ctSet sym code ct) = if sym = a then some code else ctGet a ct := by
  simp only [ctGet, ctSet, Vector.getElem_set, Fin.ext_iff]

/-- A walk leaves a code for the symbols of the tree, and for those that had one (R151, R153). -/
theorem walk_isSome (t : Tree) (path : Bits) (ct : Vector (Option Bits) 257) (a : Symbol) :
    (ctGet a (walk t path ct)).isSome = true ↔ a ∈ t.symbols ∨ (ctGet a ct).isSome = true := by
  induction t generalizing path ct with
  | leaf sym w =>
    rw [walk, ctGet_ctSet, symbols_leaf, List.mem_singleton]
    by_cases h : sym = a
    · simp [h]
    · simp [h, Ne.symm h]
  | node w l r ihl ihr =>
    rw [walk, ihr, ihl, symbols_node, List.mem_append]
    tauto

/-- The symbols of a tree's leaves have codes, and no others (R151, R153). -/
theorem codesOf_isSome (t : Tree) (a : Symbol) : (ctGet a (codesOf t)).isSome = true ↔ a ∈ t.symbols := by
  have hempty : ¬ (ctGet a ctEmpty).isSome = true := by simp [ctGet, ctEmpty]
  cases t with
  | leaf sym w =>
    rw [codesOf, ctGet_ctSet, symbols_leaf, List.mem_singleton]
    by_cases h : sym = a
    · simp [h]
    · rw [if_neg h]
      exact iff_of_false hempty (Ne.symm h)
  | node w l r =>
    rw [codesOf, walk_isSome, walk_isSome, symbols_node, List.mem_append]
    tauto

end Sys2Proof.Proofs
end

section
/-! SUPPORT. CMP as the run of its nine lines (R222), and the length of the file it leaves (R98, R224). -/

namespace Sys2Proof.Proofs

open Sys2Proof.Machine Sys2Proof.Laws

/-! ### The lines of CMP -/

/-- A line that ends without an error is followed by the next (R222). -/
theorem runLines_done {c : Component} {cs : List Component} {s t : State} (h : lineRule c s = .done t)
    (hnone : s.err = .none) : runLines (c :: cs) s = runLines cs t := by
  rw [runLines, if_neg (fun hskip => hskip.1 hnone), h]

theorem genRule_codes {s : State} {t : Tree} (h : s.tree = some t) :
    genRule s = .done { s with ct := codesOf t, ctV := true } := by
  rw [genRule, h]

theorem wrmRule_open {s : State} (h : s.snk.finished = false) :
    wrmRule s = .done { s with snk := { s.snk with bits := s.snk.bits ++ bitsOf 32 s.cfg.magic.toNat } } := by
  rw [wrmRule, writeUnit_open 32 _ h]

theorem wrhRule_open {s : State} {t : Tree} (ht : s.tree = some t) (h : s.snk.finished = false) :
    wrhRule s = .done { s with snk := { s.snk with bits := s.snk.bits ++ t.ser } } := by
  simp only [wrhRule, ht, emit_open t s h]

theorem finRule_open {s : State} (h : s.snk.finished = false) :
    finRule s = .done { s with snk := { bits := padToByte s.snk.bits, finished := true } } := by
  rw [finRule, finishSink, finish_open h]

/-- Every byte of an input has a code in the greedy tree of its counts, and so has the sentinel. -/
theorem greedy_codes {x : List Byte} {top : Nat} {t : Tree} (h : Greedy top (initialLeaves (countsOf x)) t) :
    (∀ b ∈ x, (ctGet b.toFin.castSucc (codesOf t)).isSome = true) ∧ (ctGet eofSym (codesOf t)).isSome = true := by
  have hmem : ∀ a, (ctGet a (codesOf t)).isSome = true ↔ a ∈ queueSymbols (initialLeaves (countsOf x)) := fun a =>
    (codesOf_isSome t a).trans (greedy_symbols h).mem_iff
  simp only [hmem, queueSymbols_initialLeaves]
  refine ⟨fun b hb => ?_, by simp⟩
  have hpos : occurrences x b.toFin ≠ 0 := (List.countP_pos_iff.mpr ⟨b, hb, by simp⟩).ne'
  have hfilter : b.toFin ∈ (List.finRange 256).filter fun s => (countsOf x)[s.val] ≠ 0 :=
    List.mem_filter.mpr ⟨List.mem_finRange _, by simpa [countsOf] using hpos⟩
  exact List.mem_append_left _ (List.mem_map_of_mem hfilter)

/-- The first lines of CMP count an input and build the tree of its counts (R222). -/
theorem runLines_count_build {s : State} {x : List Byte} (cs : List Component) (hnone : s.err = .none)
    (hrest : s.src.rest = bitsOfBytes x) (hrange : InRange x s) :
    ∃ t, Greedy (wMax s.cfg) (initialLeaves (countsOf x)) t ∧
      runLines (.resetCall :: .cnt :: .bld :: cs) s =
        runLines cs { resetCall (atPos s.src.bits.length s) with wt := countsOf x, tree := some t, pq := [] } := by
  have hcnt : cntRule (resetCall s) = .done { resetCall (atPos s.src.bits.length s) with wt := countsOf x } :=
    cntRule_counts (hrest.trans (List.append_nil _).symm) (by decide)
      fun v => (occurrences_le_length x v).trans hrange.le
  obtain ⟨t, ht, hbld⟩ := bldRule_builds (s := { resetCall (atPos s.src.bits.length s) with wt := countsOf x })
    ((totalWeight_countsOf x).trans_le hrange)
  refine ⟨t, ht, ?_⟩
  rw [runLines_done (c := .resetCall) rfl hnone, runLines_done (c := .cnt) hcnt hnone,
    runLines_done (c := .bld) hbld hnone]
  rfl

/-- The other lines of CMP make the codes of the tree and write the file of the input (R98, R222). -/
theorem runLines_write_file {s : State} {x : List Byte} {t : Tree} (hnone : s.err = .none)
    (hsrc : s.src.bits = bitsOfBytes x) (hsnk : s.snk = { bits := [], finished := false }) (ht : s.tree = some t)
    (hbytes : ∀ b ∈ x, (ctGet b.toFin.castSucc (codesOf t)).isSome = true)
    (heof : (ctGet eofSym (codesOf t)).isSome = true) :
    runLines [.gen, .wrm, .wrh, .rwd, .enc, .fin] s = .done
      { s with
        ct := codesOf t, ctV := true
        src := { bits := bitsOfBytes x, pos := 8 * x.length }
        snk := { bits := fileBits s.cfg t x, finished := true } } := by
  have hopen : s.snk.finished = false := by rw [hsnk]
  refine Eq.trans (runLines_done (genRule_codes ht) hnone) ?_
  refine Eq.trans (runLines_done (wrmRule_open hopen) hnone) ?_
  refine Eq.trans (runLines_done (wrhRule_open ht hopen) hnone) ?_
  refine Eq.trans (runLines_done (c := .rwd) rfl hnone) ?_
  refine Eq.trans (runLines_done (encRule_encodes (hsrc.trans (List.append_nil _).symm) (by decide) rfl hopen hbytes
    heof) hnone) ?_
  refine Eq.trans (runLines_done (finRule_open hopen) hnone) ?_
  simp [runLines, rewindSource, Source.rewind, hsrc, hsnk, fileBits]

/-- The bits of a body, byte value by byte value (R224). -/
theorem length_body (ct : Vector (Option Bits) 257) (x : List Byte) : (body ct x).length =
    ((List.finRange 256).map fun c => occurrences x c * (codeIn ct c.castSucc).length).sum +
      (codeIn ct eofSym).length := by
  rw [body, List.length_append, List.length_flatMap, sum_occurrences_mul fun c => (codeIn ct c.castSucc).length]

/-- Settles O45: the lines of CMP count, build, tabulate and write, and the header and the body have the lengths of R108
and R224. -/
theorem cmpWritesTheFile : Obligations.CmpWritesTheFile := by
  intro s x hidle hnone hports hrange
  obtain ⟨hsrc, hsnk⟩ := hports
  obtain ⟨t, ht, hrun⟩ := runLines_count_build (s := beginCommand .cmp s) [.gen, .wrm, .wrh, .rwd, .enc, .fin] hnone
    (by simp [hsrc, Source.rest]) hrange
  obtain ⟨hbytes, heof⟩ := greedy_codes ht
  refine ⟨t, ht, ?_, ?_⟩
  · have hcmp := hrun.trans (runLines_write_file hnone (by simp [hsrc]) hsnk rfl hbytes heof)
    exact (runCommand_done (i := .cmp) (rule := cmpRule) hidle (.inl hnone) hcmp).trans rfl
  · simp only [List.length_append, length_bitsOf, length_ser, length_body, Nat.add_assoc]

end Sys2Proof.Proofs
end

section
/-! SUPPORT. The whole bytes of any bit string (R61, R65, R67), and the two ends of CNT: every byte is counted
(R121), or one cannot be (R122). -/

namespace Sys2Proof.Proofs

open Sys2Proof.Machine Sys2Proof.Laws

/-! ### Whole bytes -/

theorem bitsOfBytes_append (x y : List Byte) : bitsOfBytes (x ++ y) = bitsOfBytes x ++ bitsOfBytes y :=
  List.flatMap_append

theorem bytesOfBits_short {bits : Bits} (h : bits.length < 8) : bytesOfBits bits = [] := by
  rw [bytesOfBits]
  rintro b7 b6 b5 b4 b3 b2 b1 b0 rest rfl
  simp only [List.length_cons] at h
  omega

theorem bytesOfBits_take_drop {bits : Bits} (h : 8 ≤ bits.length) :
    bytesOfBits bits = BitVec.ofNat 8 (val (bits.take 8)) :: bytesOfBits (bits.drop 8) := by
  rw [← bytesOfBits_append (List.length_take_of_le h), List.take_append_drop]

/-- Every bit string is the bits of its whole bytes and fewer than eight bits after them (R65, R67). -/
theorem eq_bitsOfBytes_bytesOfBits_append (bits : Bits) :
    ∃ tail : Bits, bits = bitsOfBytes (bytesOfBits bits) ++ tail ∧ tail.length < 8 := by
  by_cases h : bits.length < 8
  · exact ⟨bits, by rw [bytesOfBits_short h]; rfl, h⟩
  · have h8 : 8 ≤ bits.length := Nat.not_lt.mp h
    obtain ⟨tail, hrest, htail⟩ := eq_bitsOfBytes_bytesOfBits_append (bits.drop 8)
    refine ⟨tail, ?_, htail⟩
    rw [bytesOfBits_take_drop h8, bitsOfBytes_cons, List.append_assoc, ← hrest, bitsOf_val_take_append_drop h8]
termination_by bits.length
decreasing_by rw [List.length_drop]; omega

/-! ### CNT -/

/-- Settles O23: the source from the cursor on is its whole bytes, which CNT counts, and fewer bits than a byte has. -/
theorem cntCountsTheBytes : Obligations.CntCountsTheBytes := by
  intro s hidle hnone hfit
  obtain ⟨tail, hrest, htail⟩ := eq_bitsOfBytes_bytesOfBits_append s.src.rest
  have hrule := cntRule_counts (s := beginCommand .cnt s) hrest htail hfit
  exact (runCommand_done (i := .cnt) (rule := cntRule) hidle (.inl hnone) hrule).trans rfl

/-- The turn of CNT at a byte whose count is full reads the byte and raises Overflow (R122). -/
theorem cntByte_overflows {b : Byte} {tail : Bits} {s : State} (h : s.src.rest = bitsOfBytes [b] ++ tail)
    (hfull : s.wt[b.toFin.val] = wMax s.cfg) :
    cntByte s = .raised (raise .cntLoop .overflow (atPos (s.src.pos + 8) s)) := by
  rw [cntByte, (readUnit_byte h).1]
  exact if_pos hfull

/-- CNT begins to count at zero (R121). -/
theorem cntStart_wt_add (s : State) (v : Fin 256) (n : Nat) : (cntStart s).wt[v.val] + n = n := by
  simp [cntStart, wtZero]

/-- CNT counts the bytes before the first one that cannot be counted, and raises Overflow there (R122). -/
theorem cntRule_overflows {x : List Byte} {b : Byte} {tail : Bits} {s : State}
    (h : s.src.rest = bitsOfBytes (x ++ [b]) ++ tail) (hfit : ∀ v, occurrences x v ≤ wMax s.cfg)
    (hfull : occurrences x b.toFin = wMax s.cfg) :
    cntRule s = .raised
      (raise .cntLoop .overflow (atPos (s.src.pos + 8 * (x.length + 1)) (counted x (cntStart s)))) := by
  have hrest : (cntStart s).src.rest = bitsOfBytes x ++ (bitsOfBytes [b] ++ tail) := by
    rw [← List.append_assoc, ← bitsOfBytes_append]
    exact h
  have hlast := cntByte_overflows (counted_rest hrest)
    (by rw [counted_wt, cntStart_wt_add, hfull, counted_cfg]; rfl)
  have hrun := iterate_cntByte 1 hrest fun v => (cntStart_wt_add s v _).trans_le (hfit v)
  rw [iterate_raised hlast] at hrun
  exact iterate_mono hrun (fun _ => nofun) _ (length_add_one_le_turns hrest)

@[simp] theorem wtRead_eofSym (s : State) : wtRead eofSym s = 1 := rfl

/-- Settles O24: CNT's turns raise Overflow at the byte, and the laws of `raise` give each field the statement names. -/
theorem cntRaisesOverflow : Obligations.CntRaisesOverflow := by
  intro s before b tail hidle hnone hrest hfit hfull
  have hrule := cntRule_overflows (s := beginCommand .cnt s) hrest hfit hfull
  refine ⟨_, runCommand_raised (i := .cnt) (rule := cntRule) hidle (.inl hnone) hrule, ?_⟩
  simp [counted, cntStart]

end Sys2Proof.Proofs
end

section
/-! SUPPORT. The order in which BLD takes the nodes out: `less` orders a queue without a repeated symbol, no step repeats
one, and BLD does not see in what order its queue is listed (R131 to R134, R139). -/

namespace Sys2Proof.Proofs

open Sys2Proof.Machine Sys2Proof.Laws

/-! ### No step repeats a symbol in the queue -/

/-- `QueueDisjoint`, asked of the line on top of the sequencer's list. -/
def DisjointFor (o : Option Component) (s : State) : Prop := o = some .bldLoop → (queueSymbols s.pq).Nodup

/-- A line that is not BLD's loop asks nothing of the queue. -/
theorem DisjointFor.of_ne {o : Option Component} {s : State} (h : o ≠ some .bldLoop) : DisjointFor o s :=
  fun e => absurd e h

theorem queueSymbols_join_perm {a b : Tree} {rest q : List Tree} (w : Nat) (h : (a :: b :: rest).Perm q) :
    (queueSymbols (.node w a b :: rest)).Perm (queueSymbols q) := by
  simpa using queueSymbols_perm h

theorem turn_disjointFor {c : Component} {s : State} {p : Progress} (h : Turn s c p) (hs : DisjointFor (some c) s) :
    Ends (DisjointFor (some c)) (DisjointFor none) (DisjointFor none) p := by
  cases h with
  | joined w hq => exact fun _ => (queueSymbols_join_perm w hq).nodup_iff.mpr (hs rfl)
  | leaf sym hp hn =>
    rcases completeSubtree_cases (.leaf sym 0) s.stack (_ : State) with ⟨u, e⟩ | ⟨k, e⟩ <;> rw [e]
    · exact .of_ne nofun
    · exact .of_ne (by decide)
  | counted | encoded | node | walked | emitted => exact .of_ne (by decide)
  | _ => exact .of_ne nofun

theorem opens_disjointFor {c d : Component} {s t : State} (h : opens c s = some (d, t)) : DisjointFor (some d) t := by
  rcases opens_cases h with ⟨-, rfl, -⟩ | ⟨-, rfl, rfl⟩ | ⟨-, rfl, -⟩ | ⟨-, rfl, -⟩ | ⟨-, rfl, -⟩
  · exact .of_ne (by decide)
  · exact fun _ => initialLeaves_nodup s.wt
  · exact .of_ne (by decide)
  · exact .of_ne (by decide)
  · exact .of_ne (by decide)

theorem disjointFor_invariant : StepInvariant DisjointFor where
  data _ _ := Iff.rfl
  outside c s h := iff_of_true (.of_ne (by rintro ⟨⟩; cases h)) (.of_ne nofun)
  opened h _ := opens_disjointFor h
  turn h hs := turn_disjointFor (turnOf_turn h) hs
  attach _ := .of_ne nofun
  weight _ hs := by rw [wtWrite_eq]; exact hs
  reset _ := .of_ne nofun

/-! ### The least node, and the listing of the queue -/

/-- Of two nodes of a queue without a repeated symbol exactly one is less than the other (R139). -/
theorem less_pairwise {q : List Tree} (h : (queueSymbols q).Nodup) : q.Pairwise fun x y =>
    less x y = true ∧ less y x = false ∨ less y x = true ∧ less x y = false := by
  induction q with
  | nil => exact .nil
  | cons x q ih =>
    refine .cons (fun y hy => ?_) (ih h.of_append_right)
    rcases less_total (key_ne_of_nodup h hy) with hless | hless
    · exact .inl ⟨hless, less_asymm hless⟩
    · exact .inr ⟨hless, less_asymm hless⟩

/-- From every listing of a queue the same node is taken out, and the same nodes are left, in some order. -/
theorem extractMin_congr {p q rest : List Tree} {m : Tree} (hpq : p.Perm q) (hq : (queueSymbols q).Nodup)
    (h : extractMin p = some (m, rest)) : ∃ rest', extractMin q = some (m, rest') ∧ rest.Perm rest' := by
  have hp : (queueSymbols p).Nodup := (queueSymbols_perm hpq).nodup_iff.mpr hq
  cases hm : extractMin q with
  | none =>
    rw [extractMin_eq_none hm] at hpq
    rw [hpq.eq_nil] at h
    cases h
  | some x =>
    obtain ⟨m', rest'⟩ := x
    have hperm : (m :: rest).Perm (m' :: rest') :=
      (extractMin_perm h).trans (hpq.trans (extractMin_perm hm).symm)
    have hsame : m = m' := by
      by_contra hne
      have hless := extractMin_less hp h m' ((List.mem_cons.mp (hperm.mem_iff.mpr (.head _))).resolve_left (Ne.symm hne))
      have hless' := extractMin_less hq hm m ((List.mem_cons.mp (hperm.mem_iff.mp (.head _))).resolve_left hne)
      exact absurd (hless'.symm.trans (less_asymm hless)) (by decide)
    subst hsame
    exact ⟨rest', rfl, hperm.cons_inv⟩

/-- `s` with the queue `q`. -/
def withQueue (q : List Tree) (s : State) : State := { s with pq := q }

theorem bldJoin_singleton {q : List Tree} {a : Tree} (s : State) (ha : extractMin q = some (a, [])) :
    bldJoin (withQueue q s) = .done { withQueue [] s with tree := some a } := by
  rw [bldJoin, withQueue, ha]
  rfl

theorem bldJoin_two {q rest rest' : List Tree} {a b : Tree} (s : State) (ha : extractMin q = some (a, rest))
    (hb : extractMin rest = some (b, rest')) : bldJoin (withQueue q s) =
      if a.weight + b.weight > wMax s.cfg then .raised (raise .bldLoop .overflow s)
      else .more (withQueue (.node (a.weight + b.weight) a b :: rest') s) := by
  rw [bldJoin, withQueue, ha]
  dsimp only
  rw [hb]
  rfl

/-- A turn of BLD on two listings of one queue: it ends alike, or it goes on with two listings of one queue. -/
theorem bldJoin_congr {p q : List Tree} (s : State) (hpq : p.Perm q) (hq : (queueSymbols q).Nodup) :
    bldJoin (withQueue p s) = bldJoin (withQueue q s) ∨
    ∃ p' q', p'.Perm q' ∧ (queueSymbols q').Nodup ∧ bldJoin (withQueue p s) = .more (withQueue p' s) ∧
      bldJoin (withQueue q s) = .more (withQueue q' s) := by
  cases ha : extractMin p with
  | none =>
    rw [extractMin_eq_none ha] at hpq ⊢
    rw [hpq.nil_eq]
    exact .inl rfl
  | some x =>
    obtain ⟨a, rest⟩ := x
    obtain ⟨rest', ha', hrest⟩ := extractMin_congr hpq hq ha
    cases hb : extractMin rest with
    | none =>
      rw [extractMin_eq_none hb] at ha hrest
      rw [← hrest.nil_eq] at ha'
      exact .inl ((bldJoin_singleton s ha).trans (bldJoin_singleton s ha').symm)
    | some y =>
      obtain ⟨b, last⟩ := y
      obtain ⟨last', hb', hlast⟩ := extractMin_congr hrest (extractMin_nodup hq ha') hb
      have hjoin := queueSymbols_join_perm (a.weight + b.weight)
        (((extractMin_perm hb').cons a).trans (extractMin_perm ha'))
      rw [bldJoin_two s ha hb, bldJoin_two s ha' hb']
      split
      · exact .inl rfl
      · exact .inr ⟨_, _, hlast.cons _, hjoin.nodup_iff.mpr hq, rfl, rfl⟩

/-- BLD's turns on two listings of one queue, if they end, end alike. -/
theorem iterate_bldJoin_congr (s : State) (n : Nat) {p q : List Tree} (hpq : p.Perm q) (hq : (queueSymbols q).Nodup)
    (hends : ∀ u, iterate bldJoin n (withQueue p s) ≠ .more u) :
    iterate bldJoin n (withQueue p s) = iterate bldJoin n (withQueue q s) := by
  induction n generalizing p q with
  | zero => exact absurd rfl (hends _)
  | succ n ih =>
    rcases bldJoin_congr s hpq hq with e | ⟨p', q', hpq', hq', ep, eq⟩
    · rw [iterate, iterate, e]
    · rw [iterate_more ep] at hends ⊢
      rw [iterate_more eq]
      exact ih hpq' hq' hends

/-- BLD's loop answers the same from every listing of a queue without a repeated symbol (R134, R139). -/
theorem bldLoop_congr {p q : List Tree} (s : State) (hpq : p.Perm q) (hq : (queueSymbols q).Nodup) :
    bldLoop (withQueue p s) = bldLoop (withQueue q s) :=
  calc bldLoop (withQueue p s)
    _ = iterate bldJoin (p.length + 1) (withQueue q s) :=
      iterate_bldJoin_congr s _ hpq hq (bldLoop_ends (withQueue p s))
    _ = bldLoop (withQueue q s) := by rw [hpq.length_eq]; rfl

/-- Settles O26: a join takes two nodes' symbols together and the initial leaves repeat none, so the queue never repeats one;
different keys then order its nodes, and the least node does not depend on the listing. -/
theorem lessOrdersTheQueueAtEveryStep : Obligations.LessOrdersTheQueueAtEveryStep := by
  refine ⟨fun s t hclean hdisjoint hstep => ?_, fun q => less_pairwise, fun s l hl => ?_⟩
  · obtain ⟨hlist, -⟩ := (engineClean_iff s).mp hclean
    exact disjointFor_invariant.step (hlist.plainList disjointFor_invariant) hdisjoint hstep
  · exact bldLoop_congr (bldStart s) hl (initialLeaves_nodup s.wt)

end Sys2Proof.Proofs
end

section
/-! SUPPORT. The two ends of BLD: a tree of the greedy construction (R131 to R135), or Overflow (R138); and what such a tree
keeps of the initial leaves (R140, R143). -/

namespace Sys2Proof.Proofs

open Sys2Proof.Machine Sys2Proof.Laws

/-! ### The two ends of BLD -/

/-- Settles O25: BLD's rule builds the tree, and the frame of the command adds the flags. -/
theorem bldBuildsTheGreedyTree : Obligations.BldBuildsTheGreedyTree := by
  intro s hidle hnone hfits
  obtain ⟨t, ht, hrule⟩ := bldRule_builds (s := beginCommand .bld s) hfits
  exact ⟨t, ht, (runCommand_done (i := .bld) (rule := bldRule) hidle (.inl hnone) hrule).trans rfl⟩

/-- A turn of BLD on two or more nodes whose weights together do not fit: it raises Overflow, or it leaves such nodes, one
fewer (R138). -/
theorem bldJoin_overflows {s : State} (hlen : 2 ≤ s.pq.length) (hsum : wMax s.cfg < (s.pq.map Tree.weight).sum) :
    bldJoin s = .raised (raise .bldLoop .overflow s) ∨
    ∃ q, bldJoin s = .more (withQueue q s) ∧ s.pq.length = q.length + 1 ∧ 2 ≤ q.length ∧
      wMax s.cfg < (q.map Tree.weight).sum := by
  rcases bldJoin_cases s with ⟨hnone, -⟩ | ⟨a, rest, ha, ⟨hnone, -⟩ | ⟨b, rest', hb, ⟨-, e⟩ | ⟨hfits, e⟩⟩⟩
  · rw [extractMin_eq_none hnone] at hlen
    cases hlen
  · have := extractMin_length ha
    rw [extractMin_eq_none hnone, List.length_nil] at this
    omega
  · exact .inl e
  · have hperm := ((extractMin_perm hb).cons a).trans (extractMin_perm ha)
    rw [← (hperm.map Tree.weight).sum_eq] at hsum
    rw [← hperm.length_eq]
    simp only [List.map_cons, List.sum_cons] at hsum
    refine .inr ⟨_, e, rfl, ?_, by simpa [Tree.weight, Nat.add_assoc] using hsum⟩
    cases rest' with
    | nil =>
      simp only [List.map_nil, List.sum_nil] at hsum
      omega
    | cons x xs => simp

/-- BLD's turns on such nodes join some, until a sum does not fit (R138). -/
theorem iterate_bldJoin_overflows (n : Nat) {s : State} (hn : s.pq.length ≤ n + 1) (hlen : 2 ≤ s.pq.length)
    (hsum : wMax s.cfg < (s.pq.map Tree.weight).sum) :
    iterate bldJoin n s = .raised (raise .bldLoop .overflow s) := by
  induction n generalizing s with
  | zero => omega
  | succ n ih =>
    rcases bldJoin_overflows hlen hsum with e | ⟨q, e, hq, hlen', hsum'⟩
    · exact iterate_raised e n
    · rw [hq] at hn
      rw [iterate_more e]
      exact ih (s := withQueue q s) (Nat.le_of_succ_le_succ hn) hlen' hsum'

/-- Either the sentinel's leaf is the only initial leaf, or there are two or more (R132). -/
theorem initialLeaves_cases (wt : Vector Nat 256) :
    initialLeaves wt = [.leaf eofSym eofSeed] ∧ totalWeight wt = eofSeed ∨ 2 ≤ (initialLeaves wt).length := by
  rw [← initialLeaves_weight, initialLeaves_eq]
  cases byteLeaves wt (List.finRange 256) with
  | nil => exact .inl ⟨rfl, rfl⟩
  | cons t ts => exact .inr (by simp)

/-- BLD on weights that together do not fit (R138). -/
theorem bldRule_overflows {s : State} (hlen : 2 ≤ (initialLeaves s.wt).length) (h : wMax s.cfg < totalWeight s.wt) :
    bldRule s = .raised (raise .bldLoop .overflow (bldStart s)) :=
  iterate_bldJoin_overflows _ (s := bldStart s) (by omega) hlen (h.trans_eq (initialLeaves_weight s.wt).symm)

/-- BLD on a table of zeros: the sentinel's leaf is the tree, whether its weight fits or not (R135). -/
theorem bldRule_singleton {s : State} {t : Tree} (h : initialLeaves s.wt = [t]) :
    bldRule s = .done { dropTree s with tree := some t, pq := [] } := by
  rw [bldRule, bldStart, h]
  rfl

/-- BLD ends with a tree of the greedy construction, or raises Overflow (R131, R138). -/
theorem bldRule_cases (s : State) :
    (∃ t, Greedy (wMax s.cfg) (initialLeaves s.wt) t ∧
      bldRule s = .done { dropTree s with tree := some t, pq := [] }) ∨
    bldRule s = .raised (raise .bldLoop .overflow (bldStart s)) := by
  rcases Nat.lt_or_ge (wMax s.cfg) (totalWeight s.wt) with h | h
  · rcases initialLeaves_cases s.wt with ⟨hleaf, -⟩ | hlen
    · exact .inl ⟨_, hleaf ▸ .root _, bldRule_singleton hleaf⟩
    · exact .inr (bldRule_overflows hlen h)
  · exact .inl (bldRule_builds h)

/-- BLD that ends without an error has built a tree of the greedy construction. -/
theorem exec_bld_noError {s u : State} (hidle : Idle s) (hnone : NoError s) (h : exec .bld s = .next u)
    (hu : NoError u) : ∃ t, Greedy (wMax s.cfg) (initialLeaves s.wt) t ∧
      u = { ran .bld s with tree := some t, ct := ctEmpty, ctV := false, pq := [] } := by
  rcases bldRule_cases (beginCommand .bld s) with ⟨t, ht, hrule⟩ | hrule
  · have hrun := runCommand_done (i := .bld) (rule := bldRule) hidle (.inl hnone) hrule
    cases h.symm.trans hrun
    exact ⟨t, ht, rfl⟩
  · have hrun := runCommand_raised (i := .bld) (rule := bldRule) hidle (.inl hnone) hrule
    cases h.symm.trans hrun
    rw [NoError, endCommand_err, raise_err] at hu
    cases hu

/-- A weight of at least one bit holds 1 (R5). -/
theorem one_le_wMax {c : Config} (h : 1 ≤ c.wBits) : 1 ≤ wMax c := by
  have := Nat.pow_le_pow_right (n := 2) (by decide) h
  rw [wMax]
  omega

/-- Settles O28: more than the sentinel is present, so BLD's turns come to a sum that does not fit, and the laws of `raise`
give each field the statement names. -/
theorem bldRaisesOverflow : Obligations.BldRaisesOverflow := by
  intro s hidle hnone hbits hover
  have hlen : 2 ≤ (initialLeaves s.wt).length := by
    rcases initialLeaves_cases s.wt with ⟨-, htotal⟩ | hlen
    · rw [htotal, eofSeed] at hover
      exact absurd (one_le_wMax hbits) (by omega)
    · exact hlen
  have hrule := bldRule_overflows (s := beginCommand .bld s) hlen hover
  refine ⟨_, runCommand_raised (i := .bld) (rule := bldRule) hidle (.inl hnone) hrule, ?_⟩
  simp [bldStart, dropTree, ctGet, ctEmpty, raise_wt]

/-! ### What the greedy construction keeps -/

/-- The leaves of the tree are those of the nodes it was made of (R140 (a)). -/
theorem greedy_leaves {top : Nat} {q : List Tree} {t : Tree} (h : Greedy top q t) :
    t.leaves.Perm (q.flatMap Tree.leaves) := by
  induction h with
  | root t => simp
  | join nodes _ _ _ _ ih =>
    refine ih.trans ?_
    simpa [Tree.leaves] using (nodes.flatMap_right Tree.leaves).symm

/-- The root weighs what the nodes it was made of weigh together (R143). -/
theorem greedy_weight {top : Nat} {q : List Tree} {t : Tree} (h : Greedy top q t) :
    t.weight = (q.map Tree.weight).sum := by
  induction h with
  | root t => simp
  | join nodes _ _ _ _ ih =>
    rw [ih, (nodes.map Tree.weight).sum_eq]
    simp [Tree.weight, Nat.add_assoc]

/-- Every join adds the weights of two nodes, the lesser one on the left (R140 (b), (d)). -/
theorem greedy_built {top : Nat} {q : List Tree} {t : Tree} (h : Greedy top q t) (hq : ∀ x ∈ q, x.Built) : t.Built := by
  induction h with
  | root t => exact hq t (.head _)
  | @join present rest a b t nodes first _ _ _ ih =>
    have hmem : ∀ x ∈ a :: b :: rest, x.Built := fun x hx => hq x (nodes.mem_iff.mpr hx)
    refine ih fun x hx => ?_
    rcases List.mem_cons.mp hx with rfl | hx
    · exact ⟨rfl, first b (.head _), hmem a (.head _), hmem b (.tail _ (.head _))⟩
    · exact hmem x (.tail _ (.tail _ hx))

/-! ### The leaves of a built tree -/

/-- The entry of a byte value (R21). -/
theorem wtRead_castSucc (v : Fin 256) (s : State) : wtRead v.castSucc s = s.wt[v.val] := dif_pos v.isLt

/-- The initial leaves are those of the symbols of weight above 0, the sentinel included (R22, R132). -/
theorem mem_initialLeaves (s : State) (x : Tree) :
    x ∈ initialLeaves s.wt ↔ ∃ sym, wtRead sym s ≠ 0 ∧ x = .leaf sym (wtRead sym s) := by
  rw [Fin.exists_fin_succ', initialLeaves_eq, List.mem_append]
  refine or_congr ?_ ?_
  · simp only [byteLeaves, List.mem_filterMap, List.mem_finRange, true_and, wtRead_castSucc]
    refine exists_congr fun v => ?_
    by_cases h : s.wt[v.val] = 0
    · simp [h]
    · simp [h, eq_comm]
  · exact List.mem_singleton.trans (and_iff_right (a := wtRead (Fin.last 256) s ≠ 0) Nat.one_ne_zero).symm

/-- The leaves under the initial nodes, as pairs (R132). -/
theorem mem_leaves_initialLeaves (s : State) (sym : Symbol) (w : Nat) :
    (sym, w) ∈ (initialLeaves s.wt).flatMap Tree.leaves ↔ w = wtRead sym s ∧ w ≠ 0 := by
  simp only [List.mem_flatMap, mem_initialLeaves]
  constructor
  · rintro ⟨x, ⟨sym', hw, rfl⟩, hx⟩
    cases List.mem_singleton.mp hx
    exact ⟨rfl, hw⟩
  · rintro ⟨rfl, hw⟩
    exact ⟨_, ⟨sym, hw, rfl⟩, .head _⟩

/-- Settles O27: a tree of the greedy construction keeps the leaves and the weights of the initial leaves. -/
theorem builtTreeHasItsLeavesAndSums : Obligations.BuiltTreeHasItsLeavesAndSums := by
  intro s u hidle hnone h hu
  obtain ⟨t, ht, rfl⟩ := exec_bld_noError hidle hnone h hu
  refine ⟨t, rfl, fun sym w => ?_, ?_, ?_, ?_, ?_⟩
  · rw [(greedy_leaves ht).mem_iff, mem_leaves_initialLeaves]
  · exact (greedy_symbols ht).nodup_iff.mpr (initialLeaves_nodup s.wt)
  · refine greedy_built ht fun x hx => ?_
    obtain ⟨sym, -, rfl⟩ := (mem_initialLeaves s x).mp hx
    trivial
  · have := size_eq_leaves t
    omega
  · rw [greedy_weight ht, initialLeaves_weight]

end Sys2Proof.Proofs
end

section
/-! SUPPORT. Depths in a tree of the greedy construction: of two nodes that were present together the greater never lies
deeper, so of two symbols the heavier never has the longer code (R142). -/

namespace Sys2Proof.Proofs

open Sys2Proof.Machine Sys2Proof.Laws

/-! ### Paths -/

@[simp] theorem atPath_nil (t : Tree) : t.atPath [] = some t := by cases t <;> rfl

theorem atPath_append {t x : Tree} {p : Bits} (q : Bits) (h : t.atPath p = some x) : t.atPath (p ++ q) = x.atPath q := by
  induction p generalizing t with
  | nil =>
    rw [atPath_nil] at h
    cases h
    rfl
  | cons side p ih =>
    cases t with
    | leaf sym w => cases h
    | node w l r =>
      cases side
      · exact ih (t := l) h
      · exact ih (t := r) h

theorem atPath_leaf {sym : Symbol} {w : Nat} {p : Bits} {x : Tree} (h : (Machine.Tree.leaf sym w).atPath p = some x) :
    p = [] ∧ x = .leaf sym w := by
  cases p with
  | nil => cases h; exact ⟨rfl, rfl⟩
  | cons b p => cases h

/-- A path from an internal node to a leaf goes to one of its children first. -/
theorem atPath_node {n v : Nat} {l r : Tree} {p : Bits} {sym : Symbol}
    (h : (Machine.Tree.node n l r).atPath p = some (.leaf sym v)) :
    (∃ p', p = false :: p' ∧ l.atPath p' = some (.leaf sym v)) ∨
    (∃ p', p = true :: p' ∧ r.atPath p' = some (.leaf sym v)) := by
  rcases p with _ | ⟨_ | _, p⟩
  · cases h
  · exact .inl ⟨p, rfl, h⟩
  · exact .inr ⟨p, rfl, h⟩

/-- The leaf a path leads to is a leaf of the tree. -/
theorem mem_leaves_of_atPath {t : Tree} {p : Bits} {sym : Symbol} {v : Nat} (h : t.atPath p = some (.leaf sym v)) :
    (sym, v) ∈ t.leaves := by
  induction t generalizing p with
  | leaf s n =>
    cases (atPath_leaf h).2
    exact .head _
  | node n l r ihl ihr =>
    rcases atPath_node h with ⟨p', -, h'⟩ | ⟨p', -, h'⟩
    · exact List.mem_append_left _ (ihl h')
    · exact List.mem_append_right _ (ihr h')

theorem mem_symbols_of_atPath {t : Tree} {p : Bits} {sym : Symbol} {v : Nat} (h : t.atPath p = some (.leaf sym v)) :
    sym ∈ t.symbols := List.mem_map_of_mem (f := Prod.fst) (mem_leaves_of_atPath h)

/-- In a tree without a repeated symbol one path leads to a symbol. -/
theorem atPath_unique {t : Tree} (ht : t.symbols.Nodup) {p q : Bits} {sym : Symbol} {v w : Nat}
    (hp : t.atPath p = some (.leaf sym v)) (hq : t.atPath q = some (.leaf sym w)) : p = q := by
  induction t generalizing p q with
  | leaf s n => rw [(atPath_leaf hp).1, (atPath_leaf hq).1]
  | node n l r ihl ihr =>
    rw [symbols_node, List.nodup_append] at ht
    obtain ⟨hl, hr, hdisjoint⟩ := ht
    have hapart : ∀ {p' q' v w}, l.atPath p' = some (.leaf sym v) → r.atPath q' = some (.leaf sym w) → False :=
      fun h h' => hdisjoint sym (mem_symbols_of_atPath h) sym (mem_symbols_of_atPath h') rfl
    rcases atPath_node hp with ⟨p', rfl, hp'⟩ | ⟨p', rfl, hp'⟩ <;>
      rcases atPath_node hq with ⟨q', rfl, hq'⟩ | ⟨q', rfl, hq'⟩
    · rw [ihl hl hp' hq']
    · exact (hapart hp' hq').elim
    · exact (hapart hq' hp').elim
    · rw [ihr hr hp' hq']

/-! ### Depths -/

/-- `less` as an order on weights, then keys (R133). -/
theorem less_iff (x y : Tree) : less x y = true ↔ x.weight < y.weight ∨ x.weight = y.weight ∧ x.key < y.key := by
  simp [less]

/-- The node that joins two nodes (R134). -/
def joined (a b : Tree) : Tree := .node (a.weight + b.weight) a b

theorem weight_joined (a b : Tree) : (joined a b).weight = a.weight + b.weight := rfl

theorem key_joined (a b : Tree) : (joined a b).key = min a.key b.key := rfl

/-- Of nodes of weight above 0, the join of the two least is less than every join that comes after it. -/
theorem joined_less_joined {a b : Tree} {rest : List Tree} (hpos : ∀ x ∈ a :: b :: rest, 0 < x.weight)
    (first : ∀ x ∈ b :: rest, less a x = true) (second : ∀ x ∈ rest, less b x = true) :
    ∀ u ∈ joined a b :: rest, ∀ v ∈ joined a b :: rest, less (joined a b) (joined u v) = true := by
  have ha := hpos a (.head _)
  have hb := hpos b (.tail _ (.head _))
  have hab := first b (.head _)
  have hrest : ∀ x ∈ rest, 0 < x.weight ∧ less a x = true ∧ less b x = true := fun x hx =>
    ⟨hpos x (.tail _ (.tail _ hx)), first x (.tail _ hx), second x hx⟩
  intro u hu v hv
  simp only [less_iff, weight_joined, key_joined] at hab hrest ⊢
  rcases List.mem_cons.mp hu with rfl | hu <;> rcases List.mem_cons.mp hv with rfl | hv
  · simp only [weight_joined]
    omega
  · have := hrest v hv
    simp only [weight_joined]
    omega
  · have := hrest u hu
    simp only [weight_joined]
    omega
  · have := hrest u hu
    have := hrest v hv
    omega

/-- Depths of the nodes present in the tree they come to make: each is the length of a path to the node; the greater of two
nodes does not lie deeper; and no node lies deeper than one level below a node that is less than every join to come. -/
structure Depths (t : Tree) (q : List Tree) (d : Tree → Nat) : Prop where
  path : ∀ x ∈ q, ∃ p, t.atPath p = some x ∧ p.length = d x
  greater : ∀ x ∈ q, ∀ y ∈ q, less y x = true → d x ≤ d y
  level : ∀ x ∈ q, (∀ u ∈ q, ∀ v ∈ q, less x (joined u v) = true) → ∀ y ∈ q, d y ≤ d x + 1

theorem Depths.perm {t : Tree} {q q' : List Tree} {d : Tree → Nat} (hq : q.Perm q') (h : Depths t q' d) :
    Depths t q d := by
  obtain ⟨hpath, hgreater, hlevel⟩ := h
  simp only [← hq.mem_iff] at hpath hgreater hlevel
  exact ⟨hpath, hgreater, hlevel⟩

theorem Depths.root (t : Tree) : Depths t [t] fun _ => 0 where
  path x hx := ⟨[], by rw [List.mem_singleton.mp hx, atPath_nil], rfl⟩
  greater _ _ _ _ _ := le_rfl
  level _ _ _ _ _ := Nat.zero_le _

/-- The depths with two nodes one level below the node that joins them. -/
def below (a b : Tree) (d : Tree → Nat) (x : Tree) : Nat := if x = a ∨ x = b then d (joined a b) + 1 else d x

/-- Two nodes lie one level below their join, and every other node where it lay. -/
theorem below_cases {a b x : Tree} {rest : List Tree} (d : Tree → Nat) (first : ∀ x ∈ b :: rest, less a x = true)
    (second : ∀ x ∈ rest, less b x = true) (hx : x ∈ a :: b :: rest) :
    (∃ side, (joined a b).atPath [side] = some x) ∧ (∀ y ∈ rest, less x y = true) ∧
      below a b d x = d (joined a b) + 1 ∨
    x ∈ rest ∧ below a b d x = d x := by
  rcases List.mem_cons.mp hx with rfl | htail
  · exact .inl ⟨⟨false, atPath_nil _⟩, fun y hy => first y (.tail _ hy), if_pos (.inl rfl)⟩
  · rcases List.mem_cons.mp htail with rfl | hrest
    · exact .inl ⟨⟨true, atPath_nil _⟩, second, if_pos (.inr rfl)⟩
    · refine .inr ⟨hrest, if_neg ?_⟩
      rintro (rfl | rfl)
      · exact absurd ((less_irrefl _).symm.trans (first _ htail)) (by decide)
      · exact absurd ((less_irrefl _).symm.trans (second _ hrest)) (by decide)

/-- From the depths of the nodes after a join to those of the nodes before it. -/
theorem Depths.join {t a b : Tree} {rest : List Tree} {d : Tree → Nat} (hpos : ∀ x ∈ a :: b :: rest, 0 < x.weight)
    (first : ∀ x ∈ b :: rest, less a x = true) (second : ∀ x ∈ rest, less b x = true)
    (h : Depths t (joined a b :: rest) d) : Depths t (a :: b :: rest) (below a b d) := by
  have hcases := fun x (hx : x ∈ a :: b :: rest) => below_cases d first second hx
  have hdeepest : ∀ x ∈ a :: b :: rest, below a b d x ≤ d (joined a b) + 1 := by
    intro x hx
    rcases hcases x hx with ⟨-, -, e⟩ | ⟨hrest, e⟩ <;> rw [e]
    exact h.level _ (.head _) (joined_less_joined hpos first second) x (.tail _ hrest)
  refine ⟨fun x hx => ?_, fun x hx y hy hless => ?_, fun x hx hleast y hy => ?_⟩
  · rcases hcases x hx with ⟨⟨side, hside⟩, -, e⟩ | ⟨hrest, e⟩ <;> rw [e]
    · obtain ⟨p, hp, hlen⟩ := h.path _ (.head _)
      exact ⟨p ++ [side], (atPath_append _ hp).trans hside, by rw [List.length_append, hlen]; rfl⟩
    · exact h.path x (.tail _ hrest)
  · rcases hcases y hy with ⟨-, -, ey⟩ | ⟨hyrest, ey⟩
    · rw [ey]
      exact hdeepest x hx
    · rcases hcases x hx with ⟨-, hxless, -⟩ | ⟨hxrest, ex⟩
      · exact absurd (hless.symm.trans (less_asymm (hxless y hyrest))) (by decide)
      · rw [ex, ey]
        exact h.greater x (.tail _ hxrest) y (.tail _ hyrest) hless
  · refine (hdeepest y hy).trans (Nat.succ_le_succ ?_)
    rcases hcases x hx with ⟨-, -, e⟩ | ⟨hrest, e⟩ <;> rw [e]
    · exact Nat.le_succ _
    · exact h.greater _ (.head _) x (.tail _ hrest) (hleast a (.head _) b (.tail _ (.head _)))

/-- The nodes that the greedy construction begins with have such depths in its tree. -/
theorem greedy_depths {top : Nat} {q : List Tree} {t : Tree} (h : Greedy top q t) (hpos : ∀ x ∈ q, 0 < x.weight) :
    ∃ d, Depths t q d := by
  induction h with
  | root t => exact ⟨_, .root t⟩
  | @join present rest a b t nodes first second _ _ ih =>
    simp only [nodes.mem_iff] at hpos
    obtain ⟨d, hd⟩ := ih fun x hx => by
      rcases List.mem_cons.mp hx with rfl | hx
      · exact Nat.add_pos_left (hpos a (.head _)) _
      · exact hpos x (.tail _ (.tail _ hx))
    exact ⟨_, (Depths.join hpos first second hd).perm nodes⟩

/-! ### Codes -/

/-- A walk leaves a symbol the path of one of its leaves, or the code it had (R151, R153). -/
theorem walk_path {t : Tree} {path p : Bits} {ct : Vector (Option Bits) 257} {a : Symbol}
    (h : ctGet a (walk t path ct) = some p) :
    (∃ r w, p = path ++ r ∧ t.atPath r = some (.leaf a w)) ∨ ctGet a ct = some p := by
  induction t generalizing path ct with
  | leaf sym w =>
    rw [walk, ctGet_ctSet] at h
    split at h
    · next e =>
      cases h
      exact .inl ⟨[], w, (List.append_nil _).symm, by rw [e, atPath_nil]⟩
    · exact .inr h
  | node w l r ihl ihr =>
    rcases ihr h with ⟨p', v, e, hp⟩ | h
    · exact .inl ⟨true :: p', v, by rw [e, List.append_assoc]; rfl, hp⟩
    · rcases ihl h with ⟨p', v, e, hp⟩ | h
      · exact .inl ⟨false :: p', v, by rw [e, List.append_assoc]; rfl, hp⟩
      · exact .inr h

/-- A symbol's code in GEN's table is a code of the tree (R151, R152). -/
theorem isCode_of_codesOf {t : Tree} {a : Symbol} {p : Bits} (h : ctGet a (codesOf t) = some p) : t.IsCode a p := by
  have hempty : ctGet a ctEmpty ≠ some p := by simp [ctGet, ctEmpty]
  cases t with
  | leaf sym w =>
    rw [codesOf, ctGet_ctSet] at h
    split at h
    · next e =>
      cases h
      exact ⟨e, rfl⟩
    · exact absurd h hempty
  | node w l r =>
    rw [codesOf] at h
    rcases walk_path h with ⟨p', v, rfl, hp⟩ | h
    · exact ⟨v, hp⟩
    · rcases walk_path h with ⟨p', v, rfl, hp⟩ | h
      · exact ⟨v, hp⟩
      · exact absurd h hempty

/-! ### Code lengths -/

/-- A leaf of the greedy tree bears its symbol's weight in the table, which is not 0 (R140 (a)). -/
theorem greedy_leaf_weight {s : State} {top : Nat} {t : Tree} (h : Greedy top (initialLeaves s.wt) t) {p : Bits}
    {a : Symbol} {v : Nat} (hp : t.atPath p = some (.leaf a v)) : v = wtRead a s ∧ v ≠ 0 :=
  (mem_leaves_initialLeaves s a v).mp ((greedy_leaves h).mem_iff.mp (mem_leaves_of_atPath hp))

/-- Of two leaves of the greedy tree the heavier has no longer path (R142). -/
theorem greedy_path_length_le {s : State} {top : Nat} {t : Tree} (h : Greedy top (initialLeaves s.wt) t)
    {p q : Bits} {a b : Symbol} {v w : Nat} (hp : t.atPath p = some (.leaf a v)) (hq : t.atPath q = some (.leaf b w))
    (hw : w < v) : p.length ≤ q.length := by
  obtain ⟨d, hd⟩ := greedy_depths h fun x hx => by
    obtain ⟨sym, hne, rfl⟩ := (mem_initialLeaves s x).mp hx
    exact Nat.pos_of_ne_zero hne
  have hdepth : ∀ {p sym n}, t.atPath p = some (.leaf sym n) →
      Machine.Tree.leaf sym n ∈ initialLeaves s.wt ∧ d (.leaf sym n) = p.length := by
    intro p sym n hp
    obtain ⟨rfl, hne⟩ := greedy_leaf_weight h hp
    have hmem := (mem_initialLeaves s _).mpr ⟨sym, hne, rfl⟩
    obtain ⟨r, hr, hlen⟩ := hd.path _ hmem
    have hnodup := (greedy_symbols h).nodup_iff.mpr (initialLeaves_nodup s.wt)
    exact ⟨hmem, by rw [← hlen, atPath_unique hnodup hp hr]⟩
  obtain ⟨ha, hda⟩ := hdepth hp
  obtain ⟨hb, hdb⟩ := hdepth hq
  rw [← hda, ← hdb]
  exact hd.greater _ ha _ hb ((less_iff _ _).mpr (.inl hw))

/-- GEN tabulates the codes of the tree (R151). -/
theorem exec_gen_ct {s v : State} {t : Tree} (hidle : Idle s) (hnone : NoError s) (ht : s.tree = some t)
    (h : exec .gen s = .next v) : v.ct = codesOf t := by
  have hrule := genRule_codes (s := beginCommand .gen s) ht
  cases h.symm.trans (runCommand_done (i := .gen) (rule := genRule) hidle (.inl hnone) hrule)
  rfl

/-- Settles O29: GEN's codes are the paths to the leaves, of which the heavier has no longer one; a tree of one leaf has the
code `0` only. -/
theorem heavierSymbolHasNoLongerCode : Obligations.HeavierSymbolHasNoLongerCode := by
  intro s u v hidle hnone hbld hu hgen a b p q hp hq hw
  obtain ⟨t, ht, rfl⟩ := exec_bld_noError hidle hnone hbld hu
  rw [exec_gen_ct rfl hu rfl hgen] at hp hq
  have hp := isCode_of_codesOf hp
  have hq := isCode_of_codesOf hq
  cases t with
  | leaf sym n => rw [hp.2, hq.2]
  | node n l r =>
    obtain ⟨v, hv⟩ := hp
    obtain ⟨w, hw'⟩ := hq
    rw [← (greedy_leaf_weight ht hv).1, ← (greedy_leaf_weight ht hw').1] at hw
    exact greedy_path_length_le ht hv hw' hw

end Sys2Proof.Proofs
end

section
/-! SUPPORT. The code table of GEN: of a symbol's leaves the rightmost one's path (R151 to R153), no code a prefix of another
symbol's (R155), and no code longer than the tree is deep (R154). -/

namespace Sys2Proof.Proofs

open Sys2Proof.Machine Sys2Proof.Laws

/-! ### The order of paths -/

@[simp] theorem pathLe_refl (p : Bits) : pathLe p p = true := by
  induction p with
  | nil => rfl
  | cons b p ih => rw [pathLe, if_pos rfl, ih]

/-- Below a node the order is that of the paths from it. -/
@[simp] theorem pathLe_append (path p q : Bits) : pathLe (path ++ p) (path ++ q) = pathLe p q := by
  induction path with
  | nil => rfl
  | cons b path ih => rw [List.cons_append, List.cons_append, pathLe, if_pos rfl, ih]

theorem pathLe_antisymm {p q : Bits} (h : pathLe p q = true) (h' : pathLe q p = true) : p = q := by
  induction p generalizing q with
  | nil =>
    cases q with
    | nil => rfl
    | cons b q => cases h'
  | cons a p ih =>
    cases q with
    | nil => cases h
    | cons b q =>
      rw [pathLe] at h h'
      by_cases e : a = b
      · rw [if_pos e] at h
        rw [if_pos e.symm] at h'
        rw [e, ih h h']
      · rw [if_neg e] at h
        rw [if_neg (Ne.symm e)] at h'
        rw [Bool.not_eq_true'] at h h'
        exact (e (h.trans h'.symm)).elim

/-! ### The rightmost leaf -/

/-- The path a walk leaves a symbol is left of no leaf of the symbol: the right subtree is visited last (R151, R153). -/
theorem pathLe_of_walk {t : Tree} {path p q : Bits} {ct : Vector (Option Bits) 257} {a : Symbol} {v : Nat}
    (h : ctGet a (walk t path ct) = some p) (hq : t.atPath q = some (.leaf a v)) : pathLe (path ++ q) p = true := by
  induction t generalizing path q ct with
  | leaf sym w =>
    obtain ⟨rfl, e⟩ := atPath_leaf hq
    cases e
    rw [walk, ctGet_ctSet, if_pos rfl] at h
    cases h
    rw [List.append_nil, pathLe_refl]
  | node w l r ihl ihr =>
    rw [walk] at h
    rcases atPath_node hq with ⟨q', rfl, hq'⟩ | ⟨q', rfl, hq'⟩
    · rcases walk_path h with ⟨p', -, rfl, -⟩ | h
      · rw [List.append_assoc, pathLe_append]
        rfl
      · rw [List.append_cons]
        exact ihl h hq'
    · rw [List.append_cons]
      exact ihr h hq'

/-- A symbol's code in GEN's table is left of no code of the symbol (R152, R153). -/
theorem pathLe_of_codesOf {t : Tree} {a : Symbol} {p q : Bits} (h : ctGet a (codesOf t) = some p) (hq : t.IsCode a q) :
    pathLe q p = true := by
  cases t with
  | leaf sym w => rw [(isCode_of_codesOf h).2, hq.2, pathLe_refl]
  | node w l r =>
    obtain ⟨v, hv⟩ := hq
    exact pathLe_of_walk (path := []) h hv

theorem mem_symbols_of_isCode {t : Tree} {a : Symbol} {p : Bits} (h : t.IsCode a p) : a ∈ t.symbols := by
  cases t with
  | leaf sym w => rw [symbols_leaf, h.1, List.mem_singleton]
  | node w l r =>
    obtain ⟨v, hv⟩ := h
    exact mem_symbols_of_atPath hv

/-- GEN's table holds a symbol's rightmost code, and only that (R151 to R153). -/
theorem ctGet_codesOf_iff (t : Tree) (a : Symbol) (p : Bits) :
    ctGet a (codesOf t) = some p ↔ t.IsCode a p ∧ ∀ q, t.IsCode a q → pathLe q p = true := by
  constructor
  · exact fun h => ⟨isCode_of_codesOf h, fun q => pathLe_of_codesOf h⟩
  · rintro ⟨hp, hlast⟩
    obtain ⟨p', h'⟩ := Option.isSome_iff_exists.mp ((codesOf_isSome t a).mpr (mem_symbols_of_isCode hp))
    rw [h', pathLe_antisymm (hlast p' (isCode_of_codesOf h')) (pathLe_of_codesOf h' hp)]

/-- Settles O30: GEN's rule tabulates the codes of the tree, and the frame of the command adds the flags. -/
theorem genTabulatesThePaths : Obligations.GenTabulatesThePaths := fun s t hidle hnone ht =>
  ⟨codesOf t, runCommand_done hidle (.inl hnone) (genRule_codes (s := beginCommand .gen s) ht), ctGet_codesOf_iff t⟩

/-! ### Prefixes and lengths -/

/-- A code that begins with another ends on the same leaf, for no path goes on below a leaf (R155). -/
theorem symbol_eq_of_isCode_prefix {t : Tree} {a b : Symbol} {p q : Bits} (hp : t.IsCode a p) (hq : t.IsCode b q)
    (h : p <+: q) : a = b := by
  cases t with
  | leaf sym w => exact hp.1.symm.trans hq.1
  | node w l r =>
    obtain ⟨v, hv⟩ := hp
    obtain ⟨v', hv'⟩ := hq
    obtain ⟨rest, rfl⟩ := h
    rw [atPath_append rest hv] at hv'
    cases (atPath_leaf hv').2
    rfl

theorem atPath_length_le {t : Tree} {p : Bits} {a : Symbol} {v : Nat} (h : t.atPath p = some (.leaf a v)) :
    p.length ≤ t.depth := by
  induction t generalizing p with
  | leaf sym w =>
    rw [(atPath_leaf h).1]
    exact Nat.zero_le _
  | node w l r ihl ihr =>
    rcases atPath_node h with ⟨p', rfl, h'⟩ | ⟨p', rfl, h'⟩
    · exact Nat.succ_le_succ ((ihl h').trans (le_max_left _ _))
    · exact Nat.succ_le_succ ((ihr h').trans (le_max_right _ _))

/-- A code has a bit, and no more bits than the tree is deep, or one if the root is a leaf (R152, R154). -/
theorem isCode_length_bounds {t : Tree} {a : Symbol} {p : Bits} (h : t.IsCode a p) :
    1 ≤ p.length ∧ p.length ≤ max 1 t.depth := by
  cases t with
  | leaf sym w =>
    rw [h.2]
    exact ⟨le_rfl, le_max_left _ _⟩
  | node w l r =>
    obtain ⟨v, hv⟩ := h
    refine ⟨List.length_pos_iff.mpr ?_, (atPath_length_le hv).trans (le_max_right _ _)⟩
    rintro rfl
    cases hv

/-- Settles O31: the table's entries are codes of the tree, none of which goes on below another's leaf, and a tree of 513
nodes is at most 256 edges deep. -/
theorem codesArePrefixFreeAndBounded : Obligations.CodesArePrefixFreeAndBounded := by
  intro s u t hidle hnone ht hgen
  rw [exec_gen_ct hidle hnone ht hgen]
  refine ⟨fun a b p q hne hp hq hprefix => ?_, fun hsize a p hp => ?_⟩
  · exact hne (symbol_eq_of_isCode_prefix (isCode_of_codesOf hp) (isCode_of_codesOf hq) hprefix)
  · obtain ⟨hpos, hlen⟩ := isCode_length_bounds (isCode_of_codesOf hp)
    have hdepth := two_depth_lt_size t
    simp only [nodeCap, codeMax] at hsize ⊢
    omega

end Sys2Proof.Proofs
end

section
/-! SUPPORT. RDH as the run of its header reader over the tokens of a header, which makes the tree it was written from
(R165, R166, R171). -/

namespace Sys2Proof.Proofs

open Sys2Proof.Machine Sys2Proof.Laws

/-! ### Loops -/

/-- After turns that go on, a loop takes its other turns. -/
theorem iterate_add_of_more {body : State → Progress} {m : Nat} {s t : State} (h : iterate body m s = .more t)
    (n : Nat) : iterate body (m + n) s = iterate body n t := by
  induction m generalizing s with
  | zero =>
    cases h
    rw [Nat.zero_add]
  | succ m ih =>
    rw [Nat.add_right_comm]
    cases e : body s with
    | more u =>
      rw [iterate_more e] at h ⊢
      exact ih h
    | done u => rw [iterate_done e] at h; cases h
    | raised u => rw [iterate_raised e] at h; cases h

/-- One turn of a loop is a turn of its body. -/
theorem iterate_one (body : State → Progress) (s : State) : iterate body 1 s = body s := by
  rw [iterate]
  cases body s <;> rfl

/-- What every turn keeps, and establishes where it ends, so does the loop. -/
theorem iterate_of_turns {body : State → Progress} {P Q R : State → Prop}
    (hturn : ∀ s, P s → Ends P Q R (body s)) : ∀ n s, P s → Ends P Q R (iterate body n s)
  | 0, _, h => h
  | n + 1, s, h => by
    have ht := hturn s h
    cases e : body s with
    | more t => rw [e] at ht; rw [iterate_more e]; exact iterate_of_turns hturn n t ht
    | done t => rw [e] at ht; rwa [iterate_done e]
    | raised t => rw [e] at ht; rwa [iterate_raised e]

/-! ### The tokens of a header, read one after another -/

theorem length_tokens (t : Tree) : t.tokens.length = t.size := by
  induction t with
  | leaf sym w => rfl
  | node w l r ihl ihr => rw [Tree.tokens, List.length_cons, List.length_append, ihl, ihr, Tree.size]

/-- The state after the header reader has read the tokens `is`, with the traversal stack `k` (R42, R165). -/
def tokensRead (is : List Instr) (k : List Frame) (s : State) : State :=
  { atPos (s.src.pos + (is.flatMap encode).length) s with nodes := s.nodes + is.length, stack := k }

theorem tokensRead_tokensRead (is js : List Instr) (k k' : List Frame) (s : State) :
    tokensRead js k' (tokensRead is k s) = tokensRead (is ++ js) k' s := by
  simp only [tokensRead, List.flatMap_append, List.length_append, Nat.add_assoc]

/-- The bits after the tokens read. -/
theorem tokensRead_rest {is : List Instr} {k : List Frame} {s : State} {tail : Bits}
    (h : s.src.rest = is.flatMap encode ++ tail) : (tokensRead is k s).src.rest = tail := by
  rw [tokensRead, rest_advance, h, List.drop_left]

theorem tokensRead_nodes (is : List Instr) (k : List Frame) (s : State) :
    (tokensRead is k s).nodes = s.nodes + is.length := rfl

/-- A turn of the header reader at a token within the node capacity fetches it and runs it (R165). -/
theorem headerToken_encode {i : Instr} (hfmt : i.format = .hdr) {s : State} {tail : Bits} (hn : s.nodes < nodeCap)
    (h : s.src.rest = encode i ++ tail) : headerToken s = tokenEffect i (tokensRead [i] s.stack s) := by
  rw [headerToken, fetchToken_encode hfmt hn h, tokensRead, List.flatMap_singleton]
  rfl

/-- A completed subtree writes the traversal stack without reading it from the state. -/
theorem completeSubtree_tokensRead (t : Tree) (k j j' : List Frame) (is : List Instr) (s : State) :
    completeSubtree t k (tokensRead is j s) = completeSubtree t k (tokensRead is j' s) := by
  induction k generalizing t with
  | nil => rfl
  | cons f k ih =>
    cases f with
    | left => rfl
    | right l => exact ih (.node 0 l t)

/-- Where the header reader goes on after some tokens, and goes on after more, it has read them all. -/
theorem iterate_headerToken_append {is js : List Instr} {k k' : List Frame} {s : State}
    (h : iterate headerToken is.length s = .more (tokensRead is k s))
    (h' : iterate headerToken js.length (tokensRead is k s) = .more (tokensRead js k' (tokensRead is k s))) :
    iterate headerToken (is ++ js).length s = .more (tokensRead (is ++ js) k' s) := by
  rw [List.length_append, iterate_add_of_more h, h', tokensRead_tokensRead]

/-- The header reader's turn at a token HDR-I (R94, R165). -/
theorem iterate_headerToken_hdrI {s : State} {tail : Bits} (hn : s.nodes < nodeCap)
    (h : s.src.rest = encode .hdrI ++ tail) :
    iterate headerToken [Instr.hdrI].length s = .more (tokensRead [.hdrI] (.left :: s.stack) s) := by
  rw [List.length_singleton, iterate_one, headerToken_encode (i := .hdrI) rfl hn h]
  rfl

/-- The header reader reads the header of `t` in as many turns as it has tokens, and has then completed that tree, with
every weight 0, as a subtree (R165, R166). -/
def ReadsBack (t : Tree) : Prop :=
  ∀ ⦃s : State⦄ ⦃tail : Bits⦄ (k : List Frame), s.src.rest = t.tokens.flatMap encode ++ tail →
    s.nodes + t.tokens.length ≤ nodeCap →
    iterate headerToken t.tokens.length s = completeSubtree t.unweighted s.stack (tokensRead t.tokens k s)

/-- A node's own token and its left child read, the header reader expects the right child (R165, R173). -/
theorem iterate_headerToken_left {l : Tree} (hl : ReadsBack l) {s : State} {tail : Bits}
    (h : s.src.rest = encode .hdrI ++ (l.tokens.flatMap encode ++ tail))
    (hn : s.nodes + 1 + l.tokens.length ≤ nodeCap) : iterate headerToken (.hdrI :: l.tokens).length s =
      .more (tokensRead (.hdrI :: l.tokens) (.right l.unweighted :: s.stack) s) :=
  iterate_headerToken_append (is := [.hdrI]) (iterate_headerToken_hdrI (by omega) h)
    (hl (.right l.unweighted :: s.stack) (tokensRead_rest (is := [.hdrI]) h) hn)

theorem readsBack_leaf (sym : Symbol) (w : Nat) : ReadsBack (.leaf sym w) := by
  intro s tail k h hn
  rw [Tree.tokens, List.flatMap_singleton] at h
  rw [Tree.tokens, List.length_singleton, iterate_one, headerToken_encode rfl hn h, tokenEffect, tokenLeaf_symbol]
  exact completeSubtree_tokensRead _ _ _ _ _ _

theorem readsBack_node (w : Nat) {l r : Tree} (hl : ReadsBack l) (hr : ReadsBack r) : ReadsBack (.node w l r) := by
  intro s tail k h hn
  simp only [Tree.tokens, List.flatMap_cons, List.flatMap_append, List.append_assoc] at h
  simp only [Tree.tokens, List.length_cons, List.length_append] at hn
  have hleft := iterate_headerToken_left hl h (by omega)
  have hright := hr (s := tokensRead (.hdrI :: l.tokens) (.right l.unweighted :: s.stack) s) (tail := tail) k
    (tokensRead_rest (by rw [h, List.flatMap_cons, List.append_assoc]))
    (by rw [tokensRead_nodes, List.length_cons]; omega)
  calc iterate headerToken (.hdrI :: l.tokens ++ r.tokens).length s
      = iterate headerToken r.tokens.length _ := by rw [List.length_append, iterate_add_of_more hleft]
    _ = completeSubtree (Machine.Tree.node w l r).unweighted s.stack _ := hright
    _ = completeSubtree _ _ (tokensRead (.hdrI :: l.tokens ++ r.tokens) k s) := by rw [tokensRead_tokensRead]

theorem readsBack (t : Tree) : ReadsBack t := by
  induction t with
  | leaf sym w => exact readsBack_leaf sym w
  | node w l r ihl ihr => exact readsBack_node w ihl ihr

/-- The header reader before its first token (R165). -/
def readerStart (s : State) : State := rdhStart (beginCommand .rdh s)

/-- Settles O33: the reader's turns complete the whole tree, and the bound on its turns leaves room for them. -/
theorem rdhReadsTheHeaderBack : Obligations.RdhReadsTheHeaderBack := by
  intro s t tail hidle hnone hsize h
  rw [← length_tokens] at hsize
  rw [ser_eq_encode_tokens] at h ⊢
  have hturns : iterate headerToken t.tokens.length (readerStart s) = completeSubtree t.unweighted [] _ :=
    readsBack t [] h ((Nat.zero_add _).trans_le hsize)
  have hrule : rdhRule (beginCommand .rdh s) = .done _ := iterate_done_mono hturns (Nat.le_succ_of_le hsize)
  exact (runCommand_done (i := .rdh) (rule := rdhRule) hidle (.inl hnone) hrule).trans rfl

end Sys2Proof.Proofs
end

section
/-! SUPPORT. A header that goes on leaves the header reader before its next token, where it meets each error of RDH: the
source ends (R167), a field is no symbol (R168), or a node is one too many (R169). -/

namespace Sys2Proof.Proofs

open Sys2Proof.Machine Sys2Proof.Laws

/-! ### A header that goes on -/

/-- Where a list of two parts is cut before one of its elements, that is an element of the first part or of the second. -/
theorem append_eq_append_cons {α : Type} {l r b after : List α} {x : α} (h : l ++ r = b ++ x :: after) :
    (∃ y c, l = b ++ y :: c) ∨ ∃ c, b = l ++ c ∧ r = c ++ x :: after := by
  rcases List.append_eq_append_iff.mp h with ⟨c, hb, hr⟩ | ⟨c, hl, hx⟩
  · exact .inr ⟨c, hb, hr⟩
  · cases c with
    | nil => exact .inr ⟨[], by simp [hl], hx.symm⟩
    | cons y c => exact .inl ⟨y, c, hl⟩

/-- The header reader that has read the first tokens of a header which goes on stands before the next (R165). -/
theorem iterate_headerToken_prefix (t : Tree) {s : State} {before after : List Instr} {x : Instr} {tail : Bits}
    (ht : t.tokens = before ++ x :: after) (h : s.src.rest = before.flatMap encode ++ tail)
    (hn : s.nodes + before.length ≤ nodeCap) :
    ∃ k, iterate headerToken before.length s = .more (tokensRead before k s) := by
  induction t generalizing s before after x tail with
  | leaf sym w =>
    cases before with
    | nil => exact ⟨s.stack, rfl⟩
    | cons i before => simp [Tree.tokens] at ht
  | node w l r ihl ihr =>
    cases before with
    | nil => exact ⟨s.stack, rfl⟩
    | cons i before =>
      obtain ⟨rfl, htail⟩ := List.cons_eq_cons.mp ht
      rw [List.length_cons] at hn
      rcases append_eq_append_cons htail with ⟨y, c, hl⟩ | ⟨c, rfl, hr⟩
      · rw [List.flatMap_cons, List.append_assoc] at h
        obtain ⟨k, hk⟩ := ihl (s := tokensRead [.hdrI] (.left :: s.stack) s) hl (tokensRead_rest (is := [.hdrI]) h)
          (by rw [tokensRead_nodes, List.length_singleton]; omega)
        exact ⟨k, iterate_headerToken_append (iterate_headerToken_hdrI (by omega) h) hk⟩
      · simp only [List.flatMap_cons, List.flatMap_append, List.append_assoc] at h
        rw [List.length_append] at hn
        obtain ⟨k, hk⟩ := ihr (s := tokensRead (.hdrI :: l.tokens) (.right l.unweighted :: s.stack) s) hr
          (tokensRead_rest (by rw [h, List.flatMap_cons, List.append_assoc]))
          (by rw [tokensRead_nodes, List.length_cons]; omega)
        exact ⟨k, iterate_headerToken_append (iterate_headerToken_left (readsBack l) h (by omega)) hk⟩

/-- An error that the header reader meets after the first tokens of a header which goes on ends RDH (R165). -/
theorem exec_rdh_raises {s : State} {t : Tree} {before after : List Instr} {x : Instr} {tail : Bits} (hidle : Idle s)
    (hnone : NoError s) (ht : t.tokens = before ++ x :: after) (hcap : before.length ≤ nodeCap)
    (h : s.src.rest = before.flatMap encode ++ tail) :
    ∃ k, ∀ u, headerToken (tokensRead before k (readerStart s)) = .raised u → exec .rdh s = .next (endCommand u) := by
  obtain ⟨k, hk⟩ := iterate_headerToken_prefix t (s := readerStart s) ht h ((Nat.zero_add _).trans_le hcap)
  refine ⟨k, fun u hu => ?_⟩
  have hturns : iterate headerToken (before.length + 1) (readerStart s) = .raised u := by
    rw [iterate_add_of_more hk, iterate_one, hu]
  have hrule : rdhRule (beginCommand .rdh s) = .raised u :=
    iterate_mono hturns (fun _ => nofun) _ (Nat.succ_le_succ hcap)
  exact runCommand_raised (i := .rdh) (rule := rdhRule) hidle (.inl hnone) hrule

/-! ### The errors of a turn -/

/-- The tag bit that stands at the cursor is read (R61, R94, R95). -/
theorem readUnit_tag {b : Bool} {s : State} {tail : Bits} (h : s.src.rest = b :: tail) :
    readUnit 1 s = (some (.ofBool b), atPos (s.src.pos + 1) s) ∧ (atPos (s.src.pos + 1) s).src.rest = tail :=
  readUnit_next (by decide) (.ofBool b) (by rw [h]; cases b <;> rfl)

/-- A source that ends at a tag is CorruptHeader (R167). -/
theorem headerToken_no_tag {s : State} (h : s.src.rest = []) :
    headerToken s = .raised (raise .header .corruptHeader (atPos s.src.bits.length s)) := by
  rw [headerToken, fetchToken, readUnit_short (by rw [h]; decide)]

/-- A source that ends inside a symbol field is CorruptHeader (R167). -/
theorem headerToken_short_field {s : State} {f : Bits} (hn : s.nodes < nodeCap) (h : s.src.rest = true :: f)
    (hf : f.length < 9) : headerToken s =
      .raised (raise .header .corruptHeader { atPos s.src.bits.length s with nodes := s.nodes + 1 }) := by
  obtain ⟨htag, hrest⟩ := readUnit_tag h
  rw [headerToken, fetchToken, htag]
  dsimp only
  rw [if_neg (Nat.not_lt.mpr hn), if_neg (by decide),
    readUnit_short (s := { atPos (s.src.pos + 1) s with nodes := s.nodes + 1 }) (by rwa [hrest])]

/-- A tag bit past the node capacity is Overflow, whatever it is (R169). -/
theorem headerToken_too_many {s : State} {b : Bool} {tail : Bits} (hn : nodeCap ≤ s.nodes)
    (h : s.src.rest = b :: tail) :
    headerToken s = .raised (raise .header .overflow (atPos (s.src.pos + 1) s)) := by
  rw [headerToken, fetchToken, (readUnit_tag h).1]
  dsimp only
  rw [if_pos (Nat.lt_succ_of_le hn)]

/-- A symbol field above 256 is CorruptHeader once it is read (R168). -/
theorem headerToken_no_symbol {s : State} {f : BitVec 9} {tail : Bits} (hn : s.nodes < nodeCap) (hf : 256 < f.toNat)
    (h : s.src.rest = encode (.hdrL f) ++ tail) :
    headerToken s = .raised (raise .header .corruptHeader (tokensRead [.hdrL f] s.stack s)) := by
  rw [headerToken_encode rfl hn h, tokenEffect, tokenLeaf, dif_neg (by omega)]

/-- Settles O34: after the tokens the reader meets the end of the source, at the tag or in the field. -/
theorem rdhRejectsAShortHeader : Obligations.RdhRejectsAShortHeader := by
  intro s t before after x part hidle hnone ht hpart h
  have hcap : before.length ≤ nodeCap := hpart.elim (fun h => h.2) fun ⟨_, _, _, hlt⟩ => hlt.le
  obtain ⟨k, hexec⟩ := exec_rdh_raises hidle hnone ht hcap h
  have hrest : (tokensRead before k (readerStart s)).src.rest = part := tokensRead_rest h
  rcases hpart with ⟨rfl, -⟩ | ⟨f, rfl, hf, hlt⟩
  · refine ⟨_, hexec _ (headerToken_no_tag hrest), ?_⟩
    simp [tokensRead, readerStart, rdhStart, raise_wt]
  · refine ⟨_, hexec _ (headerToken_short_field ((Nat.zero_add _).trans_lt hlt) hrest hf), ?_⟩
    simp [tokensRead, readerStart, rdhStart, raise_wt]

/-- Settles O35: after the tokens the reader reads the field, and rejects it. -/
theorem rdhRejectsAFieldThatIsNoSymbol : Obligations.RdhRejectsAFieldThatIsNoSymbol := by
  intro s t before after x f tail hidle hnone ht hlt hf h
  rw [List.append_assoc] at h
  obtain ⟨k, hexec⟩ := exec_rdh_raises hidle hnone ht hlt.le h
  refine ⟨_, hexec _ (headerToken_no_symbol ((Nat.zero_add _).trans_lt hlt) hf (tokensRead_rest h)), ?_⟩
  simp [tokensRead, readerStart, rdhStart, encode]

/-- Settles O36: after 513 tokens the reader reads the next tag bit, and its node is one too many. -/
theorem rdhRejectsTooManyNodes : Obligations.RdhRejectsTooManyNodes := by
  intro s t b tail hidle hnone hsize h
  rw [← length_tokens] at hsize
  have hlen : (t.tokens.take nodeCap).length = nodeCap := List.length_take_of_le hsize.le
  have ht : t.tokens = t.tokens.take nodeCap ++ t.tokens[nodeCap] :: t.tokens.drop (nodeCap + 1) := by
    rw [← List.drop_eq_getElem_cons, List.take_append_drop]
  obtain ⟨k, hexec⟩ := exec_rdh_raises hidle hnone ht hlen.le h
  refine ⟨_, hexec _ (headerToken_too_many (hlen.ge.trans_eq (Nat.zero_add _).symm) (tokensRead_rest h)), ?_⟩
  simp [tokensRead, readerStart, rdhStart]

end Sys2Proof.Proofs
end

section
/-! SUPPORT. WRH (R161), and the bits that RDH has read: those of the header of the tree it makes, which WRH writes back
(R171). -/

namespace Sys2Proof.Proofs

open Sys2Proof.Machine Sys2Proof.Laws

/-! ### WRH -/

/-- WRH appends the header of the tree to an open sink (R161). -/
theorem exec_wrh_open {s : State} {t : Tree} (hidle : Idle s) (hnone : NoError s) (ht : s.tree = some t)
    (hopen : s.snk.finished = false) :
    exec .wrh s = .next { ran .wrh s with snk := { bits := s.snk.bits ++ t.ser, finished := false } } := by
  rw [← hopen]
  exact runCommand_done (i := .wrh) (rule := wrhRule) hidle (.inl hnone) (wrhRule_open ht hopen)

theorem wrhRule_finished {s : State} {t : Tree} (ht : s.tree = some t) (h : s.snk.finished = true) :
    wrhRule s = .raised (raise .wrh .badCommand s) := by
  simp only [wrhRule, ht, emit_finished t h]

/-- Settles O32: an open sink takes the tree's header, a finished one refuses its first bit. -/
theorem wrhWritesTheHeader : Obligations.WrhWritesTheHeader := by
  refine fun s t hidle hnone ht => ⟨fun hopen => ?_, fun hfin => ?_⟩
  · exact exec_wrh_open hidle hnone ht hopen
  · have hrule : wrhRule (beginCommand .wrh s) = _ := wrhRule_finished ht hfin
    refine ⟨_, runCommand_raised (i := .wrh) (rule := wrhRule) hidle (.inl hnone) hrule, ?_⟩
    simp

/-! ### The bits that RDH has read -/

/-- The bits that the frames of the traversal stack stand for: a node's tag, and the header of its left child once that is
complete (R42, R96). -/
def stackBits : List Frame → Bits
  | [] => []
  | .left :: k => stackBits k ++ [false]
  | .right l :: k => stackBits k ++ false :: l.ser

/-- The source of `s` is `src` with the bits `read` taken from it. -/
structure HasRead (src : Source) (read : Bits) (s : State) : Prop where
  rest : src.rest = read ++ s.src.rest
  pos : s.src.pos = src.pos + read.length

theorem HasRead.append {src : Source} {read more : Bits} {s t : State} (h : HasRead src read s)
    (h' : HasRead s.src more t) : HasRead src (read ++ more) t :=
  ⟨by rw [h.rest, h'.rest, List.append_assoc], by rw [h'.pos, h.pos, List.length_append, Nat.add_assoc]⟩

/-- Between its tokens the header reader has read what its stack stands for. -/
abbrev HasReadStack (src : Source) (s : State) : Prop := HasRead src (stackBits s.stack) s

/-- The header reader has read the header of the tree it made. -/
def HasReadTree (src : Source) (s : State) : Prop := ∃ t, s.tree = some t ∧ HasRead src t.ser s

/-- A unit that is not past the end of the source is read (R61). -/
theorem hasRead_unit {n : Nat} {s : State} (h : s.src.pos + n ≤ s.src.bits.length) :
    HasRead s.src (bitsOf n (BitVec.ofNat n (val (s.src.rest.take n))).toNat) (atPos (s.src.pos + n) s) := by
  refine ⟨?_, by rw [length_bitsOf]⟩
  rw [rest_advance, bitsOf_val_take_append_drop]
  rw [left_eq_length_rest, Source.left]
  omega

/-- A fetched token is the one whose encoding stood at the cursor (R94, R95). -/
theorem fetchToken_hasRead {s t : State} {i : Instr} (h : fetchToken s = .ok (i, t)) :
    HasRead s.src (encode i) t ∧ t.stack = s.stack := by
  rcases fetchToken_cases s with ⟨-, e⟩ | ⟨hp, ⟨-, e⟩ | ⟨-, ⟨htag, e⟩ | ⟨htag, ⟨-, e⟩ | ⟨hp9, e⟩⟩⟩⟩ <;>
    rw [e] at h <;> cases h
  · obtain ⟨hrest, hpos⟩ := hasRead_unit hp
    rw [htag] at hrest
    exact ⟨⟨hrest, hpos⟩, rfl⟩
  · have hread := (hasRead_unit hp).append (hasRead_unit (s := atPos (s.src.pos + 1) s) hp9)
    rw [(BitVec.eq_zero_or_eq_one _).resolve_left htag, rest_advance] at hread
    exact ⟨⟨hread.rest, hread.pos⟩, rfl⟩

theorem fetchToken_error {s t : State} (h : fetchToken s = .error t) : t.err ≠ .none := by
  rcases fetchToken_cases s with ⟨-, e⟩ | ⟨-, ⟨-, e⟩ | ⟨-, ⟨-, e⟩ | ⟨-, ⟨-, e⟩ | ⟨-, e⟩⟩⟩⟩ <;>
    rw [e] at h <;> cases h <;> simp

theorem completeSubtree_hasRead {src : Source} {t : Tree} {k : List Frame} {s : State}
    (h : HasRead src (stackBits k ++ t.ser) s) :
    Ends (HasReadStack src) (HasReadTree src) (fun u => u.err ≠ .none) (completeSubtree t k s) := by
  induction k generalizing t with
  | nil => exact ⟨t, rfl, h.rest, h.pos⟩
  | cons f k ih =>
    cases f with
    | left =>
      have e : stackBits (.left :: k) ++ t.ser = stackBits (.right t :: k) := by simp [stackBits]
      rw [e] at h
      exact ⟨h.rest, h.pos⟩
    | right l =>
      have e : stackBits (.right l :: k) ++ t.ser = stackBits k ++ (Machine.Tree.node 0 l t).ser := by
        simp [stackBits, Tree.ser]
      exact ih (e ▸ h)

/-- A turn of the header reader leaves on the stack, or in the tree, what it has read, or raises an error (R165, R173). -/
theorem headerToken_hasRead {src : Source} {s : State} (h : HasReadStack src s) :
    Ends (HasReadStack src) (HasReadTree src) (fun u => u.err ≠ .none) (headerToken s) := by
  rw [headerToken]
  cases e : fetchToken s with
  | error t => exact fetchToken_error e
  | ok p =>
    obtain ⟨i, t⟩ := p
    obtain ⟨hread, hstack⟩ := fetchToken_hasRead e
    have ht := h.append hread
    rw [← hstack] at ht
    rcases (fetchToken_ok e).1 with rfl | ⟨field, rfl⟩
    · exact ⟨ht.rest, ht.pos⟩
    · rcases tokenLeaf_cases field t with ⟨-, e'⟩ | ⟨hlt, e'⟩ <;> simp only [tokenEffect, e']
      · simp [Ends]
      · exact completeSubtree_hasRead ht

/-- RDH that raises no error has read the header of the tree it leaves (R165, R171). -/
theorem exec_rdh_hasRead {s u : State} (hidle : Idle s) (hnone : NoError s) (h : exec .rdh s = .next u)
    (hu : NoError u) : Idle u ∧ HasReadTree s.src u := by
  have hends : Ends (HasReadStack s.src) (HasReadTree s.src) (fun v => v.err ≠ .none) (rdhRule (beginCommand .rdh s)) :=
    iterate_of_turns (fun _ => headerToken_hasRead) _ (readerStart s) ⟨rfl, rfl⟩
  have hrun : exec .rdh s = outcomeOf (rdhRule (beginCommand .rdh s)) := runCommand_runs (i := .rdh) hidle (.inl hnone)
  rw [hrun] at h
  cases e : rdhRule (beginCommand .rdh s) with
  | more v => exact absurd e (rdhRule_ends _ v)
  | done v =>
    rw [e] at h hends
    cases h
    obtain ⟨t, ht, hrest, hpos⟩ := hends
    exact ⟨rfl, t, ht, hrest, hpos⟩
  | raised v =>
    rw [e] at h hends
    cases h
    exact absurd hu hends

/-- Settles O37: RDH consumed the header of the tree that WRH then writes, and did not touch the sink. -/
theorem wrhWritesBackWhatRdhRead : Obligations.WrhWritesBackWhatRdhRead := by
  intro s u hidle hnone hopen h hu
  obtain ⟨hidle', t, ht, hrest, hpos⟩ := exec_rdh_hasRead hidle hnone h hu
  have hsnk : u.snk = s.snk := exec_snk (i := .rdh) (by decide) (.inl hnone) (hu.trans hnone.symm) h
  have hbits : s.src.rest.take (u.src.pos - s.src.pos) = t.ser := by
    rw [hpos, Nat.add_sub_cancel_left, hrest, List.take_left]
  rw [exec_wrh_open hidle' hu ht (hsnk ▸ hopen), hsnk, hbits]

end Sys2Proof.Proofs
end

section
/-! SUPPORT. The ends of ENC: every symbol is written, the sentinel last (R181, R184), or one cannot be put, for it has no
code or the sink is finished (R181, R183). -/

namespace Sys2Proof.Proofs

open Sys2Proof.Machine Sys2Proof.Laws

/-- Settles O39: the source from the cursor on is its whole bytes, whose codes ENC writes, and fewer bits than a byte has. -/
theorem encWritesTheBody : Obligations.EncWritesTheBody := by
  intro s hidle hnone hctV hopen hcodes heof
  obtain ⟨tail, hrest, htail⟩ := eq_bitsOfBytes_bytesOfBits_append s.src.rest
  have hrule := encRule_encodes (s := beginCommand .enc s) hrest htail hctV hopen hcodes heof
  rw [← hopen]
  exact (runCommand_done (i := .enc) (rule := encRule) hidle (.inl hnone) hrule).trans rfl

/-! ### The symbol that cannot be put -/

/-- The symbol raises `k` when it is put in a state with the code table and the finished flag of `s`. -/
def PutRaises (sym : Symbol) (k : ErrKind) (s : State) : Prop :=
  ∀ t : State, t.ct = s.ct → t.snk.finished = s.snk.finished → putSymbol sym t = .raised (raise .encLoop k t)

/-- A symbol without a code is BadCode, on a finished sink too (R183). -/
theorem putRaises_badCode {sym : Symbol} {s : State} (h : ctGet sym s.ct = none) : PutRaises sym .badCode s := by
  intro t hct _
  rw [putSymbol, hct, h]

/-- A symbol with a code of at least one bit is BadCommand on a finished sink (R181, R245). -/
theorem putRaises_badCommand {sym : Symbol} {code : Bits} {s : State} (hfin : s.snk.finished = true)
    (h : ctGet sym s.ct = some code) (hne : code ≠ []) : PutRaises sym .badCommand s := by
  intro t hct ht
  obtain ⟨b, bs, rfl⟩ := List.exists_cons_of_ne_nil hne
  rw [putSymbol, hct, h]
  dsimp only
  rw [putCode_finished (ht.trans hfin)]

/-- The turn of ENC that reads the byte that cannot be put. -/
theorem encByte_raises {b : Byte} {k : ErrKind} {tail : Bits} {s : State}
    (h : s.src.rest = bitsOfBytes [b] ++ tail) (hput : PutRaises b.toFin.castSucc k s) :
    encByte s = .raised (raise .encLoop k (atPos (s.src.pos + 8) s)) := by
  rw [encByte, (readUnit_byte h).1]
  exact hput (atPos (s.src.pos + 8) s) rfl rfl

/-- The turn of ENC at the end of the input, where the sentinel cannot be put. -/
theorem encByte_raises_at_end {k : ErrKind} {s : State} (h : s.src.rest.length < 8) (hput : PutRaises eofSym k s) :
    encByte s = .raised (raise .encLoop k (atPos s.src.bits.length s)) := by
  rw [encByte, readUnit_short h]
  dsimp only
  rw [hput (atPos s.src.bits.length s) rfl rfl]

/-! ### The command -/

/-- ENC ends with the error `k` and the cursor at `p`; the code table, the tree, the weights and the sink's finished flag
stay (R183, R258). -/
def EncRaises (k : ErrKind) (p : Nat) (s : State) : Prop :=
  ∃ u, exec .enc s = .next u ∧ u.err = k ∧ u.src = { s.src with pos := p } ∧
    u.ct = s.ct ∧ u.ctV = s.ctV ∧ u.tree = s.tree ∧ u.wt = s.wt ∧ u.snk.finished = s.snk.finished

section

variable {x : List Byte} {tail : Bits} {k : ErrKind} {s : State} (hidle : Idle s) (hnone : NoError s)
  (hctV : s.ctV = true) (hopen : s.snk.finished = false ∨ x = [])
  (hcodes : ∀ c ∈ x, (ctGet c.toFin.castSucc s.ct).isSome = true)

include hidle hnone hctV hopen hcodes

/-- What a turn of ENC raises after the bytes `x` are written, the command raises. On a finished sink `x` is empty. -/
theorem encRaises_of_turn {p : Nat} (hrest : s.src.rest = bitsOfBytes x ++ tail)
    (hturn : encByte (encoded x (beginCommand .enc s)) =
      .raised (raise .encLoop k (atPos p (encoded x (beginCommand .enc s))))) : EncRaises k p s := by
  have hturns : iterate encByte (x.length + 1) (beginCommand .enc s) =
      iterate encByte 1 (encoded x (beginCommand .enc s)) := by
    rcases hopen with hopen | rfl
    · exact iterate_encByte (s := beginCommand .enc s) 1 hrest hopen hcodes
    · rw [encoded_nil, List.length_nil]
  rw [iterate_raised hturn] at hturns
  have hloop := iterate_mono hturns (fun _ => nofun) _ (length_add_one_le_turns (s := beginCommand .enc s) hrest)
  have hrule : encRule (beginCommand .enc s) = _ := (if_pos hctV).trans hloop
  refine ⟨_, runCommand_raised (i := .enc) (rule := encRule) hidle (.inl hnone) hrule, ?_⟩
  simp [encoded, raise_wt]

theorem encRaises_at_byte {b : Byte} (hrest : s.src.rest = bitsOfBytes (x ++ [b]) ++ tail)
    (hput : PutRaises b.toFin.castSucc k s) : EncRaises k (s.src.pos + 8 * (x.length + 1)) s := by
  rw [bitsOfBytes_append, List.append_assoc] at hrest
  exact encRaises_of_turn hidle hnone hctV hopen hcodes hrest
    (encByte_raises (s := encoded x (beginCommand .enc s)) (encoded_rest hrest) hput)

theorem encRaises_at_end (hrest : s.src.rest = bitsOfBytes x ++ tail) (htail : tail.length < 8)
    (hput : PutRaises eofSym k s) : EncRaises k s.src.bits.length s :=
  encRaises_of_turn hidle hnone hctV hopen hcodes hrest
    (encByte_raises_at_end (s := encoded x (beginCommand .enc s))
      (by rwa [encoded_rest (s := beginCommand .enc s) hrest]) hput)

end

/-- Settles O40: ENC raises what its first symbol that cannot be put raises, a byte or, at the end, the sentinel. -/
theorem encRaisesBadCodeAndBadCommand : Obligations.EncRaisesBadCodeAndBadCommand := by
  intro s hidle hnone hctV
  refine ⟨fun before b tail hopen hrest hcodes hb => ?_, fun hopen hcodes heof => ?_, fun hfin => ?_⟩
  · exact encRaises_at_byte hidle hnone hctV hopen hcodes hrest (putRaises_badCode hb)
  · obtain ⟨tail, hrest, htail⟩ := eq_bitsOfBytes_bytesOfBits_append s.src.rest
    exact encRaises_at_end hidle hnone hctV (hopen.imp_right bytesOfBits_short) hcodes hrest htail
      (putRaises_badCode heof)
  · rw [← hfin]
    have hnocodes : ∀ c ∈ ([] : List Byte), (ctGet c.toFin.castSucc s.ct).isSome = true := nofun
    refine ⟨fun b tail code hrest hb hne => ?_, fun code hshort heof hne => ?_⟩
    · exact encRaises_at_byte hidle hnone hctV (.inr rfl) hnocodes hrest (putRaises_badCommand hfin hb hne)
    · exact encRaises_at_end hidle hnone hctV (.inr rfl) hnocodes rfl hshort (putRaises_badCommand hfin heof hne)

end Sys2Proof.Proofs
end

section
/-! SUPPORT. DEC as walks down the tree (R191 to R193): along a code, after which the byte of its leaf is written (R200)
or the sentinel ends the loop (R195); and the errors of the turn that follows the codes (R194, R196, R197). -/

namespace Sys2Proof.Proofs

open Sys2Proof.Machine Sys2Proof.Laws

/-! ### One bit -/

/-- The bit that stands at the cursor is read (R61). -/
theorem readUnit_bit {b : Bool} {tail : Bits} {s : State} (h : s.src.rest = b :: tail) :
    readUnit 1 s = (some (.ofBool b), atPos (s.src.pos + 1) s) ∧ (atPos (s.src.pos + 1) s).src.rest = tail :=
  readUnit_next (by decide) (.ofBool b) (h.trans (by cases b <;> rfl))

/-- At an internal root a bit leads to a child of the node the cursor is on (R193). -/
theorem decBit_node {w : Nat} {l r n : Tree} {b : Bool} {tail : Bits} {s : State} (ht : s.tree = some (.node w l r))
    (hcur : s.cur = some n) (h : s.src.rest = b :: tail) :
    decBit s = landOn (.node w l r) (n.child b) (atPos (s.src.pos + 1) s) := by
  have hb : (BitVec.ofBool b == 1#1) = b := by cases b <;> rfl
  simp only [decBit, ht, (readUnit_bit h).1, hcur, Option.getD_some, hb]

/-- At a root that is a leaf a bit `0` is its code, and a bit `1` is no code (R152, R194). -/
theorem decBit_leaf {sym : Symbol} {w : Nat} {b : Bool} {tail : Bits} {s : State} (ht : s.tree = some (.leaf sym w))
    (h : s.src.rest = b :: tail) : decBit s =
      if b then .raised (raise .decLoop .badCode (atPos (s.src.pos + 1) s))
      else landOn (.leaf sym w) (.leaf sym w) (atPos (s.src.pos + 1) s) := by
  rw [decBit, ht]
  dsimp only
  rw [(readUnit_bit h).1]
  cases b <;> rfl

/-- With no bit left DEC raises TruncatedBody (R197). -/
theorem decBit_eos {root : Tree} {s : State} (ht : s.tree = some root) (h : s.src.rest = []) :
    decBit s = .raised (raise .decLoop .truncatedBody (atPos s.src.bits.length s)) := by
  rw [decBit, ht, readUnit_short (by rw [h]; decide)]

/-! ### Where the walk lands -/

/-- `s` with DEC's cursor on the node `n`. -/
def onNode (n : Tree) (s : State) : State := { s with cur := some n }

/-- Landing overwrites the cursor. -/
theorem landOn_onNode (root n n' : Tree) (s : State) : landOn root n (onNode n' s) = landOn root n s := by
  cases n <;> rfl

/-- On a node with a path below it the walk goes on (R193). -/
theorem landOn_node {n x : Tree} {b : Bool} {p : Bits} (root : Tree) (s : State) (h : n.atPath (b :: p) = some x) :
    landOn root n s = .more (onNode n s) := by
  cases n with
  | leaf sym w => cases h
  | node w l r => rfl

/-- On the sentinel's leaf DEC ends (R195). -/
theorem landOn_eofSym (root : Tree) (w : Nat) (s : State) :
    landOn root (.leaf eofSym w) s = .done { s with dstate := .done, cur := none } := by
  rw [landOn, if_pos rfl]

/-- On an open sink the byte of a leaf is written, and the walk begins again at the root (R196, R200). -/
theorem landOn_open {sym : Symbol} (root : Tree) (w : Nat) {s : State} (hsym : sym ≠ eofSym)
    (hopen : s.snk.finished = false) : landOn root (.leaf sym w) s =
      .more (decStart root { s with snk := { s.snk with bits := s.snk.bits ++ bitsOf 8 sym.val } }) := by
  rw [landOn, if_neg hsym, writeUnit_open 8 _ (by exact hopen)]
  rfl

/-- On a finished sink the byte of a leaf is BadCommand (R196, R245). -/
theorem landOn_finished {sym : Symbol} (root : Tree) (w : Nat) {s : State} (hsym : sym ≠ eofSym)
    (hfin : s.snk.finished = true) : landOn root (.leaf sym w) s =
      .raised (raise .decLoop .badCommand { s with dstate := .emitted, cur := some (.leaf sym w) }) := by
  rw [landOn, if_neg hsym, writeUnit_finished 8 _ (by exact hfin)]

/-! ### Along a path -/

theorem atPath_child {n x : Tree} {b : Bool} {p : Bits} (h : n.atPath (b :: p) = some x) :
    (n.child b).atPath p = some x := by
  cases n with
  | leaf sym w => cases h
  | node w l r => cases b <;> exact h

/-- DEC's turns along a path land on the node at its end (R193). -/
theorem iterate_decBit_path {w : Nat} {l r n x : Tree} {b : Bool} {p tail : Bits} {s : State}
    (ht : s.tree = some (.node w l r)) (hcur : s.cur = some n) (hx : n.atPath (b :: p) = some x)
    (h : s.src.rest = b :: p ++ tail) :
    iterate decBit (b :: p).length s = landOn (.node w l r) x (atPos (s.src.pos + (b :: p).length) s) := by
  induction p generalizing b n s with
  | nil =>
    have hchild := atPath_child hx
    rw [atPath_nil] at hchild
    cases hchild
    exact (iterate_one decBit s).trans (decBit_node ht hcur h)
  | cons b' p ih =>
    have hbit := decBit_node ht hcur h
    rw [landOn_node _ _ (atPath_child hx)] at hbit
    calc iterate decBit (b :: b' :: p).length s
        = iterate decBit (b' :: p).length (onNode (n.child b) (atPos (s.src.pos + 1) s)) := iterate_more hbit _
      _ = landOn (.node w l r) x (onNode (n.child b) (atPos (s.src.pos + 1 + (b' :: p).length) s)) :=
        ih ht rfl (atPath_child hx) (readUnit_bit h).2
      _ = landOn (.node w l r) x (atPos (s.src.pos + (b :: b' :: p).length) s) := by
        rw [landOn_onNode, Nat.add_right_comm]
        rfl

/-- DEC's turns along a code of the tree land on a leaf of its symbol (R152, R193, R194). -/
theorem iterate_decBit_code {root : Tree} {sym : Symbol} {p tail : Bits} {s : State} (hcode : root.IsCode sym p)
    (ht : s.tree = some root) (hcur : s.cur = some root) (h : s.src.rest = p ++ tail) :
    ∃ w, iterate decBit p.length s = landOn root (.leaf sym w) (atPos (s.src.pos + p.length) s) := by
  cases root with
  | leaf sym' w =>
    obtain ⟨rfl, rfl⟩ := hcode
    exact ⟨w, (iterate_one decBit s).trans (decBit_leaf ht h)⟩
  | node v l r =>
    obtain ⟨w, hw⟩ := hcode
    cases p with
    | nil => cases hw
    | cons b p => exact ⟨w, iterate_decBit_path ht hcur hw h⟩

/-- After a part of a code DEC's cursor is on the node it leads to (R193). -/
theorem iterate_decBit_part {root : Tree} {part : Bits} {s : State} (ht : s.tree = some root) (hcur : s.cur = some root)
    (hpart : part = [] ∨ ∃ w l r, root.atPath part = some (.node w l r)) (h : s.src.rest = part) :
    ∃ n, iterate decBit part.length s = .more (onNode n (atPos (s.src.pos + part.length) s)) := by
  cases part with
  | nil => exact ⟨root, by rw [onNode, ← hcur]; rfl⟩
  | cons b p =>
    obtain ⟨w, l, r, hx⟩ := hpart.resolve_left (List.cons_ne_nil _ _)
    cases root with
    | leaf sym v => cases hx
    | node v l' r' => exact ⟨_, iterate_decBit_path ht hcur hx (by rw [h, List.append_nil])⟩

/-! ### Codes, one after another -/

/-- DEC at the root after it has read the codes `codes` and written the bytes of their symbols (R191, R200). -/
def decoded (root : Tree) (codes : List (Symbol × Bits)) (s : State) : State :=
  decStart root { atPos (s.src.pos + (codes.flatMap Prod.snd).length) s with
    snk := { s.snk with bits := s.snk.bits ++ codes.flatMap fun c => bitsOf 8 c.1.val } }

theorem decoded_nil (root : Tree) (s : State) : decoded root [] s = decStart root s := by
  simp [decoded]

theorem decoded_decoded (root : Tree) (codes more : List (Symbol × Bits)) (s : State) :
    decoded root more (decoded root codes s) = decoded root (codes ++ more) s := by
  simp only [decoded, decStart, List.flatMap_append, List.length_append, Nat.add_assoc, List.append_assoc]

/-- The bits after the codes read. -/
theorem decoded_rest {root : Tree} {codes : List (Symbol × Bits)} {tail : Bits} {s : State}
    (h : s.src.rest = codes.flatMap Prod.snd ++ tail) : (decoded root codes s).src.rest = tail := by
  rw [decoded, decStart, rest_advance, h, List.drop_left]

/-- DEC's turns along the code of a byte write it to an open sink (R200). -/
theorem iterate_decBit_symbol {root : Tree} {c : Symbol × Bits} {tail : Bits} {s : State} (hsym : c.1 ≠ eofSym)
    (hcode : root.IsCode c.1 c.2) (ht : s.tree = some root) (hopen : s.snk.finished = false)
    (h : s.src.rest = c.2 ++ tail) : iterate decBit c.2.length (decStart root s) = .more (decoded root [c] s) := by
  obtain ⟨w, hw⟩ := iterate_decBit_code (s := decStart root s) hcode ht rfl h
  rw [hw, landOn_open root w hsym (by exact hopen), decoded, List.flatMap_singleton, List.flatMap_singleton]
  rfl

/-- DEC's turns read the codes at the cursor and write their symbols' bytes; none, on a finished sink (R196, R200). -/
theorem iterate_decBit_codes (n : Nat) {root : Tree} {codes : List (Symbol × Bits)} {tail : Bits} {s : State}
    (ht : s.tree = some root) (hopen : s.snk.finished = false ∨ codes = [])
    (hcodes : ∀ c ∈ codes, c.1 ≠ eofSym ∧ root.IsCode c.1 c.2) (h : s.src.rest = codes.flatMap Prod.snd ++ tail) :
    iterate decBit ((codes.flatMap Prod.snd).length + n) (decStart root s) =
      iterate decBit n (decoded root codes s) := by
  induction codes generalizing s with
  | nil => rw [decoded_nil, List.flatMap_nil, List.length_nil, Nat.zero_add]
  | cons c codes ih =>
    have hopen : s.snk.finished = false := hopen.resolve_right (List.cons_ne_nil _ _)
    obtain ⟨hsym, hcode⟩ := hcodes c (.head _)
    rw [List.flatMap_cons, List.append_assoc] at h
    have hfirst := iterate_decBit_symbol hsym hcode ht hopen h
    have hrest : (decoded root [c] s).src.rest = codes.flatMap Prod.snd ++ tail :=
      decoded_rest (by rwa [List.flatMap_singleton])
    have hothers := ih (s := decoded root [c] s) ht (.inl hopen) (fun d hd => hcodes d (.tail _ hd)) hrest
    rw [List.flatMap_cons, List.length_append, Nat.add_assoc, iterate_add_of_more hfirst]
    rw [decoded_decoded, List.singleton_append] at hothers
    exact hothers

/-! ### The command -/

section

variable {root : Tree} {codes : List (Symbol × Bits)} {tail : Bits} {s : State}
  (ht : s.tree = some root) (hopen : s.snk.finished = false ∨ codes = [])
  (hcodes : ∀ c ∈ codes, c.1 ≠ eofSym ∧ root.IsCode c.1 c.2)

include ht hopen hcodes

/-- How DEC's turns end after the codes, so does DEC, for the bits left bound its turns (R287). -/
theorem decRule_of_turns {m : Nat} {p : Progress} (h : s.src.rest = codes.flatMap Prod.snd ++ tail)
    (hlast : iterate decBit m (decoded root codes s) = p) (hends : ∀ u, p ≠ .more u) (hm : m ≤ tail.length + 1) :
    decRule s = p := by
  have hturns := (iterate_decBit_codes m ht hopen hcodes h).trans hlast
  have hbound : (codes.flatMap Prod.snd).length + m ≤ s.src.left + 1 := by
    rw [← left_eq_length_rest, h, List.length_append]
    omega
  rw [decRule, ht]
  exact iterate_mono hturns hends _ hbound

/-- DEC writes the bytes of the codes at the cursor and stops after the sentinel's code (R195, R199, R200). -/
theorem decRule_decodes {last : Bits} (hlast : root.IsCode eofSym last)
    (h : s.src.rest = codes.flatMap Prod.snd ++ last ++ tail) :
    decRule s = .done { s with
      dstate := .done, cur := none
      src := { s.src with pos := s.src.pos + (codes.flatMap Prod.snd ++ last).length }
      snk := { s.snk with bits := s.snk.bits ++ codes.flatMap fun c => bitsOf 8 c.1.val } } := by
  rw [List.append_assoc] at h
  obtain ⟨w, hturns⟩ := iterate_decBit_code (s := decoded root codes s) hlast ht rfl (decoded_rest h)
  rw [landOn_eofSym] at hturns
  rw [decRule_of_turns ht hopen hcodes h hturns (fun _ => nofun) (by rw [List.length_append]; omega),
    List.length_append, ← Nat.add_assoc]
  rfl

end

/-- Settles O41: DEC's rule decodes the body, and the frame of the command adds the flags. -/
theorem decDecodesTheBody : Obligations.DecDecodesTheBody := by
  intro s root codes last tail hidle hnone ht hopen hcodes hlast h
  have hrule := decRule_decodes (s := beginCommand .dec s) ht hopen hcodes hlast h
  exact (runCommand_done (i := .dec) (rule := decRule) hidle (.inl hnone) hrule).trans rfl

/-- Settles O42: after the codes and a part of one the turns meet the end of the source. -/
theorem decRaisesTruncatedBody : Obligations.DecRaisesTruncatedBody := by
  intro s root codes part hidle hnone ht hopen hcodes hpart h
  have hrest : (decoded root codes (beginCommand .dec s)).src.rest = part := decoded_rest h
  obtain ⟨n, hturns⟩ := iterate_decBit_part (s := decoded root codes (beginCommand .dec s)) ht rfl hpart hrest
  have heos := decBit_eos (s := onNode n (atPos (_ + part.length) (decoded root codes (beginCommand .dec s)))) ht
    ((rest_advance _ _).trans (by rw [hrest, List.drop_length]))
  have hlast := (iterate_add_of_more hturns 1).trans (iterate_raised heos 0)
  have hrule := decRule_of_turns (s := beginCommand .dec s) ht hopen hcodes h hlast (fun _ => nofun) le_rfl
  refine ⟨_, runCommand_raised (i := .dec) (rule := decRule) hidle (.inl hnone) hrule, ?_⟩
  simp [decoded, decStart, onNode, raise_wt]

/-- The codes of `n` symbols under a root that is a leaf are `n` bits `0` (R152). -/
theorem flatMap_replicate_leaf (sym : Symbol) (n : Nat) :
    (List.replicate n (sym, [false])).flatMap Prod.snd = List.replicate n false := by
  rw [List.flatMap_replicate, List.flatten_replicate_singleton]

/-- A bit 1 at a root that is a leaf, after the codes of `n` bytes, is BadCode (R194). -/
theorem decRule_badCode {sym : Symbol} {w n : Nat} {tail : Bits} {s : State} (ht : s.tree = some (.leaf sym w))
    (hopen : s.snk.finished = false ∨ n = 0) (hsym : sym = eofSym → n = 0)
    (h : s.src.rest = List.replicate n false ++ true :: tail) :
    ∃ t, decRule s = .raised (raise .decLoop .badCode t) ∧ t.tree = s.tree ∧ t.snk.finished = s.snk.finished ∧
      t.src = { s.src with pos := s.src.pos + n + 1 } := by
  rw [← flatMap_replicate_leaf sym] at h
  have hopen : s.snk.finished = false ∨ List.replicate n (sym, [false]) = [] :=
    hopen.imp_right fun hn => by rw [hn, List.replicate_zero]
  have hcodes : ∀ c ∈ List.replicate n (sym, [false]), c.1 ≠ eofSym ∧ (Machine.Tree.leaf sym w).IsCode c.1 c.2 := by
    intro c hc
    obtain ⟨hn, rfl⟩ := List.mem_replicate.mp hc
    exact ⟨fun e => hn (hsym e), rfl, rfl⟩
  have hturn := decBit_leaf (s := decoded (.leaf sym w) (List.replicate n (sym, [false])) s) ht (decoded_rest h)
  have hlast := (iterate_one decBit _).trans hturn
  refine ⟨_, decRule_of_turns ht hopen hcodes h hlast (fun _ => nofun) (Nat.le_add_left _ _), rfl, rfl, ?_⟩
  rw [decoded, flatMap_replicate_leaf, List.length_replicate]
  rfl

/-- The first code on a finished sink lands on a leaf whose byte is refused (R196, R245). -/
theorem decRule_badCommand {root : Tree} {sym : Symbol} {p tail : Bits} {s : State} (ht : s.tree = some root)
    (hfin : s.snk.finished = true) (hsym : sym ≠ eofSym) (hcode : root.IsCode sym p) (h : s.src.rest = p ++ tail) :
    ∃ t, decRule s = .raised (raise .decLoop .badCommand t) ∧ t.tree = s.tree ∧ t.snk.finished = s.snk.finished ∧
      t.src = { s.src with pos := s.src.pos + p.length } := by
  obtain ⟨w, hturns⟩ := iterate_decBit_code (s := decoded root [] s) hcode ht rfl (decoded_rest h)
  rw [landOn_finished root w hsym (by exact hfin)] at hturns
  exact ⟨_, decRule_of_turns (codes := []) (tail := p ++ tail) ht (.inr rfl) nofun h hturns
    (fun _ => nofun) (by rw [List.length_append]; omega), rfl, rfl, rfl⟩

/-- Settles O43: the rule raises either error after the bits read, and the laws of `raise` give each field. -/
theorem decRaisesBadCodeAndBadCommand : Obligations.DecRaisesBadCodeAndBadCommand := by
  refine fun s hidle hnone => ⟨fun sym w n tail ht hopen hsym h => ?_, fun root sym p tail ht hfin hsym hcode h => ?_⟩
  · obtain ⟨t, hrule, htree, hsnk, hsrc⟩ := decRule_badCode (s := beginCommand .dec s) ht hopen hsym h
    refine ⟨_, runCommand_raised (i := .dec) (rule := decRule) hidle (.inl hnone) hrule, ?_⟩
    simp [htree, hsnk, hsrc]
  · obtain ⟨t, hrule, htree, hsnk, hsrc⟩ := decRule_badCommand (s := beginCommand .dec s) ht hfin hsym hcode h
    refine ⟨_, runCommand_raised (i := .dec) (rule := decRule) hidle (.inl hnone) hrule, ?_⟩
    simp [htree, hsnk, hsrc, hfin]

end Sys2Proof.Proofs
end

section
/-! SUPPORT. The control commands NOP, CLR, WRM and RDM (R210 to R215). -/

namespace Sys2Proof.Proofs

open Sys2Proof.Machine Sys2Proof.Laws

/-- Settles O18: NOP's rule leaves the state alone, in the frame of R220. -/
theorem nopChangesNothing : Obligations.NopChangesNothing :=
  fun _ hidle => runCommand_done (i := .nop) (rule := nopRule) hidle (.inr rfl) rfl

/-- Settles O19: CLR's rule is the way back from an error, in the frame of R220. -/
theorem clrEndsTheCallAndClearsTheError : Obligations.ClrEndsTheCallAndClearsTheError :=
  fun _ hidle => runCommand_done (i := .clr) (rule := clrRule) hidle (.inr rfl) rfl

theorem wrmRule_finished {s : State} (h : s.snk.finished = true) :
    wrmRule s = .raised (raise .wrm .badCommand s) := by
  rw [wrmRule, writeUnit_finished 32 _ h]

/-- Settles O20: an open sink takes the magic, a finished one refuses it. -/
theorem wrmWritesTheMagic : Obligations.WrmWritesTheMagic := by
  refine fun s hidle hnone => ⟨fun hopen => ?_, fun hfin => ?_⟩
  · rw [← hopen]
    exact runCommand_done (i := .wrm) (rule := wrmRule) hidle (.inl hnone) (wrmRule_open (s := beginCommand .wrm s) hopen)
  · have hrule := wrmRule_finished (s := beginCommand .wrm s) hfin
    exact ⟨_, runCommand_raised (i := .wrm) (rule := wrmRule) hidle (.inl hnone) hrule, raise_err _ _ _⟩

/-- The magic at the cursor is read and accepted (R214). -/
theorem rdmRule_magic {s : State} {tail : Bits} (h : s.src.rest = bitsOf 32 s.cfg.magic.toNat ++ tail) :
    rdmRule s = .done (atPos (s.src.pos + 32) s) := by
  rw [rdmRule, (readUnit_next (by decide) s.cfg.magic h).1]
  exact if_pos rfl

/-- Other bits, and fewer than 32, are BadMagic after the one read (R214, R215). -/
theorem rdmRule_badMagic {s : State} (h : s.src.rest.take 32 ≠ bitsOf 32 s.cfg.magic.toNat) :
    rdmRule s = .raised (raise .rdm .badMagic (readUnit 32 s).2) := by
  rcases readUnit_cases 32 s with ⟨hlen, e⟩ | ⟨-, e⟩
  · have hbits : (s.src.rest.take 32).length = 32 := by
      rw [List.length_take, left_eq_length_rest, Source.left]
      omega
    have hne : BitVec.ofNat 32 (val (s.src.rest.take 32)) ≠ s.cfg.magic := fun hm =>
      h (by rw [← hm, bitsOf_ofNat_val hbits])
    rw [rdmRule, e]
    exact if_neg hne
  · rw [rdmRule, e]

/-- Where a read of `n` bits leaves the source (R61). -/
theorem read_snd (n : Nat) (s : Source) :
    (s.read n).2 = { s with pos := if s.pos + n ≤ s.bits.length then s.pos + n else s.bits.length } := by
  by_cases h : s.pos + n ≤ s.bits.length
  · rw [read_some h, if_pos h]
  · rw [read_eos h, if_neg h]

/-- Settles O21: the magic is accepted, and the laws of `raise` give each field after the one read otherwise. -/
theorem rdmChecksTheMagic : Obligations.RdmChecksTheMagic := by
  refine fun s hidle hnone => ⟨fun tail h => ?_, fun h => ?_⟩
  · have hrule := rdmRule_magic (s := beginCommand .rdm s) h
    exact runCommand_done (i := .rdm) (rule := rdmRule) hidle (.inl hnone) hrule
  · have hrule := rdmRule_badMagic (s := beginCommand .rdm s) h
    refine ⟨_, runCommand_raised (i := .rdm) (rule := rdmRule) hidle (.inl hnone) hrule, ?_⟩
    simp [raise_wt, readUnit, read_snd]

end Sys2Proof.Proofs
end

section
/-! SUPPORT. CMP and DCM against their expansions by component commands (R233). Both run the same lines; they differ in the
frames of R220, for an expansion writes `CMD`, `BUSY` and `DONE` at every one of its commands. So the proof turns on one fact:
no line reads these registers, and every line commutes with writing them (`onFrame`). -/

namespace Sys2Proof.Proofs

open Sys2Proof.Machine Sys2Proof.Laws

/-- What the frame of a command writes: `CMD`, `BUSY` and `DONE` (R220). -/
structure FrameRegs where
  cmd : Byte
  busy : Bool
  done : Bool

/-- The state with other values in the registers of the frame. -/
def onFrame (f : FrameRegs) (s : State) : State := { s with cmd := f.cmd, busy := f.busy, done := f.done }

/-! ### The lines do not read the frame -/

/-- An answer does not depend on the registers of the frame, and leaves them alone. -/
def FrameBlind (rule : State → Progress) : Prop := ∀ f s, rule (onFrame f s) = mapState (onFrame f) (rule s)

section

variable (f : FrameRegs) (s : State)

@[simp] theorem onFrame_wt : (onFrame f s).wt = s.wt := rfl
@[simp] theorem onFrame_tree : (onFrame f s).tree = s.tree := rfl
@[simp] theorem onFrame_ct : (onFrame f s).ct = s.ct := rfl
@[simp] theorem onFrame_ctV : (onFrame f s).ctV = s.ctV := rfl
@[simp] theorem onFrame_err : (onFrame f s).err = s.err := rfl
@[simp] theorem onFrame_snk : (onFrame f s).snk = s.snk := rfl
@[simp] theorem onFrame_pq : (onFrame f s).pq = s.pq := rfl
@[simp] theorem onFrame_stack : (onFrame f s).stack = s.stack := rfl
@[simp] theorem onFrame_nodes : (onFrame f s).nodes = s.nodes := rfl
@[simp] theorem onFrame_cfg : (onFrame f s).cfg = s.cfg := rfl

theorem readUnit_onFrame (n : Nat) : readUnit n (onFrame f s) = ((readUnit n s).1, onFrame f (readUnit n s).2) := rfl

theorem writeUnit_onFrame (n v : Nat) : writeUnit n v (onFrame f s) = (writeUnit n v s).map (onFrame f) := by
  rw [writeUnit, writeUnit, onFrame_snk]
  cases s.snk.write n v <;> rfl

theorem raise_onFrame (c : Component) (k : ErrKind) : raise c k (onFrame f s) = onFrame f (raise c k s) := by
  have hweights : spoilWeights c (recordError c k (onFrame f s)) = onFrame f (spoilWeights c (recordError c k s)) := by
    unfold spoilWeights
    split <;> rfl
  rw [raise, raise, hweights]
  simp only [spoilOutput, onFrame_snk, apply_ite (onFrame f)]
  rfl

theorem emit_onFrame (t : Tree) : emit t (onFrame f s) = (emit t s).map (onFrame f) := by
  rcases Bool.eq_false_or_eq_true s.snk.finished with h | h
  · rw [emit_finished t h, emit_finished t (by exact h)]
    rfl
  · rw [emit_open t s h, emit_open t _ (by exact h)]
    rfl

end

theorem genRule_blind : FrameBlind genRule := by
  intro f s
  simp only [genRule, onFrame_tree]
  cases s.tree <;> rfl

theorem wrmRule_blind : FrameBlind wrmRule := by
  intro f s
  simp only [wrmRule, writeUnit_onFrame, onFrame_cfg, raise_onFrame]
  cases writeUnit 32 s.cfg.magic.toNat s <;> rfl

theorem wrhRule_blind : FrameBlind wrhRule := by
  intro f s
  simp only [wrhRule, emit_onFrame, onFrame_tree, raise_onFrame]
  rcases s.tree with _ | t
  · rfl
  · dsimp only
    cases emit t s <;> rfl

theorem rdmRule_blind : FrameBlind rdmRule := by
  intro f s
  simp only [rdmRule, readUnit_onFrame]
  rcases readUnit 32 s with ⟨_ | m, t⟩
  · simp only [raise_onFrame, mapState]
  · simp only [raise_onFrame, onFrame_cfg]
    split <;> rfl

theorem cntByte_blind : FrameBlind cntByte := by
  intro f s
  simp only [cntByte, readUnit_onFrame]
  rcases readUnit 8 s with ⟨_ | v, t⟩
  · rfl
  · simp only [raise_onFrame, onFrame_wt, onFrame_cfg]
    split <;> rfl

theorem bldJoin_blind : FrameBlind bldJoin := by
  intro f s
  simp only [bldJoin, onFrame_pq, onFrame_cfg, raise_onFrame]
  rcases extractMin s.pq with _ | ⟨a, rest⟩
  · rfl
  · dsimp only
    rcases extractMin rest with _ | ⟨b, rest'⟩
    · rfl
    · dsimp only
      split <;> rfl

theorem putCode_onFrame (code : Bits) (f : FrameRegs) (s : State) :
    putCode code (onFrame f s) = (putCode code s).map (onFrame f) := by
  induction code generalizing s with
  | nil => rfl
  | cons b bs ih =>
    simp only [putCode, writeUnit_onFrame]
    cases writeUnit 1 b.toNat s with
    | none => rfl
    | some t => exact ih t

theorem putSymbol_blind (sym : Symbol) : FrameBlind (putSymbol sym) := by
  intro f s
  simp only [putSymbol, onFrame_ct, putCode_onFrame, raise_onFrame]
  rcases ctGet sym s.ct with _ | code
  · rfl
  · dsimp only
    cases putCode code s <;> rfl

theorem encByte_blind : FrameBlind encByte := by
  intro f s
  simp only [encByte, readUnit_onFrame]
  rcases readUnit 8 s with ⟨_ | v, t⟩
  · simp only [putSymbol_blind eofSym f t]
    cases putSymbol eofSym t <;> rfl
  · exact putSymbol_blind _ f t

theorem landOn_blind (root n : Tree) : FrameBlind (landOn root n) := by
  intro f s
  cases n with
  | node w l r => rfl
  | leaf sym w =>
    by_cases hsym : sym = eofSym
    · rw [hsym, landOn_eofSym, landOn_eofSym]
      rfl
    · rcases Bool.eq_false_or_eq_true s.snk.finished with h | h
      · rw [landOn_finished root w hsym h, landOn_finished root w hsym (by exact h)]
        exact congrArg Progress.raised (raise_onFrame f { s with dstate := .emitted, cur := some (.leaf sym w) } _ _)
      · rw [landOn_open root w hsym h, landOn_open root w hsym (by exact h)]
        rfl

theorem decBit_blind : FrameBlind decBit := by
  intro f s
  simp only [decBit, readUnit_onFrame, onFrame_tree, raise_onFrame]
  rcases s.tree with _ | root
  · rfl
  · rcases readUnit 1 s with ⟨_ | b, t⟩
    · simp only [raise_onFrame, mapState]
    · cases root with
      | leaf sym w =>
        simp only [raise_onFrame, landOn_blind _ _ f t]
        split <;> rfl
      | node w l r => exact landOn_blind _ _ f t

theorem completeSubtree_blind (t : Tree) (k : List Frame) : FrameBlind (completeSubtree t k) := by
  intro f s
  induction k generalizing t with
  | nil => rfl
  | cons top k ih =>
    cases top with
    | left => rfl
    | right l => exact ih (.node 0 l t)

theorem tokenEffect_blind (i : Instr) : FrameBlind (tokenEffect i) := by
  intro f s
  cases i
  case hdrL field =>
    simp only [tokenEffect, tokenLeaf, raise_onFrame, onFrame_stack]
    split
    · exact completeSubtree_blind _ _ f s
    · rfl
  all_goals rfl

theorem fetchToken_onFrame (f : FrameRegs) (s : State) :
    fetchToken (onFrame f s) = ((fetchToken s).map (Prod.map id (onFrame f))).mapError (onFrame f) := by
  simp only [fetchToken, readUnit_onFrame]
  rcases readUnit 1 s with ⟨_ | tag, t⟩
  · exact congrArg Except.error (raise_onFrame f t _ _)
  · have hcount : { onFrame f t with nodes := t.nodes + 1 } = onFrame f { t with nodes := t.nodes + 1 } := rfl
    simp only [raise_onFrame, onFrame_nodes, hcount, readUnit_onFrame]
    split
    · rfl
    · split
      · rfl
      · rcases readUnit 9 { t with nodes := t.nodes + 1 } with ⟨_ | field, u⟩
        · exact congrArg Except.error (raise_onFrame f u _ _)
        · rfl

theorem headerToken_blind : FrameBlind headerToken := by
  intro f s
  rw [headerToken, headerToken, fetchToken_onFrame]
  rcases fetchToken s with t | ⟨i, t⟩
  · rfl
  · exact tokenEffect_blind i f t

/-! ### A line -/

theorem iterate_blind {body : State → Progress} (h : FrameBlind body) (n : Nat) : FrameBlind (iterate body n) := by
  intro f s
  induction n generalizing s with
  | zero => rfl
  | succ n ih =>
    rw [iterate, iterate, h]
    cases body s with
    | more t => exact ih t
    | done t => rfl
    | raised t => rfl

/-- No line reads or writes the registers of the frame. -/
theorem lineRule_blind (c : Component) : FrameBlind (lineRule c) := by
  intro f s
  cases c with
  | resetCall => rfl
  | clr => rfl
  | illegal => rfl
  | gen => exact genRule_blind f s
  | wrm => exact wrmRule_blind f s
  | wrh => exact wrhRule_blind f s
  | rdm => exact rdmRule_blind f s
  | rwd => rfl
  | fin => rfl
  | cnt => exact iterate_blind cntByte_blind _ f (cntStart s)
  | cntLoop => exact iterate_blind cntByte_blind _ f s
  | bld => exact iterate_blind bldJoin_blind _ f (bldStart s)
  | bldLoop => exact iterate_blind bldJoin_blind _ f s
  | rdh => exact iterate_blind headerToken_blind _ f (rdhStart s)
  | header => exact iterate_blind headerToken_blind _ f s
  | encLoop => exact iterate_blind encByte_blind _ f s
  | decLoop => exact iterate_blind decBit_blind _ f s
  | enc =>
    rw [lineRule, lineRule, encRule, encRule, onFrame_ctV]
    split
    · exact iterate_blind encByte_blind _ f s
    · rfl
  | dec =>
    simp only [lineRule, decRule, onFrame_tree]
    rcases s.tree with _ | root
    · rfl
    · exact iterate_blind decBit_blind _ f (decStart root s)

theorem runLines_blind (cs : List Component) : FrameBlind (runLines cs) := by
  intro f s
  induction cs generalizing s with
  | nil => rfl
  | cons c cs ih =>
    rw [runLines, runLines, onFrame_err, lineRule_blind c f s]
    split
    · exact ih s
    · cases lineRule c s with
      | more t => rfl
      | done t => exact ih t
      | raised t => exact ih t

/-! ### A command, and a list of commands -/

theorem stateOf_mapState (g : State → State) (p : Progress) : stateOf (mapState g p) = g (stateOf p) := by
  cases p <;> rfl

/-- The lines of two lists run one after the other. -/
theorem runLines_append (cs ds : List Component) (s : State) :
    runLines (cs ++ ds) s = runLines ds (stateOf (runLines cs s)) := by
  induction cs generalizing s with
  | nil => rfl
  | cons c cs ih =>
    rw [List.cons_append, runLines, runLines]
    split
    · exact ih s
    · cases h : lineRule c s with
      | more t => exact absurd h (lineRule_ends c s t)
      | done t => exact ih t
      | raised t => exact ih t

/-- The registers of the frame after a command (R220). -/
def framedBy (w : Byte) : FrameRegs := { cmd := w, busy := false, done := true }

/-- A command that is not ignored runs its lines, and its frame is written over what they leave (R220). -/
theorem exec_of_lines {i : Instr} (hfmt : i.format = .cmd) {s : State} (hidle : Idle s)
    (h : s.err = .none ∨ runsUnderError i = true) :
    exec i s = .next (onFrame (framedBy i.word) (stateOf (runLines (linesOf i) s))) := by
  have hbegin : beginCommand i s = onFrame { cmd := i.word, busy := true, done := false } s := rfl
  rw [exec_eq_runLines hfmt, runCommand_runs hidle h, outcomeOf_ended (runLines_ends _ _), hbegin, runLines_blind,
    stateOf_mapState]
  rfl

/-- The command runs one line, which an error skips as it does the command (R220, R249). -/
abbrev OneLine (i : Instr) : Prop :=
  i.format = .cmd ∧ (linesOf i).map Component.runsUnderError = [runsUnderError i]

/-- A command of one line, ignored after an error or not, leaves what its line leaves (R220, R249). -/
theorem exec_oneLine {i : Instr} (hi : OneLine i) {s : State} (hidle : Idle s) :
    exec i s = .next (onFrame (framedBy i.word) (stateOf (runLines (linesOf i) s))) := by
  obtain ⟨hfmt, hline⟩ := hi
  obtain ⟨c, hlines, herr⟩ := List.map_eq_singleton_iff.mp hline
  rcases runLines_cons c [] s with ⟨⟨hne, hskip⟩, e⟩ | ⟨hruns, -⟩
  · rw [exec_eq_runLines hfmt, runCommand_ignored hidle hne (herr.symm.trans hskip), hlines, e]
    rfl
  · exact exec_of_lines hfmt hidle (by rwa [← herr])

/-- A list of such commands leaves what their lines leave, one after another. -/
theorem runAll_oneLine {is : List Instr} (his : ∀ i ∈ is, OneLine i) {s : State} (hidle : Idle s)
    (hdone : s.done = true) :
    ∃ w, runAll is s = .next (onFrame (framedBy w) (stateOf (runLines (is.flatMap linesOf) s))) := by
  induction is generalizing s with
  | nil =>
    refine ⟨s.cmd, congrArg Host.Outcome.next ?_⟩
    rw [framedBy, ← hidle, ← hdone]
    rfl
  | cons i is ih =>
    have hexec := exec_oneLine (his i (.head _)) hidle
    obtain ⟨w, hw⟩ := ih (fun j hj => his j (.tail _ hj)) (s := onFrame (framedBy i.word) _) rfl rfl
    refine ⟨w, ?_⟩
    rw [runAll, hexec, List.flatMap_cons, runLines_append]
    dsimp only
    rw [hw, runLines_blind, stateOf_mapState]
    rfl

/-- CLR, which without an error is ResetCall, and the commands of the lines after it leave what a command of all these lines
leaves, but for the word in `CMD` (R211, R233). -/
theorem exec_eq_runAll_lines {m : Instr} {is : List Instr} (hfmt : m.format = .cmd)
    (hm : linesOf m = .resetCall :: is.flatMap linesOf) (his : ∀ i ∈ is, OneLine i) {s : State} (hidle : Idle s)
    (hnone : NoError s) :
    ∃ t, runAll (.clr :: is) s = .next t ∧ exec m s = .next { t with cmd := m.word } := by
  have hclr : exec .clr s = .next (onFrame (framedBy Instr.clr.word) (resetCall s)) := by
    rw [clrEndsTheCallAndClearsTheError s hidle, ← hnone]
    rfl
  have hfirst : runAll (.clr :: is) s = runAll is (onFrame (framedBy Instr.clr.word) (resetCall s)) := by
    rw [runAll, hclr]
  obtain ⟨w, hothers⟩ := runAll_oneLine his (s := onFrame (framedBy Instr.clr.word) (resetCall s)) rfl rfl
  rw [runLines_blind, stateOf_mapState] at hothers
  refine ⟨_, hfirst.trans hothers, ?_⟩
  rw [exec_of_lines hfmt hidle (.inl hnone), hm, runLines_done (c := .resetCall) rfl hnone]
  rfl

/-- Settles O44: CMP and DCM run the lines that the commands of their expansions run. -/
theorem macroEqualsItsExpansion : Obligations.MacroEqualsItsExpansion := fun _ hidle hnone =>
  ⟨exec_eq_runAll_lines (m := .cmp) (is := [.cnt, .bld, .gen, .wrm, .wrh, .rwd, .enc, .fin]) rfl rfl (by decide) hidle
      hnone,
    exec_eq_runAll_lines (m := .dcm) (is := [.rdm, .rdh, .dec, .fin]) rfl rfl (by decide) hidle hnone⟩

end Sys2Proof.Proofs
end

section
/-! SUPPORT. DCM as the run of its five lines (R226, R229), and the round trip (R228). -/

namespace Sys2Proof.Proofs

open Sys2Proof.Machine Sys2Proof.Laws

/-! ### The lines of DCM -/

/-- A line that ends with an error is followed by the next, too (R226). -/
theorem runLines_raised {c : Component} {cs : List Component} {s t : State} (h : lineRule c s = .raised t)
    (hnone : s.err = .none) : runLines (c :: cs) s = runLines cs t := by
  rw [runLines, if_neg (fun hskip => hskip.1 hnone), h]

/-- After an error the lines are skipped, and a last FIN runs (R222, R226). -/
theorem runLines_after_error {cs : List Component} {s : State} (herr : s.err ≠ .none)
    (hcs : ∀ c ∈ cs, c.runsUnderError = false) : runLines (cs ++ [.fin]) s = .done (finishSink s) := by
  induction cs with
  | nil => simp [runLines, Component.runsUnderError, lineRule, finRule]
  | cons c cs ih =>
    rw [List.cons_append, runLines, if_pos ⟨herr, hcs c (.head _)⟩]
    exact ih fun d hd => hcs d (.tail _ hd)

/-- The header at the cursor is read back as the tree, with every weight 0 (R165, R166). -/
theorem rdhRule_reads {t : Tree} {tail : Bits} {s : State} (hsize : t.size ≤ nodeCap)
    (h : s.src.rest = t.ser ++ tail) :
    rdhRule s = .done { dropTree (atPos (s.src.pos + t.ser.length) s) with
      tree := some t.unweighted, stack := [], nodes := 0 } := by
  rw [← length_tokens] at hsize
  rw [ser_eq_encode_tokens] at h ⊢
  have hturns := readsBack t (s := rdhStart s) [] h ((Nat.zero_add _).trans_le hsize)
  exact iterate_done_mono hturns (Nat.le_succ_of_le hsize)

/-- The weights of a tree have no part in its paths. -/
theorem atPath_unweighted {t x : Tree} {p : Bits} (h : t.atPath p = some x) :
    t.unweighted.atPath p = some x.unweighted := by
  induction t generalizing p with
  | leaf sym w =>
    obtain ⟨rfl, rfl⟩ := atPath_leaf h
    rfl
  | node w l r ihl ihr =>
    rcases p with _ | ⟨_ | _, p⟩
    · cases h
      rfl
    · exact ihl h
    · exact ihr h

/-- The weights of a tree have no part in its codes. -/
theorem isCode_unweighted {t : Tree} {sym : Symbol} {p : Bits} (h : t.IsCode sym p) : t.unweighted.IsCode sym p := by
  cases t with
  | leaf s w => exact h
  | node w l r =>
    obtain ⟨v, hv⟩ := h
    exact ⟨0, atPath_unweighted hv⟩

/-! ### A wrong magic -/

/-- DCM reads once, finds no magic, and finishes the sink (R226, R229). -/
theorem dcmRule_badMagic {s : State} (hnone : s.err = .none)
    (h : s.src.rest.take 32 ≠ bitsOf 32 s.cfg.magic.toNat) :
    dcmRule s = .done (finishSink (raise .rdm .badMagic (readUnit 32 (resetCall s)).2)) := by
  have hrdm := rdmRule_badMagic (s := resetCall s) h
  rw [dcmRule, dcmLines, runLines_done (c := .resetCall) rfl hnone, runLines_raised (c := .rdm) hrdm hnone]
  exact runLines_after_error (cs := [.rdh, .dec]) (by rw [raise_err]; decide) (by decide)

/-- Settles O46: the one read fails, what follows is skipped, and the empty sink is finished empty. -/
theorem dcmRejectsAWrongMagic : Obligations.DcmRejectsAWrongMagic := by
  intro s x hidle hnone hports h
  obtain ⟨hsrc, hsnk⟩ := hports
  have hrest : s.src.rest = bitsOfBytes x := by simp [hsrc, Source.rest]
  have hrule := dcmRule_badMagic (s := beginCommand .dcm s) hnone (by rwa [beginCommand_src, hrest])
  refine ⟨_, runCommand_done (i := .dcm) (rule := dcmRule) hidle (.inl hnone) hrule, ?_, ?_, ?_, ?_⟩
  · simp
  · simp [readUnit]
  · have hempty : (readUnit 32 (resetCall (beginCommand .dcm s))).2.snk = { bits := [], finished := false } := hsnk
    rw [endCommand_snk, finishSink_snk, raise_snk_empty (by rw [hempty]) rfl, hempty]
    rfl
  · simp [statusWord, treeV, readUnit, DState.code, ErrKind.code]

/-! ### A file -/

/-- A sink with the bytes written to it, none if it was finished, is finished (R65, R196). -/
theorem finish_written {k : Sink} {codes : List (Symbol × Bits)} (hopen : k.finished = false ∨ codes = []) :
    Sink.finish { k with bits := k.bits ++ codes.flatMap fun c => bitsOf 8 c.1.val } =
      if k.finished then k
      else { bits := padToByte (k.bits ++ codes.flatMap fun c => bitsOf 8 c.1.val), finished := true } := by
  rcases Bool.eq_false_or_eq_true k.finished with h | h
  · have hcodes : codes = [] := hopen.resolve_left (by simp [h])
    rw [if_pos h, hcodes, List.flatMap_nil, List.append_nil, finish_finished h]
  · rw [if_neg (by simp [h]), finish_open (by exact h)]

/-- DCM accepts the magic, reads the tree back, decodes the codes of it, and finishes the sink (R226). -/
theorem dcmRule_decodes {s : State} {root : Tree} {codes : List (Symbol × Bits)} {last tail : Bits}
    (hnone : s.err = .none) (hopen : s.snk.finished = false ∨ codes = []) (hsize : root.size ≤ nodeCap)
    (hcodes : ∀ c ∈ codes, c.1 ≠ eofSym ∧ root.IsCode c.1 c.2) (hlast : root.IsCode eofSym last)
    (h : s.src.rest = bitsOf 32 s.cfg.magic.toNat ++ (root.ser ++ (codes.flatMap Prod.snd ++ last ++ tail))) :
    dcmRule s = .done { resetCall s with
      tree := some root.unweighted, dstate := .done, cur := none, stack := [], nodes := 0
      src := { s.src with
        pos := s.src.pos + 32 + root.ser.length + (codes.flatMap Prod.snd ++ last).length }
      snk := if s.snk.finished then s.snk
        else { bits := padToByte (s.snk.bits ++ codes.flatMap fun c => bitsOf 8 c.1.val), finished := true } } := by
  have hheader := (readUnit_next (by decide) s.cfg.magic h).2
  have hbody := (rest_advance (atPos (s.src.pos + 32) s).src root.ser.length).trans
    ((congrArg (List.drop _) hheader).trans List.drop_left)
  have hdec := decRule_decodes (root := root.unweighted)
    (s := { resetCall (atPos (s.src.pos + 32 + root.ser.length) s) with
      tree := some root.unweighted, stack := [], nodes := 0 }) rfl hopen
    (fun c hc => (hcodes c hc).imp_right isCode_unweighted) (isCode_unweighted hlast) hbody
  rw [← finish_written hopen]
  refine Eq.trans (runLines_done (c := .resetCall) rfl hnone) ?_
  refine Eq.trans (runLines_done (c := .rdm) (rdmRule_magic (s := resetCall s) h) hnone) ?_
  refine Eq.trans (runLines_done (c := .rdh)
    (rdhRule_reads (s := atPos (s.src.pos + 32) (resetCall s)) hsize hheader) hnone) ?_
  refine Eq.trans (runLines_done (c := .dec) hdec hnone) ?_
  exact runLines_done (c := .fin) (cs := []) rfl hnone

/-- Settles O47: DCM's rule decodes the file, and the frame of the command adds the flags. -/
theorem dcmDecodesTheFile : Obligations.DcmDecodesTheFile := by
  intro s root codes last tail hidle hnone hopen hsize hcodes hlast h
  have hfile : s.src.rest =
      bitsOf 32 s.cfg.magic.toNat ++ (root.ser ++ (codes.flatMap Prod.snd ++ last ++ tail)) := by
    simpa only [List.append_assoc] using h
  have hrule := dcmRule_decodes (s := beginCommand .dcm s) hnone hopen hsize hcodes hlast hfile
  refine (runCommand_done (i := .dcm) (rule := dcmRule) hidle (.inl hnone) hrule).trans ?_
  simp only [List.length_append, Nat.add_assoc]
  rfl

/-! ### The round trip -/

/-- A step of a run that answers a next state (R8). -/
theorem run_succ {k : Nat} {s t : State} (h : step s = .next t) :
    Sys2Proof.core.run (k + 1) s = Sys2Proof.core.run k t := by
  simp only [Host.Core.run, Sys2Proof.core, h]

/-- The state after an attach of `x`, with the host's actions `as` still to come (R79). -/
def attached (x : List Byte) (as : List HostAction) (s : State) : State :=
  { s with src := { bits := bitsOfBytes x, pos := 0 }, snk := { bits := [], finished := false }, host := as }

/-- A host's attach and command take a step each (R79, R105). -/
theorem run_attach_cmd {i : Instr} (hfmt : i.format = .cmd) (hwf : i.wf = true) {s t : State} {x : List Byte}
    (hidle : Idle s) (h : exec i (attached x [] s) = .next t) :
    Sys2Proof.core.run 2 { s with host := [.attach x, .cmd i.word] } = .next t := by
  have hattach : step { s with host := [.attach x, .cmd i.word] } = .next (attached x [.cmd i.word] s) := by
    rw [step_cons rfl, hostAct, attachPorts, if_neg (by simp [hidle])]
    rfl
  have hcmd : step (attached x [.cmd i.word] s) = .next t := by
    rw [step_cons rfl, hostAct, decodeCommand_of_word hfmt hwf]
    exact h
  exact (run_succ hattach).trans (run_succ hcmd)

/-- A tree without a repeated symbol fits the node store (R27). -/
theorem size_le_nodeCap_of_nodup {t : Tree} (h : t.symbols.Nodup) : t.size ≤ nodeCap := by
  have hcard := h.length_le_card
  rw [Tree.symbols, List.length_map, Fintype.card_fin] at hcard
  have hsize := size_eq_leaves t
  rw [nodeCap]
  omega

/-- The code of each byte of an input (R100). -/
def codesFor (ct : Vector (Option Bits) 257) (x : List Byte) : List (Symbol × Bits) :=
  x.map fun b => (b.toFin.castSucc, codeIn ct b.toFin.castSucc)

theorem codesFor_codes (ct : Vector (Option Bits) 257) (x : List Byte) :
    (codesFor ct x).flatMap Prod.snd ++ codeIn ct eofSym = body ct x := by
  rw [codesFor, List.flatMap_map, body]

theorem codesFor_bytes (ct : Vector (Option Bits) 257) (x : List Byte) :
    ((codesFor ct x).flatMap fun c => bitsOf 8 c.1.val) = bitsOfBytes x := by
  rw [codesFor, List.flatMap_map]
  rfl

/-- A symbol that has a code in the table of a tree has that code in the tree. -/
theorem isCode_codeIn {t : Tree} {sym : Symbol} (h : (ctGet sym (codesOf t)).isSome = true) :
    t.IsCode sym (codeIn (codesOf t) sym) := by
  obtain ⟨code, e⟩ := Option.isSome_iff_exists.mp h
  rw [codeIn, e]
  exact isCode_of_codesOf e

/-- The file of an input is whole bytes (R98). -/
theorem bitsOfBytes_file (c : Config) (t : Tree) (x : List Byte) :
    bitsOfBytes (bytesOfBits (fileBits c t x)) = fileBits c t x :=
  bitsOfBytes_bytesOfBits _ (length_padToByte _)

/-- The file of an input is a magic, the tree's header, the codes of the bytes and the sentinel's, and a pad (R98, R100). -/
theorem fileBits_eq (c : Config) (t : Tree) (x : List Byte) : ∃ pad, fileBits c t x =
    bitsOf 32 c.magic.toNat ++ t.ser ++ (codesFor (codesOf t) x).flatMap Prod.snd ++ codeIn (codesOf t) eofSym ++ pad :=
  ⟨_, by rw [fileBits, ← codesFor_codes, ← List.append_assoc, padToByte]⟩

/-- CMP of an input leaves its file in the sink, for some greedy tree of its counts (R222, R228). -/
theorem exec_cmp_file {s : State} {x : List Byte} (hidle : Idle s) (hnone : NoError s) (hports : FreshPorts x s)
    (hrange : InRange x s) :
    ∃ t u, Greedy (wMax s.cfg) (initialLeaves (countsOf x)) t ∧ exec .cmp s = .next u ∧ Idle u ∧
      CompressionSucceeded u ∧ u.snk.output = some (bytesOfBits (fileBits u.cfg t x)) := by
  obtain ⟨t, ht, hcmp, -⟩ := cmpWritesTheFile s x hidle hnone hports hrange
  exact ⟨t, _, ht, hcmp, rfl, ⟨hnone, rfl⟩, rfl⟩

/-- DCM of the file of an input gives the input back (R226, R228). -/
theorem exec_dcm_file {s : State} {x : List Byte} {t : Tree} {top : Nat} (hidle : Idle s) (hnone : NoError s)
    (ht : Greedy top (initialLeaves (countsOf x)) t) (hports : FreshPorts (bytesOfBits (fileBits s.cfg t x)) s) :
    ∃ u, exec .dcm s = .next u ∧ DecompressionSucceeded u ∧ u.snk.output = some x := by
  obtain ⟨hsrc, hsnk⟩ := hports
  obtain ⟨hbytes, heof⟩ := greedy_codes ht
  obtain ⟨pad, hfile⟩ := fileBits_eq s.cfg t x
  have hopen : s.snk.finished = false := by rw [hsnk]
  have hsize := size_le_nodeCap_of_nodup ((greedy_symbols ht).nodup_iff.mpr (initialLeaves_nodup _))
  have hcodes : ∀ c ∈ codesFor (codesOf t) x, c.1 ≠ eofSym ∧ t.IsCode c.1 c.2 := by
    intro c hc
    obtain ⟨b, hb, rfl⟩ := List.mem_map.mp hc
    exact ⟨Fin.castSucc_ne_last b.toFin, isCode_codeIn (hbytes b hb)⟩
  have hrest : s.src.rest = fileBits s.cfg t x := by
    rw [hsrc, bitsOfBytes_file]
    rfl
  refine ⟨_, dcmDecodesTheFile s t _ _ pad hidle hnone (.inl hopen) hsize hcodes (isCode_codeIn heof)
    (hrest.trans hfile), ⟨hnone, rfl, ?_⟩, ?_⟩
  · simp [hopen]
  · have hwhole : (bitsOfBytes x).length % 8 = 0 := by rw [length_bitsOfBytes, Nat.mul_mod_right]
    simp [hsnk, codesFor_bytes, padToByte_of_whole hwhole, Sink.output, bytesOfBits_bitsOfBytes]

/-- Settles O48: CMP leaves the file of the input, which DCM decodes. -/
theorem roundTripGivesTheInputBack : Obligations.RoundTripGivesTheInputBack := by
  intro c x hrange
  obtain ⟨tree, t, htree, hcmp, hidle, hsucceeded, hfile⟩ :=
    exec_cmp_file (s := attached x [] { State.reset with cfg := c }) rfl rfl ⟨rfl, rfl⟩ hrange
  obtain ⟨u, hdcm, hsucceeded', hout⟩ := exec_dcm_file (s := attached (bytesOfBits (fileBits t.cfg tree x)) [] t)
    hidle hsucceeded.1 htree ⟨rfl, rfl⟩
  exact ⟨t, _, u, run_attach_cmd (i := .cmp) rfl rfl rfl hcmp, hsucceeded, hfile,
    run_attach_cmd (i := .dcm) rfl rfl hidle hdcm, hsucceeded', hout⟩

end Sys2Proof.Proofs
end

section
/-! SUPPORT. The errors of the commands: which of them each can raise (R258), from what each turn of a line can leave in
`ERR`; what a recorded error stops (R249); and the failed preconditions (R246). -/

namespace Sys2Proof.Proofs

open Sys2Proof.Machine Sys2Proof.Laws

/-! ### What a turn of a line can leave in `ERR` -/

/-- `ERR` where it was `e` before: as it was, cleared, or of a kind that the instruction can raise (R258). -/
inductive ErrFrom (i : Instr) (e : ErrKind) (t : State) : Prop where
  | kept (h : t.err = e)
  | cleared (h : t.err = .none)
  | raised (h : mayRaise i t.err = true)

/-- `ERR` in an answer, however far the line got. -/
abbrev EndsErrFrom (i : Instr) (e : ErrKind) (p : Progress) : Prop := Ends (ErrFrom i e) (ErrFrom i e) (ErrFrom i e) p

theorem ErrFrom.raise {i : Instr} {k : ErrKind} (h : mayRaise i k = true) (e : ErrKind) (c : Component) (s : State) :
    ErrFrom i e (raise c k s) :=
  .raised (by rwa [raise_err])

theorem ErrFrom.trans {i : Instr} {e : ErrKind} {s t : State} (h : ErrFrom i e s) (h' : ErrFrom i s.err t) :
    ErrFrom i e t := by
  cases h' with
  | cleared h' => exact .cleared h'
  | raised h' => exact .raised h'
  | kept h' =>
    cases h with
    | kept h => exact .kept (h'.trans h)
    | cleared h => exact .cleared (h'.trans h)
    | raised h => exact .raised (by rwa [h'])

/-- The instruction `j` can raise what `i` can. -/
def RaisesAll (i j : Instr) : Prop := ∀ k, mayRaise i k = true → mayRaise j k = true

theorem ErrFrom.mono {i j : Instr} {e : ErrKind} {t : State} (hij : RaisesAll i j) (h : ErrFrom i e t) :
    ErrFrom j e t := by
  cases h with
  | kept h => exact .kept h
  | cleared h => exact .cleared h
  | raised h => exact .raised (hij _ h)

theorem cntByte_err (s : State) : EndsErrFrom .cnt s.err (cntByte s) := by
  rcases cntByte_cases s with ⟨-, e⟩ | ⟨-, v, -, ⟨-, e⟩ | ⟨-, e⟩⟩ <;> rw [e]
  · exact .kept rfl
  · exact .raise rfl _ _ _
  · exact .kept rfl

theorem bldJoin_err (s : State) : EndsErrFrom .bld s.err (bldJoin s) := by
  rcases bldJoin_cases s with ⟨-, e⟩ | ⟨a, rest, -, ⟨-, e⟩ | ⟨b, rest', -, ⟨-, e⟩ | ⟨-, e⟩⟩⟩ <;> rw [e]
  · exact .kept rfl
  · exact .kept rfl
  · exact .raise rfl _ _ _
  · exact .kept rfl

theorem putSymbol_err (sym : Symbol) (s : State) : EndsErrFrom .enc s.err (putSymbol sym s) := by
  rcases putSymbol_cases sym s with ⟨-, e⟩ | ⟨code, -, ⟨-, -, e⟩ | ⟨-, e⟩⟩ <;> rw [e]
  · exact .raise rfl _ _ _
  · exact .raise rfl _ _ _
  · exact .kept rfl

theorem encByte_err (s : State) : EndsErrFrom .enc s.err (encByte s) := by
  have hput := putSymbol_err eofSym (atPos s.src.bits.length s)
  rcases encByte_cases s with ⟨-, ⟨u, h, e⟩ | ⟨u, h, e⟩⟩ | ⟨-, e⟩ <;> rw [e]
  · rwa [h] at hput
  · rwa [h] at hput
  · exact putSymbol_err _ (atPos (s.src.pos + 8) s)

theorem completeSubtree_err (i : Instr) (t : Tree) (k : List Frame) (s : State) :
    EndsErrFrom i s.err (completeSubtree t k s) := by
  rcases completeSubtree_cases t k s with ⟨u, e⟩ | ⟨k', e⟩ <;> rw [e] <;> exact .kept rfl

/-- A leaf token's field that is no symbol is the one error of a token (R168, log entry 4). -/
theorem tokenEffect_err (i : Instr) (s : State) : EndsErrFrom i s.err (tokenEffect i s) := by
  cases i
  case hdrL field =>
    rcases tokenLeaf_cases field s with ⟨-, e⟩ | ⟨hlt, e⟩ <;> rw [tokenEffect, e]
    · exact .raise rfl _ _ _
    · exact completeSubtree_err _ _ _ _
  all_goals exact .kept rfl

/-- RDH can raise what its header's tokens can (R168, R258). -/
theorem raisesAll_token_rdh {i : Instr} (h : i = .hdrI ∨ ∃ field, i = .hdrL field) : RaisesAll i .rdh := by
  intro k
  rcases h with rfl | ⟨field, rfl⟩ <;> cases k <;> simp [mayRaise]

theorem headerToken_err (s : State) : EndsErrFrom .rdh s.err (headerToken s) := by
  rw [headerToken]
  cases e : fetchToken s with
  | error t =>
    rcases fetchToken_cases s with ⟨-, e'⟩ | ⟨-, ⟨-, e'⟩ | ⟨-, ⟨-, e'⟩ | ⟨-, ⟨-, e'⟩ | ⟨-, e'⟩⟩⟩⟩ <;>
      cases e.symm.trans e' <;> exact .raise rfl _ _ _
  | ok p =>
    obtain ⟨htoken, herr⟩ := fetchToken_ok (i := p.1) (t := p.2) e
    have hmono (u : State) (h : ErrFrom p.1 p.2.err u) : ErrFrom .rdh s.err u :=
      .trans (.kept herr) (h.mono (raisesAll_token_rdh htoken))
    exact ends_imp (tokenEffect_err p.1 p.2) hmono hmono hmono

theorem landOn_err (root n : Tree) (s : State) : EndsErrFrom .dec s.err (landOn root n s) := by
  rcases landOn_cases root n s with ⟨w, -, e⟩ | ⟨sym, w, -, -, ⟨-, e⟩ | ⟨-, e⟩⟩ | ⟨w, l, r, -, e⟩ <;> rw [e]
  · exact .kept rfl
  · exact .raise rfl _ _ _
  · exact .kept rfl
  · exact .kept rfl

theorem decBit_err (s : State) : EndsErrFrom .dec s.err (decBit s) := by
  cases ht : s.tree with
  | none => rw [decBit, ht]; exact .raise rfl _ _ _
  | some root =>
    rcases decBit_cases ht with ⟨-, e⟩ | ⟨-, b, -, ⟨sym, w, -, ⟨-, e⟩ | ⟨-, e⟩⟩ | ⟨w, l, r, -, e⟩⟩ <;> rw [e]
    · exact .raise rfl _ _ _
    · exact .raise rfl _ _ _
    · exact landOn_err root _ (atPos (s.src.pos + 1) s)
    · exact landOn_err root _ (atPos (s.src.pos + 1) s)

theorem genRule_err (s : State) : EndsErrFrom .gen s.err (genRule s) := by
  rw [genRule]
  split
  · exact .raised rfl
  · exact .kept rfl

theorem wrmRule_err (s : State) : EndsErrFrom .wrm s.err (wrmRule s) := by
  rw [wrmRule]
  cases h : s.snk.finished with
  | true => rw [writeUnit_finished 32 _ h]; exact .raise rfl _ _ _
  | false => rw [writeUnit_open 32 _ h]; exact .kept rfl

theorem wrhRule_err (s : State) : EndsErrFrom .wrh s.err (wrhRule s) := by
  rw [wrhRule]
  split
  · exact .raised rfl
  · next t _ =>
    cases h : s.snk.finished with
    | true => rw [emit_finished t h]; exact .raise rfl _ _ _
    | false => rw [emit_open t s h]; exact .kept rfl

theorem rdmRule_err (s : State) : EndsErrFrom .rdm s.err (rdmRule s) := by
  rw [rdmRule]
  rcases readUnit_cases 32 s with ⟨-, e⟩ | ⟨-, e⟩ <;> rw [e]
  · dsimp only
    split
    · exact .kept rfl
    · exact .raise rfl _ _ _
  · exact .raise rfl _ _ _

/-! ### Which command can raise which error -/

/-- The command that a line of the sequencer's list belongs to when it is not a line of a macro. ResetCall is what CLR does
but for `ERR` (R39, R211), and the illegal words share one line (R93). -/
def commandOf : Component → Instr
  | .resetCall | .clr => .clr
  | .illegal => .illegal0F
  | .cnt | .cntLoop => .cnt
  | .bld | .bldLoop => .bld
  | .gen => .gen
  | .wrm => .wrm
  | .wrh => .wrh
  | .enc | .encLoop => .enc
  | .rdm => .rdm
  | .rdh | .header => .rdh
  | .dec | .decLoop => .dec
  | .rwd => .rwd
  | .fin => .fin

theorem turnOf_err {c : Component} {s : State} (h : opens c s = none) :
    EndsErrFrom (commandOf c) s.err (turnOf c s) := by
  cases c with
  | cnt => cases h
  | bld => cases h
  | rdh => cases h
  | resetCall => exact .kept rfl
  | clr => exact .cleared rfl
  | illegal => exact .raised rfl
  | cntLoop => exact cntByte_err s
  | bldLoop => exact bldJoin_err s
  | encLoop => exact encByte_err s
  | header => exact headerToken_err s
  | decLoop => exact decBit_err s
  | gen => exact genRule_err s
  | wrm => exact wrmRule_err s
  | wrh => exact wrhRule_err s
  | rdm => exact rdmRule_err s
  | rwd => exact .kept rfl
  | fin => exact .kept rfl
  | enc => rw [turnOf_enc_refused h]; exact .raised rfl
  | dec => rw [turnOf_dec_refused h]; exact .raised rfl

theorem commandOf_of_opens {c d : Component} {s t : State} (h : opens c s = some (d, t)) :
    commandOf d = commandOf c := by
  rcases opens_cases h with ⟨rfl, rfl, -⟩ | ⟨rfl, rfl, -⟩ | ⟨rfl, rfl, -⟩ | ⟨rfl, rfl, -⟩ | ⟨rfl, rfl, -⟩ <;> rfl

theorem lineRule_err {c : Component} (hc : c.inside = false) (s : State) :
    ErrFrom (commandOf c) s.err (stateOf (lineRule c s)) := by
  cases ho : opens c s with
  | none =>
    rw [← turnOf_outside hc]
    exact stateOf_of_ends (turnOf_err ho)
  | some p =>
    obtain ⟨n, e⟩ := lineRule_of_opens (d := p.1) (t := p.2) ho
    obtain ⟨-, hd, -, -, herr, -⟩ := opens_frame ho
    have hloop := iterate_frame (R := fun u v => ErrFrom (commandOf p.1) u.err v) (fun _ => .kept rfl)
      (fun _ _ _ => ErrFrom.trans) (fun u => turnOf_err (opens_inside hd u)) n p.2
    rw [e, ← commandOf_of_opens ho]
    exact .trans (.kept herr) (stateOf_of_ends hloop)

theorem runLines_err {i : Instr} {cs : List Component}
    (hcs : ∀ c ∈ cs, c.inside = false ∧ RaisesAll (commandOf c) i) (s : State) :
    ErrFrom i s.err (stateOf (runLines cs s)) := by
  induction cs generalizing s with
  | nil => exact .kept rfl
  | cons c cs ih =>
    have ih := ih fun d hd => hcs d (.tail c hd)
    obtain ⟨hin, hall⟩ := hcs c (.head cs)
    rcases runLines_cons c cs s with ⟨-, e⟩ | ⟨-, e⟩ <;> rw [e]
    · exact ih s
    · exact .trans ((lineRule_err hin s).mono hall) (ih _)

/-- CMP's row of R258 holds the rows of its lines' commands. -/
theorem raisesAll_cmpLines : ∀ c ∈ cmpLines, RaisesAll (commandOf c) .cmp := by
  intro c hc k
  revert c
  cases k <;> decide

/-- DCM's row of R258 holds the rows of its lines' commands. -/
theorem raisesAll_dcmLines : ∀ c ∈ dcmLines, RaisesAll (commandOf c) .dcm := by
  intro c hc k
  revert c
  cases k <;> decide

/-- A command can raise what the commands of its lines can. -/
theorem raisesAll_linesOf (i : Instr) : ∀ c ∈ linesOf i, RaisesAll (commandOf c) i := by
  intro c hc
  cases i with
  | cmp => exact raisesAll_cmpLines c hc
  | dcm => exact raisesAll_dcmLines c hc
  | illegalHi w =>
    cases List.mem_singleton.mp hc
    intro k
    cases k <;> simp [commandOf, mayRaise]
  | nop => cases hc
  | hdrI => cases hc
  | hdrL field => cases hc
  | _ =>
    cases List.mem_singleton.mp hc
    exact fun _ => id

theorem exec_err {i : Instr} {s t : State} (h : exec i s = .next t) : ErrFrom i s.err t := by
  cases hfmt : i.format with
  | cmd =>
    have hlines := runLines_err (fun c hc => ⟨linesOf_outside i c hc, raisesAll_linesOf i c hc⟩) (beginCommand i s)
    rcases exec_next hfmt h with ⟨-, rfl⟩ | ⟨-, ⟨-, -, rfl⟩ | ⟨-, rfl⟩⟩
    · exact .kept rfl
    · exact .kept rfl
    · exact .trans hlines (.kept rfl)
  | hdr =>
    rcases execToken_next hfmt h with rfl | rfl
    · exact .kept rfl
    · obtain ⟨q, e⟩ := settle_onSeq (tokenEffect i s)
      rw [e]
      exact .trans (stateOf_of_ends (tokenEffect_err i s)) (.kept rfl)

/-- Settles O50: what an instruction leaves in `ERR` is what was there, nothing, or a kind of its row. -/
theorem commandsRaiseOnlyTheirErrors : Obligations.CommandsRaiseOnlyTheirErrors := by
  intro i s t hnone h
  cases exec_err h with
  | kept h => exact .inl (h.trans hnone)
  | cleared h => exact .inl h
  | raised h => exact .inr h

/-! ### What a recorded error stops -/

theorem runsUnderError_iff (i : Instr) : runsUnderError i = true ↔ i = .nop ∨ i = .fin ∨ i = .clr := by
  cases i <;> simp [runsUnderError]

/-- Settles O51: the frame of R220 ignores every other command, and of the three that run only CLR writes `ERR`. -/
theorem errorIsStickyUntilClr : Obligations.ErrorIsStickyUntilClr := by
  intro i s hidle herr hfmt
  have hignored (hi : runsUnderError i = false) : exec i s = .next (ran i s) := by
    rw [exec_eq_runLines hfmt, runCommand_ignored hidle herr hi]
  refine ⟨fun hnop hfin hclr => hignored ?_, fun t h => ?_⟩
  · simp [← Bool.not_eq_true, runsUnderError_iff, hnop, hfin, hclr]
  · cases hi : runsUnderError i with
    | false =>
      rw [if_neg (by rintro rfl; cases hi)]
      cases (hignored hi).symm.trans h
      rfl
    | true =>
      rcases (runsUnderError_iff i).mp hi with rfl | rfl | rfl
      · cases (nopChangesNothing s hidle).symm.trans h; rfl
      · cases (runCommand_done (i := .fin) (rule := finRule) hidle (.inr rfl) rfl).symm.trans h; rfl
      · cases (clrEndsTheCallAndClearsTheError s hidle).symm.trans h; rfl

/-! ### Failed preconditions -/

/-- A rule that turns its command down changes nothing but `ERR`, in the frame of R220 (R246). -/
theorem runCommand_refused {i : Instr} {rule : State → Progress} {s : State} (hidle : Idle s) (hnone : NoError s)
    (h : rule (beginCommand i s) = .raised (refuseCommand (beginCommand i s))) :
    runCommand i rule s = .next { ran i s with err := .badCommand } :=
  runCommand_raised hidle (.inl hnone) h

/-- Settles O52: without the tree, or the table, each of the rules turns its command down. -/
theorem failedPreconditionChangesOnlyErr : Obligations.FailedPreconditionChangesOnlyErr := by
  refine fun s hidle hnone => ⟨fun ht => ⟨?_, ?_, ?_⟩, fun hv => ?_⟩
  · exact runCommand_refused (rule := genRule) hidle hnone (by rw [genRule, beginCommand_tree, ht])
  · exact runCommand_refused (rule := wrhRule) hidle hnone (by rw [wrhRule, beginCommand_tree, ht])
  · exact runCommand_refused (rule := decRule) hidle hnone (by rw [decRule, beginCommand_tree, ht])
  · exact runCommand_refused (rule := encRule) hidle hnone (by rw [encRule, beginCommand_ctV, hv]; rfl)

end Sys2Proof.Proofs
end

section
/-! SUPPORT. Every instruction ends and no step is stuck (R287), and the host's accesses while a command runs (R284). -/

namespace Sys2Proof.Proofs

open Sys2Proof.Machine Sys2Proof.Laws

/-! ### Every command ends -/

theorem exec_ends (i : Instr) (s : State) : ∃ t, exec i s = .next t := by
  cases hfmt : i.format with
  | cmd =>
    rw [exec_eq_runLines hfmt]
    exact runCommand_ends s (runLines_ends _)
  | hdr =>
    cases i
    case hdrI => rw [exec, execHdrI]; split <;> exact ⟨_, rfl⟩
    case hdrL field => rw [exec, execHdrL]; split <;> exact ⟨_, rfl⟩
    all_goals cases hfmt

theorem engineStep_ends (s : State) : ∃ t, engineStep s = .next t := by
  cases hb : s.busy with
  | false => exact ⟨s, engineStep_idle hb⟩
  | true =>
    rw [engineStep, if_pos hb]
    cases hq : s.seq with
    | nil => exact ⟨_, rfl⟩
    | cons c cs =>
      dsimp only
      split
      · exact ⟨_, rfl⟩
      · cases ho : opens c s with
        | none => exact ⟨_, lineStep_of_not_opens hb (by rw [hq]; rfl) ho⟩
        | some p => exact ⟨_, lineStep_of_opens (d := p.1) (t := p.2) ho⟩

/-- The one step without a next state is an Attach while busy, which is not allowed (R79, R284). -/
theorem step_ends (s : State) : (∃ t, step s = .next t) ∨ step s = .refused .attachWhileBusy := by
  cases hh : s.host with
  | nil => rw [step_nil hh]; exact .inl (engineStep_ends s)
  | cons a rest =>
    rw [step_cons hh]
    cases a with
    | cmd w => exact .inl (exec_ends _ _)
    | engine => exact .inl (engineStep_ends _)
    | attach bytes =>
      rw [hostAct, attachPorts]
      split
      · exact .inr rfl
      · exact .inl ⟨_, rfl⟩
    | _ => exact .inl ⟨_, rfl⟩

/-- Settles O49: the lines of every command end within their bounds, and every step has a next state or is refused. -/
theorem everyCommandEnds : Obligations.EveryCommandEnds := by
  refine ⟨exec_ends, fun s => ?_⟩
  rcases step_ends s with ⟨t, e⟩ | e <;> rw [e] <;> exact nofun

/-! ### The host while a command runs -/

theorem exec_busy {i : Instr} (hfmt : i.format = .cmd) {s : State} (hb : s.busy = true) : exec i s = .next s := by
  rw [exec_eq_runLines hfmt, runCommand_busy hb]

theorem hostWriteReg_busy (v : BitVec 16) {s : State} (hb : s.busy = true) : hostWriteReg 0 v s = s :=
  startCommand_busy hb

theorem hostWriteWt_busy (sym : Symbol) (v : Nat) {s : State} (hb : s.busy = true) : hostWriteWt sym v s = s :=
  if_pos hb

theorem hostReadWt_busy (sym : Symbol) {s : State} (hb : s.busy = true) :
    ∃ v n, hostReadWt sym s = { s with hostRead := some (.weight v), fresh := n } :=
  ⟨_, _, if_pos hb⟩

theorem hostReadCt_busy (sym : Symbol) {s : State} (hb : s.busy = true) :
    ∃ v n, hostReadCt sym s = { s with hostRead := some (.code v), fresh := n } :=
  ⟨_, _, if_pos hb⟩

theorem attachPorts_busy (bytes : List Byte) {s : State} (hb : s.busy = true) :
    attachPorts bytes s = .refused .attachWhileBusy :=
  if_pos hb

/-- Settles O10: each access tests `BUSY` first, but for the read of `STATUS`, which does not. -/
theorem hostAccessWhileBusy : Obligations.HostAccessWhileBusy := by
  intro s rest hb
  have hb' : { s with host := rest }.busy = true := hb
  refine ⟨fun w h => ?_, fun v h => ?_, fun sym v h => ?_, fun sym h => ?_, fun sym h => ?_, fun bytes h => ?_,
    step_cons⟩ <;> rw [step_cons h, hostAct]
  · exact exec_busy (decodeCommand_format w) hb'
  · rw [hostWriteReg_busy v hb']
  · rw [hostWriteWt_busy sym v hb']
  · obtain ⟨v, n, e⟩ := hostReadWt_busy sym hb'
    exact ⟨v, n, congrArg Host.Outcome.next e⟩
  · obtain ⟨v, n, e⟩ := hostReadCt_busy sym hb'
    exact ⟨v, n, congrArg Host.Outcome.next e⟩
  · exact attachPorts_busy bytes hb'

end Sys2Proof.Proofs
end
